-- ==== Sys2Proof/Word.lean ====
section
/-! DEFINITION. Word.lean: the word types of the block and the little-endian composition of bytes
(00_scope.md R8, R9, R10). -/

namespace Sys2Proof

/-- One byte of memory or of the stream. -/
abbrev Byte := BitVec 8

/-- A 64-bit system byte address (R7 `ADDR_WIDTH`). -/
abbrev Addr := BitVec 64

/-- A host-visible register or a datapath cursor (R7 `REG_WIDTH`, cursor width). -/
abbrev Word := BitVec 64

/-- `LE(b0, …, b_{n-1})` of R10. -/
def leNat : List Byte → Nat
  | [] => 0
  | b :: bs => b.toNat + 256 * leNat bs

/-- The `n` bytes of `v`, least significant first (R10 `MemWrite`'s bytes). -/
def leBytes : Nat → Nat → List Byte
  | 0, _ => []
  | n + 1, v => BitVec.ofNat 8 v :: leBytes n (v / 256)

end Sys2Proof
end

