-- ==== Sys2Proof/Config.lean ====
section
/-! DEFINITION. Config.lean: the block's implementation parameters (00_scope.md R7) and the free values:
the one the spec leaves open (93_implementation_defined.md U1, U11) and what an address without memory reads as. -/

namespace Sys2Proof.Config

/-- R7 `MAX_INPUT`: the largest uncompressed length. -/
abbrev maxInput : Nat := 4294967295

/-- R7 `FRAG_SIZE`: bytes per encoder fragment. -/
abbrev fragSize : Nat := 65536

/-- R7 `HT_MIN_BITS`. -/
abbrev htMinBits : Nat := 8

/-- R7 `HT_MAX_BITS`, the source's `kMaxHashTableBits` (D6). -/
abbrev htMaxBits : Nat := 15

/-- R7 `HASH_MUL`. -/
abbrev hashMul : BitVec 32 := 0x1E35A7BD#32

/-- R7 `INPUT_MARGIN`. -/
abbrev inputMargin : Nat := 15

/-- R7 `SKIP_INIT`. -/
abbrev skipInit : Nat := 32

/-- R7 `SKIP_SHIFT`. -/
abbrev skipShift : Nat := 5

/-- R7 `COPY_CHUNK`. -/
abbrev copyChunk : Nat := 64

/-- R15 `max_compressed_length(n)`, exact (R7 `MAXLEN_BASE`, `MAXLEN_DIV`). -/
def maxCompressedLength (n : Nat) : Nat := 32 + n + n / 6

/-- The free byte of U1 (a host read of OUT while a command runs) and of U11 (an OUT byte of a command that
reset cut short): no body, so nothing is known of any of its values. State's counter `fresh` numbers them.
DESIGN CHOICE, safe; log entry 6. -/
opaque freeByte : Nat → Byte

/-- What an address that MemMap maps to no memory reads as (R7, R61): no body. Every access that could read it is refused,
so no step from a state of a run does. DESIGN CHOICE, safe; log entry 9. -/
opaque unmappedByte : BitVec 64 → Byte

end Sys2Proof.Config
end

