-- ==== Sys2Proof/Syntax.lean ====
section
/-! DEFINITION. Syntax.lean: the block's instructions, one constructor per row of spec/opcode_table.json
(30_encoding.md R85 to R89, R94, R99). -/

namespace Sys2Proof

/-- One instruction. The stream operations carry their tag's fields and their operand bytes; a literal's data
bytes are not part of it: they are the memory operand the meaning moves (R225). The varint bytes carry their
payload group. A host command carries its LEVEL field (R22). -/
inductive Instr where
  /-- LIT_X1 (R86): one extra length byte, `length - 1`. -/
  | litX1 (e : BitVec 8)
  /-- LIT_X2 (R86): two extra length bytes. -/
  | litX2 (e : BitVec 16)
  /-- LIT_X3 (R86): three extra length bytes. -/
  | litX3 (e : BitVec 24)
  /-- LIT_X4 (R86): four extra length bytes. -/
  | litX4 (e : BitVec 32)
  /-- LIT_SHORT (R85): `n` is the tag's N, `length - 1`. -/
  | litShort (n : BitVec 6)
  /-- COPY1 (R87): `l` is tag[4:2], `length - 4`; `off` is tag[7:5] over the offset byte. -/
  | copy1 (l : BitVec 3) (off : BitVec 11)
  /-- COPY2 (R88): `l` is tag[7:2], `length - 1`. -/
  | copy2 (l : BitVec 6) (off : BitVec 16)
  /-- COPY4 (R89): `l` is tag[7:2], `length - 1`. -/
  | copy4 (l : BitVec 6) (off : BitVec 32)
  /-- VARINT_MORE (R81, R99): C = 1. -/
  | varintMore (g : BitVec 7)
  /-- VARINT_LAST (R81, R99): C = 0. -/
  | varintLast (g : BitVec 7)
  /-- CMD_MAXLEN (R94). -/
  | cmdMaxlen (level : BitVec 2)
  /-- CMD_COMPRESS (R94). -/
  | cmdCompress (level : BitVec 2)
  /-- CMD_GETLEN (R94). -/
  | cmdGetlen (level : BitVec 2)
  /-- CMD_DECOMPRESS (R94). -/
  | cmdDecompress (level : BitVec 2)
  /-- CMD_VALIDATE (R94). -/
  | cmdValidate (level : BitVec 2)
  deriving DecidableEq, Repr

/-- Where an instruction's bits stand: the three places the block decodes (R3, R80, R94). The same byte means
one thing in the varint and another in the operations after it. -/
inductive Context where
  /-- A tagged operation of the compressed stream (R80). -/
  | stream
  /-- A byte of the stream's varint (R81). -/
  | varintByte
  /-- The 64-bit value of a CMD register write (R94). -/
  | command
  deriving DecidableEq, Repr

/-- The place an instruction is decoded in. -/
def contextOf : Instr → Context
  | .litX1 _ => .stream
  | .litX2 _ => .stream
  | .litX3 _ => .stream
  | .litX4 _ => .stream
  | .litShort _ => .stream
  | .copy1 _ _ => .stream
  | .copy2 _ _ => .stream
  | .copy4 _ _ => .stream
  | .varintMore _ => .varintByte
  | .varintLast _ => .varintByte
  | .cmdMaxlen _ => .command
  | .cmdCompress _ => .command
  | .cmdGetlen _ => .command
  | .cmdDecompress _ => .command
  | .cmdValidate _ => .command

end Sys2Proof
end

