-- ==== Sys2Proof/Machine/State.lean ====
section
/-! DEFINITION. Machine/State.lean: everything the spec gives the block (10_state.md R20 to R45), the memory it
reaches, the host's pending actions, and the reasons a step can stop. -/

namespace Sys2Proof.Machine

/-- The width of a host access to the register window (R30). -/
inductive AccessWidth where
  /-- 8 bits. -/
  | w8
  /-- 16 bits. -/
  | w16
  /-- 32 bits. -/
  | w32
  /-- 64 bits, the only defined width. -/
  | w64
  deriving DecidableEq, Repr

/-- What the host does in one slot of the interleaving (R18, R280, R284; DESIGN CHOICE, safe; log entry 16). -/
inductive HostAction where
  /-- The host does nothing: the core takes a step. -/
  | core
  /-- A read of the register window at a system address (R21, R30). -/
  | read (a : BitVec 64) (width : AccessWidth)
  /-- A write of the register window at a system address (R21, R30). -/
  | write (a : BitVec 64) (width : AccessWidth) (v : BitVec 64)
  /-- A host read of one byte of memory (R75). -/
  | load (a : BitVec 64)
  /-- A host write of one byte of memory (R75, R280). -/
  | store (a : BitVec 64) (b : BitVec 8)
  /-- The reset signal (R284, R330, R331). -/
  | reset
  deriving DecidableEq, Repr

/-- Where the running command stands in its rule's pseudocode. It is the model's own: the spec's rules are read
line by line (R286; DEDUCED, safe; log entry 8). -/
inductive Phase where
  /-- No command runs. -/
  | idle
  /-- VARINT_DECODE of GETLEN, DECOMPRESS or VALIDATE (R122). -/
  | varint
  /-- The operation loop of DECOMPRESS or VALIDATE (R220, R260). -/
  | ops
  /-- The fragment loop of COMPRESS (R173). -/
  | fragment
  /-- The probe loop of COMPRESS (R178). -/
  | probe
  deriving DecidableEq, Repr

/-- The command's arguments as latched at its start (R281). -/
structure Latch where
  /-- OPCODE, CMD[2:0] (R22). -/
  opcode : BitVec 3
  /-- LEVEL, CMD[5:4] (R22). -/
  level : BitVec 2
  /-- IN_BASE. -/
  inBase : BitVec 64
  /-- IN_LEN. -/
  inLen : BitVec 64
  /-- OUT_BASE. -/
  outBase : BitVec 64
  /-- OUT_LEN. -/
  outLen : BitVec 64
  deriving DecidableEq, Repr

/-- The varint unit's registers (R35). -/
structure VarintRegs where
  /-- The accumulated value. -/
  acc : BitVec 35
  /-- The next group's shift. -/
  shift : BitVec 6
  /-- Bytes consumed. -/
  count : BitVec 3
  deriving DecidableEq, Repr

/-- The decoder's and validator's registers (R32, R33). -/
structure DecRegs where
  /-- `uncompressed_length`. -/
  L : BitVec 32
  /-- The read cursor into IN, the block's program counter (R32). -/
  ip : BitVec 64
  /-- Bytes produced so far. -/
  op : BitVec 64
  /-- The current operation's tag byte. -/
  tag : BitVec 8
  /-- The current operation's length. -/
  len : BitVec 64
  /-- The current copy's offset. -/
  offset : BitVec 64
  /-- The byte index inside a literal or copy. -/
  k : BitVec 64
  deriving DecidableEq, Repr

/-- The encoder's registers (R34). -/
structure EncRegs where
  /-- IN_LEN, the input length. -/
  n : BitVec 64
  /-- The write cursor into OUT. -/
  op : BitVec 64
  /-- The offset in IN of the fragment's first byte. -/
  base : BitVec 64
  /-- The fragment's length. -/
  len : BitVec 17
  /-- The base-two logarithm of the fragment's table size. -/
  tableBits : BitVec 4
  /-- The fragment-relative read cursor. -/
  ip : BitVec 17
  /-- The first unemitted literal byte, fragment-relative. -/
  nextEmit : BitVec 17
  /-- The skip counter. -/
  skip : BitVec 64
  /-- The four bytes at ip. -/
  w : BitVec 32
  /-- The hash index. -/
  h : BitVec 15
  /-- The entry read from HT. -/
  candidate : BitVec 16
  /-- The match length. -/
  mlen : BitVec 17
  deriving DecidableEq, Repr

/-- `MemMap` (R7, OPEN): the platform's map of a 64-bit byte address to memory, as a list of the addresses it does not
map to their own number: each with the number of the byte of memory it names, or with none where it names no memory. The
first entry of an address counts. Several addresses may name one byte (DESIGN CHOICE, safe; log entry 9). -/
abbrev MemMap := List (BitVec 64 × Option (BitVec 64))

/-- System memory as the block reaches it (R61): the platform's map and the bytes. -/
structure Memory where
  /-- `MemMap` (R7, OPEN). No rule changes it. -/
  map : MemMap
  /-- The bytes, at the numbers MemMap gives: numbers strictly rising, no listed unlisted-value. -/
  cells : List Host.Cell
  deriving DecidableEq, Repr

/-- The whole state: the block's, the memory it reaches, and the model's own record of the host. -/
structure State where
  /-- STATUS (R23), offset 0x08. -/
  status : BitVec 64
  /-- IN_BASE (R24), offset 0x10. -/
  inBase : BitVec 64
  /-- IN_LEN (R25), offset 0x18. -/
  inLen : BitVec 64
  /-- OUT_BASE (R26), offset 0x20. -/
  outBase : BitVec 64
  /-- OUT_LEN (R27), offset 0x28. -/
  outLen : BitVec 64
  /-- RESULT (R28), offset 0x30. -/
  result : BitVec 64
  /-- The running command's latched arguments (R281). -/
  latch : Latch
  /-- Where the running command stands (the model's own). -/
  phase : Phase
  /-- The varint unit (R35). -/
  varint : VarintRegs
  /-- The decoder and validator (R33). -/
  dec : DecRegs
  /-- The encoder (R34). -/
  enc : EncRegs
  /-- HT (R40): (index, entry) pairs, indices strictly rising, no entry 0; an unlisted index holds 0. -/
  ht : List (Nat × BitVec 16)
  /-- System memory, IN and OUT within it (R61). -/
  mem : Memory
  /-- `REG_WINDOW_BASE` (R7, OPEN): the system address of the window's offset 0. No rule changes it (log entry 20). -/
  windowBase : BitVec 64
  /-- The host's coming actions, the first the next (the model's own; an input). -/
  host : List HostAction
  /-- What the host's last read returned (the model's own). -/
  hostData : BitVec 64
  /-- How many free values have been drawn (the model's own). -/
  fresh : Nat
  deriving DecidableEq, Repr

/-- Why the machine stops with a fault. -/
inductive Fault where
  /-- R147, R315: a tag encoder called outside its precondition. Raised by the encoder's emission
  (Machine/Encoder.lean). Safe: the machine stops, as 93_implementation_defined.md U13 asks. -/
  | tagEncoderDomain
  /-- R10, R63: a write of OUT[j] with j ≥ OUT_LEN, which names no byte. Raised by the operations that write OUT
  (Machine/Ops.lean). Safe: the machine stops, and no run of the rules reaches it (R191, R238). -/
  | outOfRegion
  deriving DecidableEq, Repr

/-- Why the machine has no move. -/
inductive Refusal where
  /-- An instruction whose meaning is not written, by its mnemonic. Raised by exec's refused arms only. Safe. -/
  | notModelled (mnemonic : String)
  /-- R61, U4: a command whose region runs past address 2^64. Raised by the command starts. Safe: the spec gives
  the command no effect. -/
  | regionWraps
  /-- R61: an address of a command's region, or of a host access to memory, that MemMap maps to no memory. Raised by the
  command starts, a host load and a host store. Safe: no byte is there, and the spec gives the access no effect (log entry
  9). -/
  | notMapped
  /-- R64, U3: a command whose IN and OUT regions overlap, in their addresses or in the bytes MemMap gives them, or whose
  OUT region names a byte twice (R61; log entry 9). Raised by the starts of COMPRESS and DECOMPRESS. Safe: the spec gives
  the command no effect. -/
  | regionsOverlap
  /-- R284, R340, U2: the host wrote IN or OUT while a command that uses it runs. Raised by a host store. Safe: the
  spec gives the command no result. -/
  | hostTouchedRegion
  /-- R220, R260, R122: a stream operation or a varint byte where no command that reads it stands at it. No step
  comes here: only a direct use of exec on a state whose command is elsewhere. Safe. -/
  | noStreamRunning
  deriving DecidableEq, Repr

/-- The outcome of a step or a meaning. -/
abbrev Result := Host.Outcome State Fault Refusal

/-- The state after reset (R44, R330). Memory lists nothing and the host has nothing to do; the datapath, HT and
the latched arguments, which the spec leaves unspecified and no command reads before writing, are zero; the OPEN
parameters MemMap and REG_WINDOW_BASE are the identity and 0 (DESIGN CHOICE, unsafe; log entries 1, 2, 5, 9, 20). -/
def State.reset : State where
  status := 0
  inBase := 0
  inLen := 0
  outBase := 0
  outLen := 0
  result := 0
  latch := { opcode := 0, level := 0, inBase := 0, inLen := 0, outBase := 0, outLen := 0 }
  phase := .idle
  varint := { acc := 0, shift := 0, count := 0 }
  dec := { L := 0, ip := 0, op := 0, tag := 0, len := 0, offset := 0, k := 0 }
  enc :=
    { n := 0, op := 0, base := 0, len := 0, tableBits := 0, ip := 0, nextEmit := 0, skip := 0,
      w := 0, h := 0, candidate := 0, mlen := 0 }
  ht := []
  mem := { map := [], cells := [] }
  windowBase := 0
  host := []
  hostData := 0
  fresh := 0

end Sys2Proof.Machine
end

