-- ==== Sys2Proof/Machine/Flags.lean ====
section
/-! DEFINITION. Machine/Flags.lean: the flags, which are STATUS's fields (10_state.md R23, R36), and the error codes
(60_exceptions.md R301). -/

namespace Sys2Proof.Machine

/-- The block's error kinds, with `none` for success (R300, R301). -/
inductive ErrKind where
  /-- The command succeeded, or never raises. -/
  | none
  /-- COMPRESS: IN_LEN > 2^32 − 1. -/
  | inputTooLarge
  /-- COMPRESS or DECOMPRESS: OUT_LEN below what the command needs. -/
  | insufficientBuffer
  /-- DECOMPRESS: a structural defect of the stream. -/
  | corruptedData
  deriving DecidableEq, Repr

/-- STATUS.ERR's code of an error kind (R23, R301). -/
def errCode : ErrKind → BitVec 2
  | .none => 0#2
  | .inputTooLarge => 1#2
  | .insufficientBuffer => 2#2
  | .corruptedData => 3#2

/-- STATUS while a command runs: BUSY = 1, DONE = 0, ERR = 0b00, VALID = 0 (R281). -/
def statusRunning : BitVec 64 := 1#64

/-- STATUS at completion: BUSY = 0, DONE = 1, with ERR and VALID (R282). Bits 63:5 read 0 (R23). -/
def statusDone (err : ErrKind) (valid : BitVec 1) : BitVec 64 :=
  (0#59 ++ valid ++ errCode err ++ 2#2 : BitVec 64)

/-- STATUS.BUSY (R23). -/
def busy (s : State) : Bool := s.status.getLsbD 0

/-- STATUS.DONE (R23). -/
def done (s : State) : Bool := s.status.getLsbD 1

/-- STATUS.ERR (R23). -/
def errField (s : State) : BitVec 2 := s.status.extractLsb' 2 2

/-- STATUS.VALID (R23). -/
def validField (s : State) : BitVec 1 := s.status.extractLsb' 4 1

end Sys2Proof.Machine
end

