-- ==== Sys2Proof/Machine/Ops.lean ====
section
/-! DEFINITION. Machine/Ops.lean: the named operations every meaning is written over: sparse tables, memory, the IN
and OUT regions, starting a command, completing it, and raising an error (which is the block's exception, R302). -/

namespace Sys2Proof.Machine

/-! ### Sparse tables in canonical form -/

/-- The value at key `a` of a list of pairs; `d` where the list has none. -/
def sparseGet {w : Nat} (d : BitVec w) : List (Nat × BitVec w) → Nat → BitVec w
  | [], _ => d
  | (k, v) :: t, a => if k = a then v else sparseGet d t a

/-- Writes `v` at key `a`, keeping the keys rising and listing no `d`. -/
def sparseSet {w : Nat} (d : BitVec w) : List (Nat × BitVec w) → Nat → BitVec w → List (Nat × BitVec w)
  | [], a, v => if v = d then [] else [(a, v)]
  | (k, x) :: t, a, v =>
    if k < a then (k, x) :: sparseSet d t a v
    else if k = a then (if v = d then t else (a, v) :: t)
    else if v = d then (k, x) :: t else (a, v) :: (k, x) :: t

/-- The canonical form: keys strictly rising from `lo` and below `bound`, no value `d`. -/
def sparseWf {w : Nat} (d : BitVec w) (bound : Nat) : Nat → List (Nat × BitVec w) → Bool
  | _, [] => true
  | lo, (k, v) :: t => decide (lo ≤ k) && decide (k < bound) && (v != d) && sparseWf d bound (k + 1) t

/-! ### Memory (20_memory.md R61) -/

/-- `MemMap` of a system address (R7, R61): the byte of memory it names, if any. -/
def mapAddr : MemMap → Addr → Option Addr
  | [], a => some a
  | (b, c) :: rest, a => if b = a then c else mapAddr rest a

/-- Some address that `p` holds of names the byte. -/
def names (f : MemMap) (p : Addr → Bool) (c : Addr) : Bool :=
  (p c && decide (mapAddr f c = some c)) || f.any (fun e => p e.1 && decide (mapAddr f e.1 = some c))

/-- Some address that `p` holds of names the byte that `a` names. -/
def namedWith (f : MemMap) (p : Addr → Bool) (a : Addr) : Bool :=
  match mapAddr f a with
  | some c => names f p c
  | none => false

/-- What an address that memory does not list reads as (DESIGN CHOICE, unsafe; log entry 1). -/
def unlistedByte : Byte := 0#8

/-- The byte at a system address. -/
def memRead (m : Memory) (a : Addr) : Byte :=
  match mapAddr m.map a with
  | some c => sparseGet unlistedByte m.cells c.toNat
  | none => Config.unmappedByte a

/-- Memory with one byte written; an address that names no byte writes none. -/
def memWrite (m : Memory) (a : Addr) (b : Byte) : Memory :=
  { m with
    cells :=
      match mapAddr m.map a with
      | some c => sparseSet unlistedByte m.cells c.toNat b
      | none => m.cells }

/-- Memory is in canonical form over the 64-bit address space. -/
def memWf (m : Memory) : Bool := sparseWf unlistedByte (2 ^ 64) 0 m.cells

/-- Moves `n` bytes from `src` to `dst`, one at a time in increasing order, each read after the writes before it
(R74, R231): LITERAL_BODY, COPY_BODY and EMIT_LITERAL move their bytes by it. -/
def copyBytes : Nat → Addr → Addr → Memory → Memory
  | 0, _, _, m => m
  | n + 1, src, dst, m => copyBytes n (src + 1) (dst + 1) (memWrite m dst (memRead m src))

/-- Writes bytes at rising addresses from `dst`. -/
def storeBytes : List Byte → Addr → Memory → Memory
  | [], _, m => m
  | b :: bs, dst, m => storeBytes bs (dst + 1) (memWrite m dst b)

/-- Gives `n` bytes from `dst` the free values numbered from `fresh` (R331, U11). -/
def freeBytes : Nat → Nat → Addr → Memory → Memory
  | 0, _, _, m => m
  | n + 1, fresh, dst, m => freeBytes n (fresh + 1) (dst + 1) (memWrite m dst (Config.freeByte fresh))

/-! ### The hash table (R40) -/

/-- HT[h]. -/
def htRead (t : List (Nat × BitVec 16)) (h : Nat) : BitVec 16 := sparseGet 0#16 t h

/-- HT with one entry written. -/
def htWrite (t : List (Nat × BitVec 16)) (h : Nat) (v : BitVec 16) : List (Nat × BitVec 16) := sparseSet 0#16 t h v

/-- HT with entries 0 … tsize − 1 set to 0 (R41, R177); the entries above keep their values. -/
def htClear (tsize : Nat) (t : List (Nat × BitVec 16)) : List (Nat × BitVec 16) :=
  t.filter (fun e => decide (tsize ≤ e.1))

/-- HT is in canonical form over its 32768 indices. -/
def htWf (t : List (Nat × BitVec 16)) : Bool := sparseWf 0#16 (2 ^ Config.htMaxBits) 0 t

/-! ### The IN and OUT regions of the running command -/

/-- The system address of IN[i] (R61). -/
def inAddr (s : State) (i : Nat) : Addr := s.latch.inBase + BitVec.ofNat 64 i

/-- The system address of OUT[j] (R61). -/
def outAddr (s : State) (j : Nat) : Addr := s.latch.outBase + BitVec.ofNat 64 j

/-- IN[i] (R10). -/
def inByte (s : State) (i : Nat) : Byte := memRead s.mem (inAddr s i)

/-- OUT[j] (R10). -/
def outByte (s : State) (j : Nat) : Byte := memRead s.mem (outAddr s j)

/-- IN_LEN of the running command. -/
def inLenOf (s : State) : Nat := s.latch.inLen.toNat

/-- OUT_LEN of the running command. -/
def outLenOf (s : State) : Nat := s.latch.outLen.toNat

/-- R224, R261: NEED(k) passes at ip: k bytes of IN are left. -/
def available (s : State) (k : Nat) : Bool := decide (k ≤ inLenOf s - s.dec.ip.toNat)

/-! ### Updates of one part of the state -/

/-- The state with the decoder's registers replaced. -/
def setDec (s : State) (d : DecRegs) : State := { s with dec := d }

/-- The state with the encoder's registers replaced. -/
def setEnc (s : State) (e : EncRegs) : State := { s with enc := e }

/-- The state with the varint unit's registers replaced. -/
def setVarint (s : State) (v : VarintRegs) : State := { s with varint := v }

/-- The state with memory replaced. -/
def setMem (s : State) (m : Memory) : State := { s with mem := m }

/-- The state with HT replaced. -/
def setHt (s : State) (t : List (Nat × BitVec 16)) : State := { s with ht := t }

/-- The state with the running command at another place of its rule. -/
def setPhase (s : State) (p : Phase) : State := { s with phase := p }

/-- The state with the host's coming actions replaced. -/
def setHost (s : State) (acts : List HostAction) : State := { s with host := acts }

/-! ### Command start and completion (45_interface.md R281, R282) -/

/-- R22 OPCODE of the five commands. -/
def opMaxlen : BitVec 3 := 1#3
/-- R22. -/
def opCompress : BitVec 3 := 2#3
/-- R22. -/
def opGetlen : BitVec 3 := 3#3
/-- R22. -/
def opDecompress : BitVec 3 := 4#3
/-- R22. -/
def opValidate : BitVec 3 := 5#3

/-- R281's atomic effect, before the command's own rule runs. -/
def beginCommand (opcode : BitVec 3) (level : BitVec 2) (s : State) : State :=
  { s with
    status := statusRunning
    result := 0
    latch :=
      { opcode := opcode, level := level, inBase := s.inBase, inLen := s.inLen,
        outBase := s.outBase, outLen := s.outLen } }

/-- R282: the atomic completion, with the values the command's rule gives. HT, the latched arguments and the datapath
registers, whose contents between commands the spec leaves unspecified (R42, R44, U9, U10), keep what the command left
(DESIGN CHOICE, unsafe, unobservable; log entry 19). -/
def complete (err : ErrKind) (valid : BitVec 1) (result : Word) (s : State) : State :=
  { s with status := statusDone err valid, result := result, phase := .idle }

/-- `raise E`, the block's exception entry (R302): the command stops and completes with ERR = code(E), RESULT = 0
and VALID = 0; nothing else is saved, and no later line of its rule runs. There is no return from it (R308). -/
def raise (err : ErrKind) (s : State) : Result := .next (complete err 0#1 0 s)

/-- VALIDATE's LEGAL (R260). -/
def legal (s : State) : Result := .next (complete .none 1#1 0 s)

/-- VALIDATE's ILLEGAL (R260), and GETLEN's `None` (R275): VALID = 0, ERR = 0b00, RESULT = 0. -/
def illegal (s : State) : Result := .next (complete .none 0#1 0 s)

/-- R61: `BASE + LEN ≤ 2^64`. -/
def regionFits (base len : BitVec 64) : Bool := decide (base.toNat + len.toNat ≤ 2 ^ 64)

/-- The address is one of the `len` from `base`. -/
def inRegion (base len a : BitVec 64) : Bool := decide ((a - base).toNat < len.toNat)

/-- R61: every address of the region names a byte of memory (log entry 9). It is enough to look at the addresses MemMap
lists. -/
def regionMapped (f : MemMap) (base len : BitVec 64) : Bool :=
  f.all (fun e => !inRegion base len e.1 || (mapAddr f e.1).isSome)

/-- No address of `p` names the byte of another address of `q`. It is enough to look at the addresses MemMap lists. -/
def namedApart (f : MemMap) (p q : Addr → Bool) : Bool :=
  f.all (fun e =>
    (!p e.1 || !namedWith f (fun a => q a && decide (a ≠ e.1)) e.1) &&
      (!q e.1 || !namedWith f (fun a => p a && decide (a ≠ e.1)) e.1))

/-- R64: the two regions' addresses are disjoint, and so are their bytes; and OUT names no byte twice (R61; DEDUCED, safe;
log entry 9). -/
def regionsApart (f : MemMap) (inBase inLen outBase outLen : BitVec 64) : Bool :=
  (decide (inBase.toNat + inLen.toNat ≤ outBase.toNat) || decide (outBase.toNat + outLen.toNat ≤ inBase.toNat)) &&
    namedApart f (inRegion inBase inLen) (inRegion outBase outLen) &&
    namedApart f (inRegion outBase outLen) (inRegion outBase outLen)

/-- R64: IN and OUT are disjoint. -/
def regionsDisjoint (s : State) : Bool := regionsApart s.mem.map s.inBase s.inLen s.outBase s.outLen

/-- The start of a command that uses neither region (MAXLEN). A CMD write while BUSY = 1 is ignored (R30, R281). -/
def startPlain (opcode : BitVec 3) (level : BitVec 2) (run : State → Result) (s : State) : Result :=
  if busy s then .next s else run (beginCommand opcode level s)

/-- The start of a command that reads IN only (GETLEN, VALIDATE): refused where IN does not fit or has no memory (R61);
OUT_BASE and OUT_LEN are ignored (R27; DEDUCED, unsafe; log entry 10). -/
def startIn (opcode : BitVec 3) (level : BitVec 2) (run : State → Result) (s : State) : Result :=
  if busy s then .next s
  else if regionFits s.inBase s.inLen then
    if regionMapped s.mem.map s.inBase s.inLen then run (beginCommand opcode level s) else .refused .notMapped
  else .refused .regionWraps

/-- The start of a command that reads IN and writes OUT (COMPRESS, DECOMPRESS): refused where a region does not fit or
has no memory (R61) or the two overlap (R64). -/
def startInOut (opcode : BitVec 3) (level : BitVec 2) (run : State → Result) (s : State) : Result :=
  if busy s then .next s
  else if regionFits s.inBase s.inLen && regionFits s.outBase s.outLen then
    if regionMapped s.mem.map s.inBase s.inLen && regionMapped s.mem.map s.outBase s.outLen then
      if regionsDisjoint s then run (beginCommand opcode level s) else .refused .regionsOverlap
    else .refused .notMapped
  else .refused .regionWraps

/-! ### The encoder's writes (R10 `emit`) -/

/-- `op + n ≤ OUT_LEN` for the encoder's cursor: OUT[op … op + n − 1] exist (R63). -/
def emitRoom (s : State) (n : Nat) : Bool := decide (s.enc.op.toNat + n ≤ outLenOf s)

/-- The encoder's state after `n` bytes were written at OUT[op …]. -/
def emitted (s : State) (n : Nat) (m : Memory) : State :=
  setEnc (setMem s m) { s.enc with op := s.enc.op + BitVec.ofNat 64 n }

/-- `emit` of each byte in turn (R10). -/
def emitBytes (bs : List Byte) (s : State) : Except Fault State :=
  if emitRoom s bs.length then .ok (emitted s bs.length (storeBytes bs (outAddr s s.enc.op.toNat) s.mem))
  else .error .outOfRegion

/-- `for j in 0 .. len-1: emit(IN[src + j])` (R187). -/
def emitInput (src len : Nat) (s : State) : Except Fault State :=
  if emitRoom s len then .ok (emitted s len (copyBytes len (inAddr s src) (outAddr s s.enc.op.toNat) s.mem))
  else .error .outOfRegion

/-- One part of the encoder's emission after another. -/
def andThen (r : Except Fault State) (f : State → Except Fault State) : Except Fault State :=
  match r with
  | .ok s => f s
  | .error e => .error e

/-- What follows an emission, or the fault it ended in. -/
def afterEmit (r : Except Fault State) (f : State → Result) : Result :=
  match r with
  | .ok s => f s
  | .error e => .fault e

end Sys2Proof.Machine
end

