-- ==== Sys2Proof/Machine/Operands.lean ====
section
/-! DEFINITION. Machine/Operands.lean: the operand forms (30_encoding.md R98), the tag codec (41_tag_codec.md R140 to
R153) and the pure varint codec (40_varint.md R120 to R122). -/

namespace Sys2Proof.Machine

/-! ### Decode side: operands of the stream operations -/

/-- R85, R149: LIT_SHORT's length `N + 1`. -/
def shortLen (n : BitVec 6) : Nat := n.toNat + 1

/-- R86, R150: LIT_EXTRA_LEN, `LE(e_0 …) + 1`. -/
def extraLen {w : Nat} (e : BitVec w) : Nat := e.toNat + 1

/-- R87, R151: COPY1's length, bias 4. -/
def copy1Len (l : BitVec 3) : Nat := l.toNat + 4

/-- R88, R89, R151: COPY2's and COPY4's length, bias 1. -/
def copyLen (l : BitVec 6) : Nat := l.toNat + 1

/-- R148: TAG_TYPE. -/
def tagType (tag : Byte) : BitVec 2 := tag.extractLsb' 0 2

/-- R149: LIT_SHORT_LEN, a length for N < 60 and a count of length bytes above. -/
def litShortLen (tag : Byte) : Nat :=
  if (tag.extractLsb' 2 6).toNat < 60 then (tag.extractLsb' 2 6).toNat + 1 else (tag.extractLsb' 2 6).toNat - 59

/-! ### Encode side -/

/-- R141: the least count of bytes that holds `v`, 1 to 4. -/
def extraCount (v : Nat) : Nat := if v < 2 ^ 8 then 1 else if v < 2 ^ 16 then 2 else if v < 2 ^ 24 then 3 else 4

/-- R141: TAG_ENC_LITERAL; none outside its precondition (R142, R147). -/
def tagEncLiteral (len : Nat) : Option (List Byte) :=
  if 1 ≤ len ∧ len ≤ 2 ^ 32 then
    if len ≤ 60 then some [BitVec.ofNat 8 ((len - 1) * 4)]
    else some (BitVec.ofNat 8 ((59 + extraCount (len - 1)) * 4) :: leBytes (extraCount (len - 1)) (len - 1))
  else none

/-- R143: TAG_ENC_COPY1; none outside its precondition (R146). -/
def tagEncCopy1 (offset len : Nat) : Option (List Byte) :=
  if offset ≤ 2047 ∧ 4 ≤ len ∧ len ≤ 11 then
    some [BitVec.ofNat 8 (1 + (len - 4) * 4 + offset / 256 * 32), BitVec.ofNat 8 offset]
  else none

/-- R144: TAG_ENC_COPY2; none outside its precondition (R146). -/
def tagEncCopy2 (offset len : Nat) : Option (List Byte) :=
  if offset ≤ 65535 ∧ 1 ≤ len ∧ len ≤ 64 then some (BitVec.ofNat 8 (2 + (len - 1) * 4) :: leBytes 2 offset) else none

/-- R145: TAG_ENC_COPY4; none outside its precondition (R146) or for an offset its field cannot hold. -/
def tagEncCopy4 (offset len : Nat) : Option (List Byte) :=
  if offset < 2 ^ 32 ∧ 1 ≤ len ∧ len ≤ 64 then some (BitVec.ofNat 8 (3 + (len - 1) * 4) :: leBytes 4 offset) else none

/-- One chunk of R186: copy-2 where the offset fits it, else copy-4 (90_conflicts.md C2). -/
def copyChunkBytes (offset len : Nat) : Option (List Byte) :=
  if offset < 65536 then tagEncCopy2 offset len else tagEncCopy4 offset len

/-- R186's chunk loop and residual: chunks of 64 while `length ≥ 64`, then the rest where it is not 0
(90_conflicts.md C1). The first argument bounds the passes. -/
def copyChunks (offset : Nat) : Nat → Nat → Option (List Byte)
  | 0, _ => some []
  | fuel + 1, length =>
    if length ≥ Config.copyChunk then
      match copyChunkBytes offset Config.copyChunk, copyChunks offset fuel (length - Config.copyChunk) with
      | some bs, some rest => some (bs ++ rest)
      | _, _ => none
    else if length > 0 then copyChunkBytes offset length
    else some []

/-- R186: the bytes of EMIT_COPY. -/
def emitCopyBytes (offset length : Nat) : Option (List Byte) :=
  if 4 ≤ length ∧ length ≤ 11 ∧ offset < 2048 then tagEncCopy1 offset length
  else copyChunks offset (length / Config.copyChunk + 1) length

/-! ### The pure varint codec -/

/-- R120: VARINT_ENCODE's loop, at most `fuel` bytes. -/
def varintBytesFuel : Nat → Nat → List Byte
  | 0, _ => []
  | fuel + 1, v =>
    if v ≥ 128 then BitVec.ofNat 8 (v % 128 + 128) :: varintBytesFuel fuel (v / 128) else [BitVec.ofNat 8 v]

/-- R120: the bytes of VARINT_ENCODE of a 32-bit value, 1 to 5 of them (R121). -/
def varintBytes (v : BitVec 32) : List Byte := varintBytesFuel 5 v.toNat

/-- R122: VARINT_DECODE's loop, from `count` bytes consumed with `acc` accumulated; `fuel` bounds its passes. -/
def varintDecodeFrom : Nat → Nat → Nat → List Byte → Option (Nat × Nat)
  | 0, _, _, _ => none
  | _ + 1, _, _, [] => none
  | fuel + 1, count, acc, b :: bs =>
    if count = 4 ∧ b.extractLsb' 4 3 ≠ 0#3 then none
    else if b.extractLsb' 7 1 = 0#1 then some (acc + (b.toNat % 128) * 2 ^ (7 * count), count + 1)
    else varintDecodeFrom fuel (count + 1) (acc + (b.toNat % 128) * 2 ^ (7 * count)) bs

/-- R122: VARINT_DECODE of the bytes of IN, as (value, bytes consumed) or fail. -/
def varintDecode (bs : List Byte) : Option (Nat × Nat) := varintDecodeFrom 5 0 0 bs

/-- The bytes of IN that VARINT_DECODE may read: at most five, none at or past IN_LEN. -/
def varintWindow (s : State) : List Byte := (List.range (min 5 (inLenOf s))).map (inByte s)

end Sys2Proof.Machine
end

