-- ==== Sys2Proof/Machine/Varint.lean ====
section
/-! DEFINITION. Machine/Varint.lean: VARINT_MORE and VARINT_LAST as the varint unit of GETLEN, DECOMPRESS and
VALIDATE runs them (40_varint.md R122 to R127), one byte a step, and what the three commands do with the result. -/

namespace Sys2Proof.Machine

/-- The varint unit stands at a byte: one of its three commands runs and is parsing its length. -/
def varintRunning (s : State) : Bool :=
  busy s && decide (s.phase = .varint) &&
    (decide (s.latch.opcode = opGetlen) || decide (s.latch.opcode = opDecompress) || decide (s.latch.opcode = opValidate))

/-- `fail` of VARINT_DECODE: DECOMPRESS raises CorruptedData (R221), GETLEN answers `None` (R275), VALIDATE is
ILLEGAL (R260). -/
def varintFail (s : State) : Result :=
  if s.latch.opcode = opDecompress then raise .corruptedData s else illegal s

/-- The operation loop's start: L, `ip` just past the varint, `op = 0` (R127, R223). -/
def beginOps (s : State) : State :=
  setPhase (setDec s { s.dec with
    L := s.varint.acc.setWidth 32, ip := s.varint.count.setWidth 64, op := 0 }) .ops

/-- `ok(L, m)` of VARINT_DECODE, which sets L for each of the three (R220, R260, R275): GETLEN sets `ip` and `op` like the
others (R45, R333) and completes with L (R275), DECOMPRESS checks its buffer (R222) and VALIDATE does not (R260); both then
start their operations. -/
def varintOk (s : State) : Result :=
  if s.latch.opcode = opGetlen then .next (complete .none 1#1 ((s.varint.acc.setWidth 32).setWidth 64) (beginOps s))
  else if s.latch.opcode = opDecompress then
    if outLenOf s < (s.varint.acc.setWidth 32).toNat then
      raise .insufficientBuffer (setDec s { s.dec with L := s.varint.acc.setWidth 32 })
    else .next (beginOps s)
  else .next (beginOps s)

/-- R124: the byte just read is the fifth and sets a bit of G[6:4]. -/
def fifthByteBad (s : State) (g : BitVec 7) : Bool :=
  decide (s.varint.count = 5#3) && decide (g.extractLsb' 4 3 ≠ 0#3)

/-- `acc | (zext_35(G) << shift)` (R122). -/
def accumulate (v : VarintRegs) (g : BitVec 7) : BitVec 35 := v.acc ||| (g.setWidth 35 <<< v.shift.toNat)

/-- VARINT_MORE (R122): the byte is read and counted; its group is added and the unit goes on, or fails where the
fifth byte does not end the varint. -/
def execVarintMore (g : BitVec 7) (s : State) : Result :=
  if varintRunning s then
    if fifthByteBad s g then varintFail s
    else if s.varint.shift.toNat + 7 ≥ 32 then
      varintFail (setVarint s { s.varint with acc := accumulate s.varint g, shift := s.varint.shift + 7 })
    else .next (setVarint s { s.varint with acc := accumulate s.varint g, shift := s.varint.shift + 7 })
  else .refused .noStreamRunning

/-- VARINT_LAST (R122): the last group is added and VARINT_DECODE returns. -/
def execVarintLast (g : BitVec 7) (s : State) : Result :=
  if varintRunning s then
    if fifthByteBad s g then varintFail s
    else varintOk (setVarint s { s.varint with acc := accumulate s.varint g })
  else .refused .noStreamRunning

/-- The varint unit at a command's start: `acc = 0`, `shift = 0`, `count = 0` (R45, R122). -/
def beginVarint (s : State) : State := setPhase (setVarint s { acc := 0, shift := 0, count := 0 }) .varint

end Sys2Proof.Machine
end

