-- ==== Sys2Proof/Machine/Command.lean ====
section
/-! DEFINITION. Machine/Command.lean: the starts of GETLEN, DECOMPRESS and VALIDATE (44_validator.md R275, R260,
43_decoder.md R220). Each starts the varint unit; Machine/Varint.lean and Machine/Stream.lean go on from there. -/

namespace Sys2Proof.Machine

/-- CMD_GETLEN (R275, R281). -/
def execCmdGetlen (level : BitVec 2) (s : State) : Result :=
  startIn opGetlen level (fun s => .next (beginVarint s)) s

/-- CMD_DECOMPRESS (R220, R281). -/
def execCmdDecompress (level : BitVec 2) (s : State) : Result :=
  startInOut opDecompress level (fun s => .next (beginVarint s)) s

/-- CMD_VALIDATE (R260, R281): OUT_BASE and OUT_LEN are ignored. -/
def execCmdValidate (level : BitVec 2) (s : State) : Result :=
  startIn opValidate level (fun s => .next (beginVarint s)) s

end Sys2Proof.Machine
end

