-- ==== Sys2Proof/Machine/Stream.lean ====
section
/-! DEFINITION. Machine/Stream.lean: what the stream operations share: the operation loop's two readers (DECOMPRESS and
its shadow VALIDATE), NEED, LITERAL_BODY and COPY_BODY with their shadows, and the end of the stream
(43_decoder.md R223 to R241, 44_validator.md R261 to R272). -/

namespace Sys2Proof.Machine

/-- The operation loop runs. -/
def opsRunning (s : State) : Bool := busy s && decide (s.phase = .ops)

/-- A stream operation under the command that reads it: the decoder's rule under DECOMPRESS (R220), its shadow
under VALIDATE (R260). -/
def withStream (decoder shadow : State → Result) (s : State) : Result :=
  if opsRunning s then
    if s.latch.opcode = opDecompress then decoder s
    else if s.latch.opcode = opValidate then shadow s
    else .refused .noStreamRunning
  else .refused .noStreamRunning

/-- `ip <- ip + m`: the operand bytes at ip are read. -/
def operandTaken (s : State) (m : Nat) : State := setDec s { s.dec with ip := s.dec.ip + BitVec.ofNat 64 m }

/-- NEED(m) of the operand bytes at ip (R224), then `ip <- ip + m`. -/
def decoderOperand (m : Nat) (body : State → Result) (s : State) : Result :=
  if available s m then body (operandTaken s m)
  else raise .corruptedData s

/-- V_NEED(m) of the operand bytes at ip (R261), then `ip <- ip + m`. -/
def shadowOperand (m : Nat) (body : State → Result) (s : State) : Result :=
  if available s m then body (operandTaken s m)
  else illegal s

/-- `len ≤ L − op`: the operation does not take op above L (R225, R231). -/
def fitsOutput (s : State) (len : Nat) : Bool := decide (len ≤ s.dec.L.toNat - s.dec.op.toNat)

/-- `1 ≤ offset ≤ op` (R231). -/
def offsetOk (s : State) (offset : Nat) : Bool := decide (1 ≤ offset) && decide (offset ≤ s.dec.op.toNat)

/-- OUT[op … op + len − 1] exist (R10, R63). -/
def opRoom (s : State) (len : Nat) : Bool := decide (s.dec.op.toNat + len ≤ outLenOf s)

/-- `len <- …` of a literal form, done before its body's checks (R226 to R230, R263 to R267). -/
def heldLength (d : DecRegs) (len : Nat) : DecRegs := { d with len := BitVec.ofNat 64 len }

/-- `len <- …; offset <- …` of a copy form, done before its body's checks (R232 to R234, R269 to R271). -/
def heldCopy (d : DecRegs) (offset len : Nat) : DecRegs :=
  { d with len := BitVec.ofNat 64 len, offset := BitVec.ofNat 64 offset }

/-- The registers after the shadow of a literal of `len` bytes (R262). It has no byte loop and writes no k. -/
def skipLiteral (d : DecRegs) (len : Nat) : DecRegs :=
  { heldLength d len with ip := d.ip + BitVec.ofNat 64 len, op := d.op + BitVec.ofNat 64 len }

/-- The registers after a literal of `len` bytes (R225). The loop's k is left at `len`, past its last value: the spec does
not say what k holds after the loop (DESIGN CHOICE, unsafe, unobservable; log entry 19). -/
def afterLiteral (d : DecRegs) (len : Nat) : DecRegs := { skipLiteral d len with k := BitVec.ofNat 64 len }

/-- The registers after the shadow of a copy of `len` bytes from `offset` (R268). It has no byte loop and writes no k. -/
def skipCopy (d : DecRegs) (offset len : Nat) : DecRegs :=
  { heldCopy d offset len with op := d.op + BitVec.ofNat 64 len }

/-- The registers after a copy of `len` bytes from `offset` (R231), k as after a literal (DESIGN CHOICE, unsafe,
unobservable; log entry 19). -/
def afterCopy (d : DecRegs) (offset len : Nat) : DecRegs := { skipCopy d offset len with k := BitVec.ofNat 64 len }

/-- The memory after LITERAL_BODY's move, IN[ip …] to OUT[op …]. -/
def literalMoved (s : State) (len : Nat) : Memory :=
  copyBytes len (inAddr s s.dec.ip.toNat) (outAddr s s.dec.op.toNat) s.mem

/-- The memory after COPY_BODY's move, OUT[op − offset …] to OUT[op …], overlap and all. -/
def copyMoved (s : State) (offset len : Nat) : Memory :=
  copyBytes len (outAddr s (s.dec.op.toNat - offset)) (outAddr s s.dec.op.toNat) s.mem

/-- LITERAL_BODY(len) (R225). -/
def literalBody (len : Nat) (s : State) : Result :=
  if available s len then
    if fitsOutput s len then
      if opRoom s len then .next (setDec (setMem s (literalMoved s len)) (afterLiteral s.dec len))
      else .fault .outOfRegion
    else raise .corruptedData (setDec s (heldLength s.dec len))
  else raise .corruptedData (setDec s (heldLength s.dec len))

/-- V_LITERAL_BODY(len) (R262): the data bytes are skipped, never read. -/
def shadowLiteralBody (len : Nat) (s : State) : Result :=
  if available s len then
    if fitsOutput s len then .next (setDec s (skipLiteral s.dec len)) else illegal (setDec s (heldLength s.dec len))
  else illegal (setDec s (heldLength s.dec len))

/-- COPY_BODY(offset, len) (R231): the offset check first, then the length check, then the move. -/
def copyBody (offset len : Nat) (s : State) : Result :=
  if offsetOk s offset then
    if fitsOutput s len then
      if opRoom s len then .next (setDec (setMem s (copyMoved s offset len)) (afterCopy s.dec offset len))
      else .fault .outOfRegion
    else raise .corruptedData (setDec s (heldCopy s.dec offset len))
  else raise .corruptedData (setDec s (heldCopy s.dec offset len))

/-- V_COPY_BODY(offset, len) (R268): no byte is read or written. -/
def shadowCopyBody (offset len : Nat) (s : State) : Result :=
  if offsetOk s offset then
    if fitsOutput s len then .next (setDec s (skipCopy s.dec offset len)) else illegal (setDec s (heldCopy s.dec offset len))
  else illegal (setDec s (heldCopy s.dec offset len))

/-- A literal form with `m` extra length bytes (R226 to R230 and their shadows R263 to R267). -/
def literalOp (m len : Nat) (s : State) : Result :=
  withStream (decoderOperand m (literalBody len)) (shadowOperand m (shadowLiteralBody len)) s

/-- A copy form with `m` offset bytes (R232 to R234 and their shadows R269 to R271). -/
def copyOp (m offset len : Nat) (s : State) : Result :=
  withStream (decoderOperand m (copyBody offset len)) (shadowOperand m (shadowCopyBody offset len)) s

/-- The operation loop's exit (R235, R236 for DECOMPRESS, R272 for VALIDATE). -/
def endOfStream (s : State) : Result :=
  withStream
    (fun s => if s.dec.op.toNat = s.dec.L.toNat then .next (complete .none 0#1 (s.dec.L.setWidth 64) s)
      else raise .corruptedData s)
    (fun s => if s.dec.op.toNat = s.dec.L.toNat ∧ s.dec.ip = s.latch.inLen then legal s else illegal s) s

end Sys2Proof.Machine
end

