-- ==== Sys2Proof/Machine/Copy.lean ====
section
/-! DEFINITION. Machine/Copy.lean: the three copy operations (43_decoder.md R232 to R234, 44_validator.md R269 to
R271). Each starts with ip just past the tag (R223). -/

namespace Sys2Proof.Machine

/-- COPY1 (R232, shadow R269). -/
def execCopy1 (l : BitVec 3) (off : BitVec 11) (s : State) : Result := copyOp 1 off.toNat (copy1Len l) s

/-- COPY2 (R233, shadow R270). -/
def execCopy2 (l : BitVec 6) (off : BitVec 16) (s : State) : Result := copyOp 2 off.toNat (copyLen l) s

/-- COPY4 (R234, shadow R271). -/
def execCopy4 (l : BitVec 6) (off : BitVec 32) (s : State) : Result := copyOp 4 off.toNat (copyLen l) s

end Sys2Proof.Machine
end

