-- ==== Sys2Proof/Machine/Encoder.lean ====
section
/-! DEFINITION. Machine/Encoder.lean: the compression side (42_encoder.md): MAXLEN, COMPRESS's start, and one pass of
its fragment loop and of its probe loop, each one step of the core. -/

namespace Sys2Proof.Machine

/-! ### MAXLEN (R170) -/

/-- R170's rule after the start: `(32 + IN_LEN + IN_LEN div 6) mod 2^64`. -/
def runMaxlen (s : State) : Result :=
  .next (complete .none 0#1 (BitVec.ofNat 64 (Config.maxCompressedLength (inLenOf s))) s)

/-- CMD_MAXLEN (R170, R281, R282). It uses neither region. -/
def execCmdMaxlen (level : BitVec 2) (s : State) : Result := startPlain opMaxlen level runMaxlen s

/-! ### Literal and copy emission (R186, R187) -/

/-- EMIT_LITERAL(src, len) (R187). -/
def emitLiteral (src len : Nat) (s : State) : Except Fault State :=
  match tagEncLiteral len with
  | some header => andThen (emitBytes header s) (emitInput src len)
  | none => .error .tagEncoderDomain

/-- EMIT_COPY(offset, length) (R186). -/
def emitCopy (offset length : Nat) (s : State) : Except Fault State :=
  match emitCopyBytes offset length with
  | some bs => emitBytes bs s
  | none => .error .tagEncoderDomain

/-! ### The hash (R67, R176) -/

/-- `MemRead(IN, i, 4)` (R10, R67). -/
def load32 (s : State) (i : Nat) : BitVec 32 :=
  BitVec.ofNat 32 (leNat [inByte s i, inByte s (i + 1), inByte s (i + 2), inByte s (i + 3)])

/-- HASH(w) for a table of 2^bits entries (R176). -/
def hashOf (bits : Nat) (w : BitVec 32) : Nat := (w * Config.hashMul).toNat / 2 ^ (32 - Config.htMaxBits) % 2 ^ bits

/-- `ceil_log2(x)`: the least k with 2^k ≥ x (R9). -/
def ceilLog2 (x : Nat) : Nat := ((List.range 64).find? (fun k => decide (x ≤ 2 ^ k))).getD 64

/-- R175: the table's `table_bits` for a fragment of `len` bytes. -/
def tableBitsFor (len : Nat) : Nat := ceilLog2 (min (max len (2 ^ Config.htMinBits)) (2 ^ Config.htMaxBits))

/-! ### The fragment loop (R173, R174, R177) -/

/-- FRAGMENT_INIT(len) (R177). -/
def fragmentInit (len : Nat) (s : State) : State :=
  setPhase (setHt (setEnc s { s.enc with
    len := BitVec.ofNat 17 len, tableBits := BitVec.ofNat 4 (tableBitsFor len), ip := 0, nextEmit := 0,
    skip := BitVec.ofNat 64 Config.skipInit }) (htClear (2 ^ tableBitsFor len) s.ht)) .probe

/-- One pass of the fragment loop's head (R173): the next fragment's start, or the command's completion with
RESULT = op (R188). -/
def fragmentStep (s : State) : Result :=
  if s.enc.base.toNat < s.enc.n.toNat then
    .next (fragmentInit (min Config.fragSize (s.enc.n.toNat - s.enc.base.toNat)) s)
  else .next (complete .none 0#1 s.enc.op s)

/-! ### The probe loop (R178 to R185) -/

/-- The loop test `ip + 15 < len` (R178). -/
def probeGoes (s : State) : Bool := decide (s.enc.ip.toNat + Config.inputMargin < s.enc.len.toNat)

/-- The offset in IN of a fragment-relative position. -/
def fragPos (s : State) (i : Nat) : Nat := s.enc.base.toNat + i

/-- PROBE (R179): the load, the hash, the candidate, and the unconditional write. -/
def probe (s : State) : State :=
  setHt (setEnc s { s.enc with
    w := load32 s (fragPos s s.enc.ip.toNat),
    h := BitVec.ofNat 15 (hashOf s.enc.tableBits.toNat (load32 s (fragPos s s.enc.ip.toNat))),
    candidate := htRead s.ht (hashOf s.enc.tableBits.toNat (load32 s (fragPos s s.enc.ip.toNat))) })
    (htWrite s.ht (hashOf s.enc.tableBits.toNat (load32 s (fragPos s s.enc.ip.toNat))) (BitVec.ofNat 16 s.enc.ip.toNat))

/-- MATCH_OK (R180), after PROBE. -/
def matchOk (s : State) : Bool :=
  decide (s.enc.candidate ≠ 0) && decide (s.enc.ip.toNat - s.enc.candidate.toNat ≤ 65535) &&
    decide (load32 s (fragPos s s.enc.candidate.toNat) = s.enc.w)

/-- R182's extension loop from `k` matched bytes; the first argument bounds its passes. -/
def extendMatch (s : State) : Nat → Nat → Nat
  | 0, k => k
  | fuel + 1, k =>
    if s.enc.ip.toNat + 4 + k < s.enc.len.toNat ∧
        inByte s (fragPos s (s.enc.ip.toNat + 4 + k)) = inByte s (fragPos s (s.enc.candidate.toNat + 4 + k)) then
      extendMatch s fuel (k + 1)
    else k

/-- The match's length, 4 plus the extension (R182). -/
def matchLen (s : State) : Nat := 4 + extendMatch s s.enc.len.toNat 0

/-- R181: the pending literal, where there is one. -/
def emitPending (s : State) : Except Fault State :=
  if s.enc.nextEmit.toNat < s.enc.ip.toNat then
    emitLiteral (fragPos s s.enc.nextEmit.toNat) (s.enc.ip.toNat - s.enc.nextEmit.toNat) s
  else .ok s

/-- R182's advance: ip past the match, `next_emit = ip`, and the skip counter reset. -/
def advance (mlen : Nat) (s : State) : State :=
  setEnc s { s.enc with
    ip := s.enc.ip + BitVec.ofNat 17 mlen, nextEmit := s.enc.ip + BitVec.ofNat 17 mlen,
    skip := BitVec.ofNat 64 Config.skipInit, mlen := BitVec.ofNat 17 mlen }

/-- R183: the intermediate entry for `ip − 1`, where the loop will probe again. -/
def insertBehind (s : State) : State :=
  if probeGoes s then
    setHt s (htWrite s.ht (hashOf s.enc.tableBits.toNat (load32 s (fragPos s (s.enc.ip.toNat - 1))))
      (BitVec.ofNat 16 (s.enc.ip.toNat - 1)))
  else s

/-- MATCH_STEP (R181 to R183). -/
def matchStep (s : State) : Result :=
  afterEmit (andThen (emitPending s) (emitCopy (s.enc.ip.toNat - s.enc.candidate.toNat) (matchLen s)))
    (fun s' => .next (insertBehind (advance (matchLen s) s')))

/-- SKIP_STEP (R184). -/
def skipStep (s : State) : State :=
  setEnc s { s.enc with
    ip := s.enc.ip + BitVec.ofNat 17 (s.enc.skip.toNat / 2 ^ Config.skipShift), skip := s.enc.skip + 1 }

/-- R185's tail literal, where there is one. -/
def emitTail (s : State) : Except Fault State :=
  if s.enc.nextEmit.toNat < s.enc.len.toNat then
    emitLiteral (fragPos s s.enc.nextEmit.toNat) (s.enc.len.toNat - s.enc.nextEmit.toNat) s
  else .ok s

/-- The fragment's end: `base <- base + len`, back to the fragment loop (R173). -/
def endFragment (s : State) : State :=
  setPhase (setEnc s { s.enc with base := s.enc.base + s.enc.len.setWidth 64 }) .fragment

/-- One pass of the probe loop, or TAIL (R178). -/
def probeStep (s : State) : Result :=
  if probeGoes s then
    if matchOk (probe s) then matchStep (probe s) else .next (skipStep (probe s))
  else afterEmit (emitTail s) (fun s' => .next (endFragment s'))

/-! ### COMPRESS (R171 to R173) -/

/-- `n <- IN_LEN`, R172's first line, before its checks. A command that a check ends has n so, and until the next command
starts n keeps it (U10 leaves it open; DESIGN CHOICE, unsafe, unobservable; log entry 19). -/
def takeLength (s : State) : State := setEnc s { s.enc with n := s.latch.inLen }

/-- The encoder's registers at COMPRESS's start: `n = IN_LEN`, `op = 0`, `base = 0` (R45, R173). -/
def encoderStart (s : State) : State :=
  setPhase (setEnc s { s.enc with n := s.latch.inLen, op := 0, base := 0 }) .fragment

/-- R172's `n <- IN_LEN` and its checks, in order, then the varint (R173); the fragment loop is next. A command that a
check ends keeps that n (DESIGN CHOICE; see takeLength and log entry 19). -/
def runCompress (s : State) : Result :=
  if inLenOf s > Config.maxInput then raise .inputTooLarge (takeLength s)
  else if outLenOf s < Config.maxCompressedLength (inLenOf s) then raise .insufficientBuffer (takeLength s)
  else afterEmit (emitBytes (varintBytes (s.latch.inLen.setWidth 32)) (encoderStart s)) (fun s' => .next s')

/-- CMD_COMPRESS (R173, R281). LEVEL chooses nothing: `better` runs the `fast` encoder (R171). -/
def execCmdCompress (level : BitVec 2) (s : State) : Result := startInOut opCompress level runCompress s

end Sys2Proof.Machine
end

