-- ==== Sys2Proof/Machine/Literal.lean ====
section
/-! DEFINITION. Machine/Literal.lean: the five literal operations (43_decoder.md R226 to R230, 44_validator.md R263 to
R267). Each starts with ip just past the tag (R223). -/

namespace Sys2Proof.Machine

/-- LIT_X1 (R227, shadow R264). -/
def execLitX1 (e : BitVec 8) (s : State) : Result := literalOp 1 (extraLen e) s

/-- LIT_X2 (R228, shadow R265). -/
def execLitX2 (e : BitVec 16) (s : State) : Result := literalOp 2 (extraLen e) s

/-- LIT_X3 (R229, shadow R266). -/
def execLitX3 (e : BitVec 24) (s : State) : Result := literalOp 3 (extraLen e) s

/-- LIT_X4 (R230, shadow R267). -/
def execLitX4 (e : BitVec 32) (s : State) : Result := literalOp 4 (extraLen e) s

/-- LIT_SHORT (R226, shadow R263): no operand byte follows the tag. -/
def execLitShort (n : BitVec 6) (s : State) : Result := literalOp 0 (shortLen n) s

end Sys2Proof.Machine
end

