-- ==== Sys2Proof/Machine/Dispatch.lean ====
section
/-! DEFINITION. Machine/Dispatch.lean: one arm per instruction. -/

namespace Sys2Proof.Machine

def exec (i : Instr) (s : State) : Host.Outcome State Fault Refusal :=
  match i with
  | .litX1 e => Sys2Proof.Machine.execLitX1 e s
  | .litX2 e => Sys2Proof.Machine.execLitX2 e s
  | .litX3 e => Sys2Proof.Machine.execLitX3 e s
  | .litX4 e => Sys2Proof.Machine.execLitX4 e s
  | .litShort n => Sys2Proof.Machine.execLitShort n s
  | .copy1 l off => Sys2Proof.Machine.execCopy1 l off s
  | .copy2 l off => Sys2Proof.Machine.execCopy2 l off s
  | .copy4 l off => Sys2Proof.Machine.execCopy4 l off s
  | .varintMore g => Sys2Proof.Machine.execVarintMore g s
  | .varintLast g => Sys2Proof.Machine.execVarintLast g s
  | .cmdMaxlen level => Sys2Proof.Machine.execCmdMaxlen level s
  | .cmdCompress level => Sys2Proof.Machine.execCmdCompress level s
  | .cmdGetlen level => Sys2Proof.Machine.execCmdGetlen level s
  | .cmdDecompress level => Sys2Proof.Machine.execCmdDecompress level s
  | .cmdValidate level => Sys2Proof.Machine.execCmdValidate level s

end Sys2Proof.Machine
end

