-- ==== Sys2Proof/WellFormed.lean ====
section
/-! DEFINITION. WellFormed.lean: which instructions an encoding exists for (R85's N ≤ 59, R95's reserved LEVEL). -/

namespace Sys2Proof

/-- R94, R95: LEVEL 0b11 is reserved for every command. -/
def levelOk (level : BitVec 2) : Bool := level != 3#2

/-- R85: N = 60 … 63 are the four LIT_X forms. -/
def shortOk (n : BitVec 6) : Bool := n.toNat < 60

/-- The instructions that some bits encode. Every other field value is encodable (R92). -/
def wellFormed : Instr → Bool
  | .litX1 _ => true
  | .litX2 _ => true
  | .litX3 _ => true
  | .litX4 _ => true
  | .litShort n => shortOk n
  | .copy1 _ _ => true
  | .copy2 _ _ => true
  | .copy4 _ _ => true
  | .varintMore _ => true
  | .varintLast _ => true
  | .cmdMaxlen level => levelOk level
  | .cmdCompress level => levelOk level
  | .cmdGetlen level => levelOk level
  | .cmdDecompress level => levelOk level
  | .cmdValidate level => levelOk level

end Sys2Proof
end

