-- ==== Sys2Proof/Decode.lean ====
section
/-! DEFINITION. Decode.lean: the decoder of the three contexts, total on any bytes and rejecting by name, and the
encoder written from the same tables (30_encoding.md R81 to R95, R99; 20_memory.md R66, R68). -/

namespace Sys2Proof

/-- Why bytes decode to no instruction. -/
inductive Reject where
  /-- Fewer bytes than the form has. -/
  | truncated
  /-- R95: OPCODE 0b000, 0b110 or 0b111. -/
  | reservedOpcode
  /-- R95: LEVEL 0b11. -/
  | reservedLevel
  /-- R95: bit 3 or a bit of 63:6 is set. -/
  | reservedBits
  deriving DecidableEq, Repr

/-- `LE` of the next `n` bytes, and the bytes after them (R66). -/
def takeLE : Nat → List Byte → Except Reject (Nat × List Byte)
  | 0, bs => .ok (0, bs)
  | _ + 1, [] => .error .truncated
  | n + 1, b :: bs =>
    match takeLE n bs with
    | .ok (v, rest) => .ok (b.toNat + 256 * v, rest)
    | .error r => .error r

/-- The operand read of a form: `n` bytes after the tag, given to `mk`. -/
def withOperand (n : Nat) (mk : Nat → Instr) (bs : List Byte) : Except Reject (Instr × List Byte) :=
  match takeLE n bs with
  | .ok (v, rest) => .ok (mk v, rest)
  | .error r => .error r

/-- R90: how many operand bytes follow a tag (literal data apart). -/
def operandCount (tag : Byte) : Nat :=
  if tag = 0xF0#8 then 1
  else if tag = 0xF4#8 then 2
  else if tag = 0xF8#8 then 3
  else if tag = 0xFC#8 then 4
  else if tag.extractLsb' 0 2 = 0#2 then 0
  else if tag.extractLsb' 0 2 = 1#2 then 1
  else if tag.extractLsb' 0 2 = 2#2 then 2
  else 4

/-- R90, R91: the operation a tag selects, with its operand bytes from `rest`. The LIT_X rows come first. -/
def decodeTag (tag : Byte) (rest : List Byte) : Except Reject (Instr × List Byte) :=
  if tag = 0xF0#8 then withOperand 1 (fun v => .litX1 (BitVec.ofNat 8 v)) rest
  else if tag = 0xF4#8 then withOperand 2 (fun v => .litX2 (BitVec.ofNat 16 v)) rest
  else if tag = 0xF8#8 then withOperand 3 (fun v => .litX3 (BitVec.ofNat 24 v)) rest
  else if tag = 0xFC#8 then withOperand 4 (fun v => .litX4 (BitVec.ofNat 32 v)) rest
  else if tag.extractLsb' 0 2 = 0#2 then .ok (.litShort (tag.extractLsb' 2 6), rest)
  else if tag.extractLsb' 0 2 = 1#2 then
    withOperand 1 (fun v => .copy1 (tag.extractLsb' 2 3) (BitVec.ofNat 11 ((tag.extractLsb' 5 3).toNat * 256 + v))) rest
  else if tag.extractLsb' 0 2 = 2#2 then
    withOperand 2 (fun v => .copy2 (tag.extractLsb' 2 6) (BitVec.ofNat 16 v)) rest
  else withOperand 4 (fun v => .copy4 (tag.extractLsb' 2 6) (BitVec.ofNat 32 v)) rest

/-- R81, R99: a varint byte by its continuation bit. -/
def decodeVarintByte (b : Byte) : Instr :=
  if b.extractLsb' 7 1 = 1#1 then .varintMore (b.extractLsb' 0 7) else .varintLast (b.extractLsb' 0 7)

/-- R94, R95: a CMD register value. -/
def decodeCommand (v : BitVec 64) : Except Reject Instr :=
  if v.extractLsb' 3 1 ≠ 0#1 ∨ v.extractLsb' 6 58 ≠ 0#58 then .error .reservedBits
  else if v.extractLsb' 4 2 = 3#2 then .error .reservedLevel
  else if v.extractLsb' 0 3 = 1#3 then .ok (.cmdMaxlen (v.extractLsb' 4 2))
  else if v.extractLsb' 0 3 = 2#3 then .ok (.cmdCompress (v.extractLsb' 4 2))
  else if v.extractLsb' 0 3 = 3#3 then .ok (.cmdGetlen (v.extractLsb' 4 2))
  else if v.extractLsb' 0 3 = 4#3 then .ok (.cmdDecompress (v.extractLsb' 4 2))
  else if v.extractLsb' 0 3 = 5#3 then .ok (.cmdValidate (v.extractLsb' 4 2))
  else .error .reservedOpcode

/-- The decoder: the instruction at the head of the bytes, read in its context, and the bytes after it. A command's
value is given as its eight bytes, least significant first (R68). -/
def decode : Context → List Byte → Except Reject (Instr × List Byte)
  | .stream, [] => .error .truncated
  | .stream, tag :: rest => decodeTag tag rest
  | .varintByte, [] => .error .truncated
  | .varintByte, b :: rest => .ok (decodeVarintByte b, rest)
  | .command, bs =>
    match takeLE 8 bs with
    | .error r => .error r
    | .ok (v, rest) =>
      match decodeCommand (BitVec.ofNat 64 v) with
      | .ok i => .ok (i, rest)
      | .error r => .error r

/-- R94: the CMD value of an OPCODE and a LEVEL. -/
def commandValue (opcode : BitVec 3) (level : BitVec 2) : BitVec 64 :=
  BitVec.ofNat 64 (opcode.toNat + 16 * level.toNat)

/-- The encoder (R85 to R89, R97, R94, R81): an instruction's own bytes, a literal's data bytes apart. -/
def encode : Instr → List Byte
  | .litX1 e => 0xF0#8 :: leBytes 1 e.toNat
  | .litX2 e => 0xF4#8 :: leBytes 2 e.toNat
  | .litX3 e => 0xF8#8 :: leBytes 3 e.toNat
  | .litX4 e => 0xFC#8 :: leBytes 4 e.toNat
  | .litShort n => [BitVec.ofNat 8 (n.toNat * 4)]
  | .copy1 l off => BitVec.ofNat 8 (1 + l.toNat * 4 + off.toNat / 256 * 32) :: leBytes 1 off.toNat
  | .copy2 l off => BitVec.ofNat 8 (2 + l.toNat * 4) :: leBytes 2 off.toNat
  | .copy4 l off => BitVec.ofNat 8 (3 + l.toNat * 4) :: leBytes 4 off.toNat
  | .varintMore g => [BitVec.ofNat 8 (128 + g.toNat)]
  | .varintLast g => [BitVec.ofNat 8 g.toNat]
  | .cmdMaxlen level => leBytes 8 (commandValue 1#3 level).toNat
  | .cmdCompress level => leBytes 8 (commandValue 2#3 level).toNat
  | .cmdGetlen level => leBytes 8 (commandValue 3#3 level).toNat
  | .cmdDecompress level => leBytes 8 (commandValue 4#3 level).toNat
  | .cmdValidate level => leBytes 8 (commandValue 5#3 level).toNat

/-- R90, R94, R99: the size in bytes of an instruction's own encoding (a literal's data bytes apart). -/
def encodedSize : Instr → Nat
  | .litX1 _ => 2
  | .litX2 _ => 3
  | .litX3 _ => 4
  | .litX4 _ => 5
  | .litShort _ => 1
  | .copy1 _ _ => 2
  | .copy2 _ _ => 3
  | .copy4 _ _ => 5
  | .varintMore _ => 1
  | .varintLast _ => 1
  | .cmdMaxlen _ => 8
  | .cmdCompress _ => 8
  | .cmdGetlen _ => 8
  | .cmdDecompress _ => 8
  | .cmdValidate _ => 8

/-- The context a table row's width tells: 64 bits are a CMD write, fewer are read as a tagged operation. A table
word does not say whether a byte stands in the varint, and every byte value is a tag (R91), so the two varint rows
cannot be told from LIT_SHORT and the others by their bits alone (DESIGN CHOICE, safe; log entry 3). -/
def tableContext (nbits : Nat) : Context := if nbits = 64 then .command else .stream

/-- The bytes of a table word, every bit above `nbits` zero, up to the longest instruction. -/
def tableBytes (nbits w : Nat) : List Byte := leBytes 8 (w % 2 ^ nbits)

/-- The instruction the decoder reads from a word numbered as spec/opcode_table.json numbers it. -/
def decodeTableWord (nbits w : Nat) : Option Instr :=
  match decode (tableContext nbits) (tableBytes nbits w) with
  | .ok (i, _) => some i
  | .error _ => none

end Sys2Proof
end

