-- ==== Sys2Proof/Machine/HostPort.lean ====
section
/-! DEFINITION. Machine/HostPort.lean: the host's side (45_interface.md): the register window (10_state.md R21 to R30),
its own accesses to memory (20_memory.md R75) and reset (70_reset_and_hazards.md R330, R331). -/

namespace Sys2Proof.Machine

/-! ### The register window -/

/-- R30: the access is 64 bits wide at an offset that is a multiple of 8. -/
def accessDefined (off : BitVec 8) (width : AccessWidth) : Bool :=
  decide (width = .w64) && decide (off.toNat % 8 = 0)

/-- The value of the register at an aligned offset (R21): CMD and the reserved offsets read 0 (R22, R29). -/
def windowRegister (off : BitVec 8) (s : State) : BitVec 64 :=
  if off = 0x08#8 then s.status
  else if off = 0x10#8 then s.inBase
  else if off = 0x18#8 then s.inLen
  else if off = 0x20#8 then s.outBase
  else if off = 0x28#8 then s.outLen
  else if off = 0x30#8 then s.result
  else 0

/-- The window's offset that a system address names, if it lies in the window's 256 bytes (R21). -/
def windowOffset (a : Addr) (s : State) : Option (BitVec 8) :=
  if (a - s.windowBase).toNat < 256 then some ((a - s.windowBase).setWidth 8) else none

/-- What a host read of the window returns: an access that is not defined returns 0, the hardware's effect
(R30, U7; DESIGN CHOICE, safe; log entry 7). -/
def windowRead (off : BitVec 8) (width : AccessWidth) (s : State) : BitVec 64 :=
  if accessDefined off width then windowRegister off s else 0

/-- A host read of the window (R72: no side effect on the block). At an address outside the window nothing answers
(DESIGN CHOICE, safe; log entry 20). -/
def hostRead (a : Addr) (width : AccessWidth) (s : State) : State :=
  match windowOffset a s with
  | some off => { s with hostData := windowRead off width s }
  | none => s

/-- The register at an aligned offset written (R21): STATUS, RESULT and the reserved offsets ignore it (R29, R30).
CMD holds nothing; what a write of it starts is `commandWritten`. -/
def windowWritten (off : BitVec 8) (v : BitVec 64) (s : State) : State :=
  if off = 0x10#8 then { s with inBase := v }
  else if off = 0x18#8 then { s with inLen := v }
  else if off = 0x20#8 then { s with outBase := v }
  else if off = 0x28#8 then { s with outLen := v }
  else s

/-- A host write takes effect: it is a defined access and no command runs (R30). -/
def writeTaken (off : BitVec 8) (width : AccessWidth) (s : State) : Bool := accessDefined off width && !busy s

/-- A host write of a register other than CMD. At an address outside the window nothing answers (DESIGN CHOICE, safe; log
entry 20). -/
def hostWrite (a : Addr) (width : AccessWidth) (v : BitVec 64) (s : State) : State :=
  match windowOffset a s with
  | some off => if writeTaken off width s then windowWritten off v s else s
  | none => s

/-- CMD's bits that the hardware reads: OPCODE and LEVEL; it ignores bits 3 and 63:6 (R22, R95; DESIGN
CHOICE, safe; log entry 7). -/
def commandMask : BitVec 64 := 0x37#64

/-- The command a CMD value starts; none where OPCODE or LEVEL is reserved (R22, R95). -/
def commandOf (v : BitVec 64) : Option Instr :=
  match decode .command (leBytes 8 (v &&& commandMask).toNat) with
  | .ok (i, _) => some i
  | .error _ => none

/-- The command a host write starts, if it is a CMD write that takes effect (R22, R30). -/
def commandWritten (a : Addr) (width : AccessWidth) (v : BitVec 64) (s : State) : Option Instr :=
  match windowOffset a s with
  | some off => if writeTaken off width s ∧ off = 0x00#8 then commandOf v else none
  | none => none

/-! ### The host's accesses to memory -/

/-- The running command holds the byte of this address as IN, under this address or another (R284). -/
def holdsIn (s : State) (a : Addr) : Bool :=
  busy s && decide (s.latch.opcode ≠ opMaxlen) && namedWith s.mem.map (inRegion s.latch.inBase s.latch.inLen) a

/-- The running command holds the byte of this address as OUT, under this address or another (R284): COMPRESS and
DECOMPRESS write OUT. -/
def holdsOut (s : State) (a : Addr) : Bool :=
  busy s && (decide (s.latch.opcode = opCompress) || decide (s.latch.opcode = opDecompress)) &&
    namedWith s.mem.map (inRegion s.latch.outBase s.latch.outLen) a

/-- A host access to memory: refused at an address that MemMap maps to no memory (log entry 9). -/
def atMemory (a : Addr) (s : State) (r : Result) : Result :=
  match mapAddr s.mem.map a with
  | some _ => r
  | none => .refused .notMapped

/-- The state a host read of a byte leaves: any value where the running command holds it as OUT (R75, U1), else the byte.
Reading a byte of IN while a command runs gives the byte (DEDUCED, unsafe; log entry 18). -/
def loaded (a : Addr) (s : State) : State :=
  if holdsOut s a then { s with hostData := (Config.freeByte s.fresh).setWidth 64, fresh := s.fresh + 1 }
  else { s with hostData := (memRead s.mem a).setWidth 64 }

/-- A host read of a byte (R75). -/
def hostLoad (a : Addr) (s : State) : Result := atMemory a s (.next (loaded a s))

/-- A host write of a byte: refused where the running command holds it (R75, R284, U2). -/
def hostStore (a : Addr) (b : Byte) (s : State) : Result :=
  atMemory a s
    (if holdsIn s a || holdsOut s a then .refused .hostTouchedRegion else .next (setMem s (memWrite s.mem a b)))

/-! ### Reset -/

/-- The L of the running DECOMPRESS: the register once the varint is parsed, before that the value its bytes give
where the buffer check would pass (R331; DEDUCED, safe; log entry 17). -/
def declaredLength (s : State) : Nat :=
  if s.phase = .ops then s.dec.L.toNat
  else match varintDecode (varintWindow s) with
    | some (v, _) => if v ≤ outLenOf s then v else 0
    | none => 0

/-- How many bytes of OUT, from OUT[0], the running command may have written (R331). -/
def mayHaveWritten (s : State) : Nat :=
  if busy s then
    if s.latch.opcode = opCompress then Config.maxCompressedLength (inLenOf s)
    else if s.latch.opcode = opDecompress then declaredLength s
    else 0
  else 0

/-- The reset signal (R330, R331): every register at its reset value, the command abandoned, and the OUT bytes it may
have written free. Other memory, the platform's parameters and the host's own record are unchanged. -/
def resetBlock (s : State) : State :=
  { State.reset with
    mem := freeBytes (mayHaveWritten s) s.fresh (outAddr s 0) s.mem
    windowBase := s.windowBase
    host := s.host
    hostData := s.hostData
    fresh := s.fresh + mayHaveWritten s }

end Sys2Proof.Machine
end

