-- ==== Sys2Proof/Machine/Fetch.lean ====
section
/-! DEFINITION. Machine/Fetch.lean: what the next step does: whose turn it is, and for the core the instruction it
fetches (R122's byte, R220's tag) or the line of its rule it runs. -/

namespace Sys2Proof.Machine

/-- A step's work: an instruction to run in a state, or an outcome already reached. -/
inductive Work where
  /-- Run the instruction. -/
  | run (i : Instr) (s : State)
  /-- No instruction runs: the outcome. -/
  | finish (r : Result)

/-- `b <- IN[count]; count <- count + 1` (R122). -/
def consumeVarintByte (s : State) : State := setVarint s { s.varint with count := s.varint.count + 1 }

/-- `tag <- IN[ip]; ip <- ip + 1` (R220, R223). -/
def consumeTag (s : State) : State :=
  setDec s { s.dec with tag := inByte s s.dec.ip.toNat, ip := s.dec.ip + 1 }

/-- The byte of IN at `i` where IN has one. Past IN_LEN no byte is read (R62): the decoder is shown 0 there, and
the operation's NEED raises before the operand is used (R224; DEDUCED, safe; log entry 14). -/
def streamByte (s : State) (i : Nat) : Byte := if i < inLenOf s then inByte s i else 0#8

/-- The tag at ip and the operand bytes it asks for (R90). -/
def fetchBytes (s : State) : List Byte :=
  inByte s s.dec.ip.toNat ::
    (List.range (operandCount (inByte s s.dec.ip.toNat))).map (fun j => streamByte s (s.dec.ip.toNat + 1 + j))

/-- R122's tests before a byte is read: (a) five are consumed, (b) IN is exhausted. -/
def varintExhausted (s : State) : Bool :=
  decide (s.varint.count = 5#3) || decide (inLenOf s ≤ s.varint.count.toNat)

/-- The varint unit's next byte. -/
def varintWork (s : State) : Work :=
  if varintExhausted s then .finish (varintFail s)
  else .run (decodeVarintByte (inByte s s.varint.count.toNat)) (consumeVarintByte s)

/-- The operation loop's next operation, or its exit (R220, R260). Every fetch decodes (R91), so the last case is
never taken. -/
def opsWork (s : State) : Work :=
  if s.dec.ip.toNat < inLenOf s then
    match decode .stream (fetchBytes s) with
    | .ok (i, _) => .run i (consumeTag s)
    | .error _ => .finish (.refused .noStreamRunning)
  else .finish (endOfStream s)

/-- The core's turn. With BUSY = 0 it does nothing (R314). -/
def coreWork (s : State) : Work :=
  if busy s then
    match s.phase with
    | .idle => .finish (.next s)
    | .varint => varintWork s
    | .ops => opsWork s
    | .fragment => .finish (fragmentStep s)
    | .probe => .finish (probeStep s)
  else .finish (.next s)

/-- One action of the host. A CMD write that takes effect runs its command (R281). -/
def hostWork (a : HostAction) (s : State) : Work :=
  match a with
  | .core => coreWork s
  | .read a width => .finish (.next (hostRead a width s))
  | .write a width v =>
    match commandWritten a width v s with
    | some i => .run i s
    | none => .finish (.next (hostWrite a width v s))
  | .load addr => .finish (hostLoad addr s)
  | .store addr b => .finish (hostStore addr b s)
  | .reset => .finish (.next (resetBlock s))

/-- The next step's work: the host's next action, or the core's turn where the host has nothing to do. -/
def nextWork (s : State) : Work :=
  match s.host with
  | [] => coreWork s
  | a :: rest => hostWork a (setHost s rest)

/-! ### Placing an instruction for the host's probe -/

/-- An instruction of the stream placed at ip of a running DECOMPRESS: the command's mode, its place, and an IN_LEN
that holds the instruction (DESIGN CHOICE, safe; log entry 4). -/
def placeStreamWord (bytes : List Byte) (s : State) : State :=
  { s with
    status := statusRunning
    phase := .ops
    latch := { s.latch with opcode := opDecompress, inLen := s.dec.ip + BitVec.ofNat 64 bytes.length }
    mem := storeBytes bytes (inAddr s s.dec.ip.toNat) s.mem
    host := [] }

/-- A varint byte placed at the byte a running varint unit reads next. -/
def placeVarintWord (bytes : List Byte) (s : State) : State :=
  { s with
    latch := { s.latch with inLen := s.varint.count.setWidth 64 + BitVec.ofNat 64 bytes.length }
    mem := storeBytes bytes (inAddr s s.varint.count.toNat) s.mem
    host := [] }

/-- A CMD write placed as the host's next action, with no command running. -/
def placeCommandWord (v : BitVec 64) (s : State) : State :=
  { s with status := s.status &&& ~~~1#64, phase := .idle, host := .write s.windowBase .w64 v :: s.host }

/-- A table word placed where the next step fetches: a 64-bit word as a CMD write, a byte as the stream's next
operation, or as the varint's next byte where the state stands in a varint. -/
def placeWord (s : State) (nbits w : Nat) : State :=
  if nbits = 64 then placeCommandWord (BitVec.ofNat 64 w) s
  else if varintRunning s then placeVarintWord (leBytes 5 (w % 2 ^ nbits)) s
  else placeStreamWord (leBytes 5 (w % 2 ^ nbits)) s

end Sys2Proof.Machine
end

