-- ==== Sys2Proof/Machine/Step.lean ====
section
/-! DEFINITION. Machine/Step.lean: one step: the host's next action or the core's turn; an instruction it fetches runs
by exec. -/

namespace Sys2Proof.Machine

/-- One step of the machine. -/
def step (s : State) : Host.Outcome State Fault Refusal :=
  match nextWork s with
  | .run i s' => exec i s'
  | .finish r => r

/-- The state with a table word placed where step fetches its next instruction (DESIGN CHOICE, safe;
log entry 4). -/
def State.withFetchWord (s : State) (nbits w : Nat) : State := placeWord s nbits w

end Sys2Proof.Machine
end

