-- ==== Sys2Proof/Safety.lean ====
section
/-! DEFINITION. Safety.lean: the invariants of the machine in the terms the claims use: canonical memory, legal STATUS
words, the latched arguments, and where each command's registers stand between two steps. -/

namespace Sys2Proof.Machine

/-- Memory and HT are in canonical form. -/
abbrev CanonicalInv (s : State) : Prop := memWf s.mem = true ∧ htWf s.ht = true

/-- The words STATUS can hold (R23, R301): reset, running, done, done with each error, done with VALID. -/
def legalStatus : List (BitVec 64) := [0x00#64, 0x01#64, 0x02#64, 0x06#64, 0x0A#64, 0x0E#64, 0x12#64]

/-- STATUS holds a legal word, and BUSY says whether a command stands in its rule. -/
abbrev StatusInv (s : State) : Prop := s.status ∈ legalStatus ∧ (busy s = true ↔ s.phase ≠ .idle)

/-- The window's registers are the latched ones (R30, R281). -/
abbrev latchMatches (s : State) : Prop :=
  s.latch.inBase = s.inBase ∧ s.latch.inLen = s.inLen ∧ s.latch.outBase = s.outBase ∧ s.latch.outLen = s.outLen

/-- The command writes OUT (R60). -/
def writesOut (s : State) : Bool := decide (s.latch.opcode = opCompress) || decide (s.latch.opcode = opDecompress)

/-- The latched IN region fits and has memory (R61). -/
def inHeld (s : State) : Bool :=
  regionFits s.latch.inBase s.latch.inLen && regionMapped s.mem.map s.latch.inBase s.latch.inLen

/-- The latched OUT region fits, has memory and is disjoint from IN (R61, R64). -/
def outHeld (s : State) : Bool :=
  regionFits s.latch.outBase s.latch.outLen && regionMapped s.mem.map s.latch.outBase s.latch.outLen &&
    regionsApart s.mem.map s.latch.inBase s.latch.inLen s.latch.outBase s.latch.outLen

/-- While a command runs: the arguments are as latched, its regions are as the host owes them, and RESULT reads 0
(R28, R30, R61, R64, R281). -/
abbrev LatchInv (s : State) : Prop :=
  busy s = true → latchMatches s ∧ inHeld s = true ∧ (writesOut s = true → outHeld s = true) ∧ s.result = 0

/-- The varint unit between two bytes (R35, R122). -/
abbrev VarintInv (s : State) : Prop :=
  (s.latch.opcode = opGetlen ∨ s.latch.opcode = opDecompress ∨ s.latch.opcode = opValidate) ∧
    s.varint.count.toNat ≤ 4 ∧ s.varint.shift.toNat = 7 * s.varint.count.toNat ∧
    s.varint.acc.toNat < 2 ^ (7 * s.varint.count.toNat) ∧ s.varint.count.toNat ≤ inLenOf s

/-- The operation loop between two operations (R32, R33): `ip ≤ IN_LEN`, `op ≤ L`, and under DECOMPRESS
`L ≤ OUT_LEN` (R222). -/
abbrev OpsInv (s : State) : Prop :=
  (s.latch.opcode = opDecompress ∨ s.latch.opcode = opValidate) ∧
    s.dec.ip.toNat ≤ inLenOf s ∧ s.dec.op.toNat ≤ s.dec.L.toNat ∧
    (s.latch.opcode = opDecompress → s.dec.L.toNat ≤ outLenOf s)

/-- The stream side of a running command. -/
abbrev StreamInv (s : State) : Prop :=
  busy s = true → (s.phase = .varint → VarintInv s) ∧ (s.phase = .ops → OpsInv s)

/-- What R189's argument allows COMPRESS to have written for the first `base` bytes of the input: the varint, one
header byte a fragment, and two more a full 61 bytes. -/
def writtenBound (base : Nat) : Nat := 5 + base + (base + 65535) / 65536 + 2 * (base / 61)

/-- What COMPRESS latched and checked (R172, R173). -/
abbrev CompressInv (s : State) : Prop :=
  s.latch.opcode = opCompress ∧ s.enc.n = s.latch.inLen ∧ inLenOf s ≤ Config.maxInput ∧
    Config.maxCompressedLength (inLenOf s) ≤ outLenOf s

/-- COMPRESS at the head of its fragment loop (R173, R174). -/
abbrev FragmentInv (s : State) : Prop :=
  CompressInv s ∧ s.enc.base.toNat ≤ inLenOf s ∧ (s.enc.base.toNat < inLenOf s → s.enc.base.toNat % 65536 = 0) ∧
    s.enc.op.toNat ≤ writtenBound s.enc.base.toNat

/-- Every candidate HT can offer lies before ip (R180). -/
abbrev htBehind (s : State) : Prop :=
  ∀ h < 2 ^ s.enc.tableBits.toNat, htRead s.ht h ≠ 0 → (htRead s.ht h).toNat < s.enc.ip.toNat

/-- COMPRESS at the head of its probe loop (R175, R177 to R185). -/
abbrev ProbeInv (s : State) : Prop :=
  CompressInv s ∧ s.enc.base.toNat < inLenOf s ∧ s.enc.base.toNat % 65536 = 0 ∧
    s.enc.len.toNat = min Config.fragSize (inLenOf s - s.enc.base.toNat) ∧
    s.enc.tableBits.toNat = tableBitsFor s.enc.len.toNat ∧
    s.enc.nextEmit.toNat ≤ s.enc.ip.toNat ∧ s.enc.nextEmit.toNat ≤ s.enc.len.toNat ∧
    32 ≤ s.enc.skip.toNat ∧ s.enc.skip.toNat ≤ 32 + s.enc.ip.toNat ∧ htBehind s ∧
    s.enc.op.toNat ≤ writtenBound s.enc.base.toNat + s.enc.nextEmit.toNat + 2 * (s.enc.nextEmit.toNat / 61)

/-- The compression side of a running command. -/
abbrev EncoderInv (s : State) : Prop :=
  busy s = true → (s.phase = .fragment → FragmentInv s) ∧ (s.phase = .probe → ProbeInv s)

/-- The whole machine's invariant. -/
abbrev MachineInv (s : State) : Prop :=
  CanonicalInv s ∧ StatusInv s ∧ LatchInv s ∧ StreamInv s ∧ EncoderInv s

/-- The core steps next: the host has nothing to do. -/
abbrev coreTurn (s : State) : Prop := s.host = []

/-- Some number of steps leads from one state to the other. -/
inductive Reaches : State → State → Prop where
  /-- No step. -/
  | here (s : State) : Reaches s s
  /-- One step, then the rest. -/
  | next {s u t : State} (h : step s = .next u) (hu : Reaches u t) : Reaches s t

/-- The step ends in a fault. -/
abbrev Faults (r : Result) : Prop := ∃ f, r = .fault f

/-! ### The forms of the stream operations, as numbers -/

/-- A literal's operand bytes and its length (R226 to R230). -/
def literalShape : Instr → Option (Nat × Nat)
  | .litShort n => some (0, n.toNat + 1)
  | .litX1 e => some (1, e.toNat + 1)
  | .litX2 e => some (2, e.toNat + 1)
  | .litX3 e => some (3, e.toNat + 1)
  | .litX4 e => some (4, e.toNat + 1)
  | .copy1 _ _ => none
  | .copy2 _ _ => none
  | .copy4 _ _ => none
  | .varintMore _ => none
  | .varintLast _ => none
  | .cmdMaxlen _ => none
  | .cmdCompress _ => none
  | .cmdGetlen _ => none
  | .cmdDecompress _ => none
  | .cmdValidate _ => none

/-- A copy's operand bytes, its offset and its length (R232 to R234). -/
def copyShape : Instr → Option (Nat × Nat × Nat)
  | .copy1 l off => some (1, off.toNat, l.toNat + 4)
  | .copy2 l off => some (2, off.toNat, l.toNat + 1)
  | .copy4 l off => some (4, off.toNat, l.toNat + 1)
  | .litShort _ => none
  | .litX1 _ => none
  | .litX2 _ => none
  | .litX3 _ => none
  | .litX4 _ => none
  | .varintMore _ => none
  | .varintLast _ => none
  | .cmdMaxlen _ => none
  | .cmdCompress _ => none
  | .cmdGetlen _ => none
  | .cmdDecompress _ => none
  | .cmdValidate _ => none

/-- DECOMPRESS is in its operation loop, with the regions and the L it started with (R222, R223). -/
abbrev Decompressing (s : State) : Prop :=
  opsRunning s = true ∧ s.latch.opcode = opDecompress ∧ s.dec.L.toNat ≤ outLenOf s ∧ inHeld s = true ∧ outHeld s = true

/-- VALIDATE is in its operation loop (R260). -/
abbrev Validating (s : State) : Prop := opsRunning s = true ∧ s.latch.opcode = opValidate

/-- Bytes of IN left at ip. -/
def inputLeft (s : State) : Nat := inLenOf s - s.dec.ip.toNat

/-- Bytes of L left at op. -/
def outputLeft (s : State) : Nat := s.dec.L.toNat - s.dec.op.toNat

/-- MemMap and every byte of memory are as before, but for the `n` bytes from OUT[j], whatever addresses name them. -/
abbrev outOnly (s t : State) (j n : Nat) : Prop :=
  t.mem.map = s.mem.map ∧
    ∀ a : Addr, (∀ k < n, mapAddr s.mem.map a ≠ mapAddr s.mem.map (outAddr s (j + k))) →
      memRead t.mem a = memRead s.mem a

/-- The region does not run past address 2^64 (R61). -/
abbrev Fits (base len : BitVec 64) : Prop := base.toNat + len.toNat ≤ 2 ^ 64

/-- Every address of the region names a byte of memory (R61). -/
abbrev Mapped (f : MemMap) (base len : BitVec 64) : Prop :=
  ∀ k < len.toNat, mapAddr f (base + BitVec.ofNat 64 k) ≠ none

/-- The host may start a command that reads IN: the region fits and has memory (R61). -/
abbrev inReady (s : State) : Prop :=
  Fits s.inBase s.inLen ∧ regionMapped s.mem.map s.inBase s.inLen = true

/-- The host may start a command that reads IN and writes OUT: both regions fit and have memory, and they are disjoint
(R61, R64). -/
abbrev inOutReady (s : State) : Prop :=
  inReady s ∧ Fits s.outBase s.outLen ∧ regionMapped s.mem.map s.outBase s.outLen = true ∧ regionsDisjoint s = true

/-- The running command reads the byte of this address as IN, under this address or another (R284). -/
abbrev HeldAsIn (s : State) (a : Addr) : Prop :=
  busy s = true ∧ s.latch.opcode ≠ opMaxlen ∧ ∃ i < inLenOf s, mapAddr s.mem.map (inAddr s i) = mapAddr s.mem.map a

/-- The running command writes OUT and holds the byte of this address as OUT, under this address or another (R284). -/
abbrev HeldAsOut (s : State) (a : Addr) : Prop :=
  busy s = true ∧ writesOut s = true ∧ ∃ j < outLenOf s, mapAddr s.mem.map (outAddr s j) = mapAddr s.mem.map a

/-- The command ended: STATUS holds the word, RESULT the value, no command stands in its rule, and nothing else but the
datapath registers differs. -/
abbrev EndedWith (s t : State) (status result : BitVec 64) : Prop :=
  t = { s with status := status, result := result, phase := .idle, dec := t.dec, varint := t.varint }

/-- What VARINT_DECODE of the whole IN answers, read from the unit's registers part way (R122). -/
def pendingVarint (s : State) : Option (Nat × Nat) :=
  varintDecodeFrom (5 - s.varint.count.toNat) s.varint.count.toNat s.varint.acc.toNat
    ((varintWindow s).drop s.varint.count.toNat)

end Sys2Proof.Machine
end

