-- ==== Sys2Proof/Certificates/Slice0/Obligations.lean ====
section
/-! DEFINITION. Certificates/Slice0/Obligations.lean: what the provers are asked to prove of the model. -/

open Sys2Proof Sys2Proof.Machine

/-! ### Encodings -/

/-- R81, R85 to R89, R94: decoding an encoded well-formed instruction, with any bytes after it, gives it back with
every operand, and leaves those bytes. -/
def Obligations.DecodeEncodeAgree : Prop :=
  ∀ (i : Instr) (rest : List Byte), wellFormed i = true → decode (contextOf i) (encode i ++ rest) = .ok (i, rest)

/-- R91, R93, R95: whatever decodes is a well-formed instruction of the context asked for, and its encoding is the
bytes it was read from. -/
def Obligations.EncodeDecodeAgree : Prop :=
  ∀ (c : Context) (bs rest : List Byte) (i : Instr), decode c bs = .ok (i, rest) →
    contextOf i = c ∧ wellFormed i = true ∧ encode i ++ rest = bs

/-- R91: every tag value selects exactly one operation, by the table's match and mask, the LIT_X rows first. -/
def Obligations.EveryTagSelectsOneOperation : Prop :=
  ∀ (tag : Byte) (bs : List Byte), operandCount tag ≤ bs.length →
    ∃ i, decode .stream (tag :: bs) = .ok (i, bs.drop (operandCount tag)) ∧
      (tag = 0xF0#8 → ∃ e, i = .litX1 e) ∧ (tag = 0xF4#8 → ∃ e, i = .litX2 e) ∧
      (tag = 0xF8#8 → ∃ e, i = .litX3 e) ∧ (tag = 0xFC#8 → ∃ e, i = .litX4 e) ∧
      (tag &&& 0x03#8 = 0x00#8 ∧ tag.toNat ≤ 0xEC → ∃ n, i = .litShort n) ∧
      (tag &&& 0x03#8 = 0x01#8 → ∃ l off, i = .copy1 l off) ∧
      (tag &&& 0x03#8 = 0x02#8 → ∃ l off, i = .copy2 l off) ∧
      (tag &&& 0x03#8 = 0x03#8 → ∃ l off, i = .copy4 l off)

/-- Words written out from the spec's encodings decode to what they stand for (R85 to R89, R94; 95_test_vectors.md
T15, T16, T60, T65, T66, T68, V5). -/
def Obligations.WrittenWordsDecode : Prop :=
  decode .stream [0x08#8] = .ok (.litShort 2#6, []) ∧
    decode .stream [0xF0#8, 0xFF#8] = .ok (.litX1 255#8, []) ∧
    decode .stream [0xF4#8, 0x00#8, 0x01#8] = .ok (.litX2 256#16, []) ∧
    decode .stream [0xE5#8, 0x10#8] = .ok (.copy1 1#3 1808#11, []) ∧
    decode .stream [0x16#8, 0x03#8, 0x00#8] = .ok (.copy2 5#6 3#16, []) ∧
    decode .stream [0x13#8, 0x3D#8, 0x00#8, 0x00#8, 0x00#8] = .ok (.copy4 4#6 61#32, []) ∧
    decode .varintByte [0xAC#8] = .ok (.varintMore 0x2C#7, []) ∧
    decode .command (leBytes 8 0x22) = .ok (.cmdCompress 2#2, [])

/-- R141 to R146, R148 to R153: over each encoder's whole domain the encoder answers, and TAG_TYPE, LIT_SHORT_LEN,
LIT_EXTRA_LEN, the length and the offset read back from its bytes are the ones encoded. COPY4's field holds offsets below
2^32 (R145). -/
def Obligations.TagCodecInverse : Prop :=
  (∀ offset len : Nat, offset ≤ 2047 → 4 ≤ len → len ≤ 11 →
      ∃ tag os, tagEncCopy1 offset len = some (tag :: os) ∧ os.length = 1 ∧ tagType tag = 1#2 ∧
        ∀ rest, ∃ l off, decode .stream (tag :: os ++ rest) = .ok (.copy1 l off, rest) ∧ copy1Len l = len ∧
          off.toNat = offset) ∧
    (∀ offset len : Nat, offset ≤ 65535 → 1 ≤ len → len ≤ 64 →
      ∃ tag os, tagEncCopy2 offset len = some (tag :: os) ∧ os.length = 2 ∧ tagType tag = 2#2 ∧
        ∀ rest, ∃ l off, decode .stream (tag :: os ++ rest) = .ok (.copy2 l off, rest) ∧ copyLen l = len ∧
          off.toNat = offset) ∧
    (∀ offset len : Nat, offset < 2 ^ 32 → 1 ≤ len → len ≤ 64 →
      ∃ tag os, tagEncCopy4 offset len = some (tag :: os) ∧ os.length = 4 ∧ tagType tag = 3#2 ∧
        ∀ rest, ∃ l off, decode .stream (tag :: os ++ rest) = .ok (.copy4 l off, rest) ∧ copyLen l = len ∧
          off.toNat = offset) ∧
    ∀ len : Nat, 1 ≤ len → len ≤ 2 ^ 32 →
      ∃ tag es, tagEncLiteral len = some (tag :: es) ∧ tagType tag = 0#2 ∧
        (if len ≤ 60 then es = [] ∧ litShortLen tag = len else litShortLen tag = es.length ∧ leNat es + 1 = len) ∧
        ∀ rest, ∃ i m, decode .stream (tag :: es ++ rest) = .ok (i, rest) ∧ literalShape i = some (m, len)

/-- R121, R126: VARINT_DECODE of VARINT_ENCODE(v), followed by any bytes, gives v and the encoding's length, the
least m ≥ 1 with v < 2^(7m). -/
def Obligations.VarintRoundTrip : Prop :=
  ∀ (v : BitVec 32) (rest : List Byte),
    varintDecode (varintBytes v ++ rest) = some (v.toNat, (varintBytes v).length) ∧
      1 ≤ (varintBytes v).length ∧ v.toNat < 2 ^ (7 * (varintBytes v).length) ∧
      ∀ m, 1 ≤ m → v.toNat < 2 ^ (7 * m) → (varintBytes v).length ≤ m

/-- R186, R192: EMIT_COPY's bytes are copy-1 and copy-2 operations of the one offset whose lengths add up to the
length. -/
def Obligations.EmitCopyCoversTheMatch : Prop :=
  ∀ offset length : Nat, 1 ≤ offset → offset ≤ 65535 → 4 ≤ length →
    ∃ (ops : List Instr) (lens : List Nat), emitCopyBytes offset length = some ((ops.map encode).flatten) ∧
      lens.sum = length ∧
      List.Forall₂ (fun i l => 1 ≤ l ∧ (copyShape i = some (1, offset, l) ∨ copyShape i = some (2, offset, l))) ops lens

/-! ### Reset, completion, the register window -/

/-- R44, R330: after reset every register of the window is 0 and no command runs. -/
def Obligations.ResetRegisters : Prop :=
  State.reset.status = 0 ∧ State.reset.inBase = 0 ∧ State.reset.inLen = 0 ∧ State.reset.outBase = 0 ∧
    State.reset.outLen = 0 ∧ State.reset.result = 0 ∧ busy State.reset = false

/-- R302: `raise E` completes the command with ERR = code(E), RESULT = 0 and VALID = 0, and nothing else changes. The
codes are R301's. That HT, the latched arguments and the datapath registers are kept is the model's choice (R42, U9, U10; log
entry 19). -/
def Obligations.RaiseCompletesWithCode : Prop :=
  ∀ (err : ErrKind) (s : State),
    ∃ t, raise err s = .next t ∧ t = { s with status := t.status, result := 0, phase := .idle } ∧
      busy t = false ∧ done t = true ∧ validField t = 0#1 ∧ t.status.extractLsb' 5 59 = 0 ∧
      errField t = (match err with
        | .none => 0#2
        | .inputTooLarge => 1#2
        | .insufficientBuffer => 2#2
        | .corruptedData => 3#2)

/-- R21 to R29: a defined read of the window returns its register and changes nothing of the block. -/
def Obligations.WindowReads : Prop :=
  ∀ (s : State) (rest : List HostAction) (off : BitVec 8),
    s.host = .read (s.windowBase + off.setWidth 64) .w64 :: rest → off.toNat % 8 = 0 →
    ∃ v, step s = .next { s with host := rest, hostData := v } ∧
      (off = 0x00#8 → v = 0) ∧ (off = 0x08#8 → v = s.status) ∧ (off = 0x10#8 → v = s.inBase) ∧
      (off = 0x18#8 → v = s.inLen) ∧ (off = 0x20#8 → v = s.outBase) ∧ (off = 0x28#8 → v = s.outLen) ∧
      (off = 0x30#8 → v = s.result) ∧ (0x38 ≤ off.toNat → v = 0)

/-- R24 to R28, R30: a defined write with no command running sets the register whole; STATUS and RESULT ignore it. -/
def Obligations.WindowWrites : Prop :=
  ∀ (s : State) (rest : List HostAction) (off : BitVec 8) (v : BitVec 64),
    s.host = .write (s.windowBase + off.setWidth 64) .w64 v :: rest → busy s = false →
      (off = 0x10#8 → step s = .next { s with host := rest, inBase := v }) ∧
      (off = 0x18#8 → step s = .next { s with host := rest, inLen := v }) ∧
      (off = 0x20#8 → step s = .next { s with host := rest, outBase := v }) ∧
      (off = 0x28#8 → step s = .next { s with host := rest, outLen := v }) ∧
      (off = 0x08#8 ∨ off = 0x30#8 → step s = .next { s with host := rest })

/-- R29: the reserved offsets read 0 and ignore writes, whatever the access's width (for an access that is not 64 bits wide
at a multiple of 8, R30's effect of the hardware; log entry 7). -/
def Obligations.ReservedOffsetsInert : Prop :=
  ∀ (s : State) (rest : List HostAction) (off : BitVec 8), 0x38 ≤ off.toNat →
    (∀ width, s.host = .read (s.windowBase + off.setWidth 64) width :: rest →
        step s = .next { s with host := rest, hostData := 0 }) ∧
      ∀ width v, s.host = .write (s.windowBase + off.setWidth 64) width v :: rest →
        step s = .next { s with host := rest }

/-- R30: while a command runs every write of the window is ignored. An access that is not 64 bits wide at a multiple
of 8 is ignored as a write and returns 0 as a read (the hardware's effect; log entry 7). An access outside the window's 256
bytes reaches no register (R21; log entry 20). -/
def Obligations.IgnoredWindowAccesses : Prop :=
  (∀ (s : State) (rest : List HostAction) (off : BitVec 8) (width : AccessWidth) (v : BitVec 64),
      s.host = .write (s.windowBase + off.setWidth 64) width v :: rest →
      busy s = true ∨ width ≠ .w64 ∨ off.toNat % 8 ≠ 0 → step s = .next { s with host := rest }) ∧
    (∀ (s : State) (rest : List HostAction) (off : BitVec 8) (width : AccessWidth),
      s.host = .read (s.windowBase + off.setWidth 64) width :: rest → width ≠ .w64 ∨ off.toNat % 8 ≠ 0 →
        step s = .next { s with host := rest, hostData := 0 }) ∧
    ∀ (s : State) (rest : List HostAction) (a : Addr) (width : AccessWidth) (v : BitVec 64),
      256 ≤ (a - s.windowBase).toNat → s.host = .write a width v :: rest ∨ s.host = .read a width :: rest →
        step s = .next { s with host := rest }

/-- R22, R95: a CMD write with a reserved OPCODE or LEVEL changes no state (the hardware's effect; log entry 7). -/
def Obligations.ReservedCommandChangesNothing : Prop :=
  ∀ (s : State) (rest : List HostAction) (v : BitVec 64), s.host = .write s.windowBase .w64 v :: rest →
    v.extractLsb' 4 2 = 3#2 ∨ v.extractLsb' 0 3 = 0#3 ∨ v.extractLsb' 0 3 = 6#3 ∨ v.extractLsb' 0 3 = 7#3 →
      step s = .next { s with host := rest }

/-- R61, R75, R284, R340: what a host access to memory does while a command holds the byte, under this address or another,
and otherwise; at an address that MemMap maps to no memory it is refused (log entry 9). The free value of a raced read is any
value. -/
def Obligations.HostMemoryAccesses : Prop :=
  (∀ (s : State) (rest : List HostAction) (a : Addr), s.host = .load a :: rest → mapAddr s.mem.map a ≠ none →
      ¬ HeldAsOut s a → step s = .next { s with host := rest, hostData := (memRead s.mem a).setWidth 64 }) ∧
    (∀ (s : State) (rest : List HostAction) (a : Addr), s.host = .load a :: rest → mapAddr s.mem.map a ≠ none →
      HeldAsOut s a → ∃ v, step s = .next { s with host := rest, hostData := v, fresh := s.fresh + 1 }) ∧
    (∀ (s : State) (rest : List HostAction) (a : Addr) (b : Byte), s.host = .store a b :: rest → memWf s.mem = true →
      mapAddr s.mem.map a ≠ none → ¬ HeldAsIn s a → ¬ HeldAsOut s a →
      ∃ t, step s = .next t ∧ t = { s with host := rest, mem := t.mem } ∧ t.mem.map = s.mem.map ∧
        ∀ c, memRead t.mem c = if mapAddr s.mem.map c = mapAddr s.mem.map a then b else memRead s.mem c) ∧
    (∀ (s : State) (rest : List HostAction) (a : Addr) (b : Byte), s.host = .store a b :: rest →
      mapAddr s.mem.map a ≠ none → HeldAsIn s a ∨ HeldAsOut s a → step s = .refused .hostTouchedRegion) ∧
    ∀ (s : State) (rest : List HostAction) (a : Addr) (b : Byte), s.host = .load a :: rest ∨ s.host = .store a b :: rest →
      mapAddr s.mem.map a = none → step s = .refused .notMapped

/-- R330, R331: the reset signal puts every register at its reset value and leaves every byte but the OUT bytes the
command may have written, and the platform's parameters: the bound for COMPRESS; L for DECOMPRESS, in its varint the L that
IN declares where that parses and fits OUT (log entry 17); none for the others and with no command. The zeros of the hidden
registers are log entry 2's, the free bytes log entry 6's. -/
def Obligations.ResetSignal : Prop :=
  ∀ (s : State) (rest : List HostAction), s.host = .reset :: rest →
    ∃ t n, step s = .next t ∧
      t = { State.reset with
        mem := t.mem, windowBase := s.windowBase, host := rest, hostData := s.hostData, fresh := s.fresh + n } ∧
      outOnly s t 0 n ∧
      (busy s = false → n = 0) ∧
      (busy s = true → s.latch.opcode = opCompress → n = 32 + inLenOf s + inLenOf s / 6) ∧
      (busy s = true → s.latch.opcode = opDecompress → s.phase = .ops → n = s.dec.L.toNat) ∧
      (busy s = true → s.latch.opcode = opDecompress → s.phase = .varint →
        (∀ v m, varintDecode (varintWindow s) = some (v, m) → n = if v ≤ outLenOf s then v else 0) ∧
          (varintDecode (varintWindow s) = none → n = 0)) ∧
      (s.latch.opcode = opMaxlen ∨ s.latch.opcode = opGetlen ∨ s.latch.opcode = opValidate → n = 0)

/-- R314: with no command running and nothing for the host to do, the block does nothing. -/
def Obligations.IdleDoesNothing : Prop :=
  ∀ s : State, s.host = [] → busy s = false → step s = .next s

/-! ### A step runs the decoded instruction -/

/-- R90, R220, R223, R260: in the operation loop, a step reads the tag at IN[ip], moves ip past it, and runs the operation
that the tag and the operand bytes after it decode to. An operand byte past IN_LEN, which the block never reads, is given to
the decoder as 0, and the operation's NEED fails before it is used (log entry 14). -/
def Obligations.StepRunsStreamOperation : Prop :=
  ∀ (s : State) (i : Instr) (tag : Byte) (operands left : List Byte), opsRunning s = true →
    s.dec.ip.toNat < inLenOf s → tag = inByte s s.dec.ip.toNat →
    operands = (List.range (operandCount tag)).map (fun j =>
      if s.dec.ip.toNat + 1 + j < inLenOf s then inByte s (s.dec.ip.toNat + 1 + j) else 0#8) →
    decode .stream (tag :: operands) = .ok (i, left) →
      (s.host = [] → step s = exec i { s with dec := { s.dec with tag := tag, ip := s.dec.ip + 1 } }) ∧
      ∀ rest, s.host = .core :: rest →
        step s = exec i { s with host := rest, dec := { s.dec with tag := tag, ip := s.dec.ip + 1 } }

/-- R122: in the varint, a step takes the next byte and runs it. -/
def Obligations.StepRunsVarintByte : Prop :=
  ∀ (s : State) (i : Instr) (left : List Byte), busy s = true → s.phase = .varint → s.varint.count ≠ 5#3 →
    s.varint.count.toNat < inLenOf s → decode .varintByte [inByte s s.varint.count.toNat] = .ok (i, left) →
      (s.host = [] → step s = exec i (consumeVarintByte s)) ∧
      ∀ rest, s.host = .core :: rest → step s = exec i (consumeVarintByte (setHost s rest))

/-- R22, R281: a CMD write with no command running runs the command its OPCODE and LEVEL bits name; bits 3 and 63:6
are ignored (the hardware's effect; log entry 7). -/
def Obligations.StepRunsCommandWrite : Prop :=
  ∀ (s : State) (rest : List HostAction) (v : BitVec 64) (i : Instr) (left : List Byte),
    s.host = .write s.windowBase .w64 v :: rest → busy s = false →
      decode .command (leBytes 8 (v &&& 0x37#64).toNat) = .ok (i, left) → step s = exec i (setHost s rest)

/-! ### Commands -/

/-- R30, R281: a command while another runs is ignored. -/
def Obligations.CommandIgnoredWhileBusy : Prop :=
  ∀ (i : Instr) (s : State), contextOf i = .command → busy s = true → exec i s = .next s

/-- R170: CMD_MAXLEN completes with RESULT = (32 + IN_LEN + IN_LEN div 6) mod 2^64, ERR 0b00 and VALID 0, whatever the
other registers hold: it uses no region, and tests none (log entry 10). That the ended command keeps the latched arguments, HT
and the datapath registers, which R42, U9 and U10 leave open, is the model's choice (log entry 19). -/
def Obligations.MaxlenCompletes : Prop :=
  ∀ (level : BitVec 2) (s : State), busy s = false →
    exec (.cmdMaxlen level) s = .next { s with
      status := 0x02#64, result := BitVec.ofNat 64 ((32 + s.inLen.toNat + s.inLen.toNat / 6) % 2 ^ 64), phase := .idle,
      latch := Latch.mk 1#3 level s.inBase s.inLen s.outBase s.outLen }

/-- R172, R304: COMPRESS's two checks, InputTooLarge first, each ending the command with no byte written; where neither
fails the command goes on. n is IN_LEN, as R172's first line writes it; that an ended command keeps n and the latched
arguments, which U10 leaves open, is the model's choice (log entry 19). -/
def Obligations.CompressArgumentChecks : Prop :=
  ∀ (level : BitVec 2) (s : State), busy s = false → inOutReady s →
      (2 ^ 32 - 1 < s.inLen.toNat → exec (.cmdCompress level) s = .next { s with
        status := 0x06#64, result := 0, phase := .idle,
        latch := Latch.mk 2#3 level s.inBase s.inLen s.outBase s.outLen, enc := { s.enc with n := s.inLen } }) ∧
      (s.inLen.toNat ≤ 2 ^ 32 - 1 → s.outLen.toNat < 32 + s.inLen.toNat + s.inLen.toNat / 6 →
        exec (.cmdCompress level) s = .next { s with
          status := 0x0A#64, result := 0, phase := .idle,
          latch := Latch.mk 2#3 level s.inBase s.inLen s.outBase s.outLen, enc := { s.enc with n := s.inLen } }) ∧
      (s.inLen.toNat ≤ 2 ^ 32 - 1 → 32 + s.inLen.toNat + s.inLen.toNat / 6 ≤ s.outLen.toNat →
        ∃ t, exec (.cmdCompress level) s = .next t ∧ busy t = true)

/-- R173, R281: COMPRESS with arguments that pass starts: BUSY, the varint of n at OUT[0], and the encoder at the head
of its fragment loop with op past the varint and base 0. Every other byte and register is as before. -/
def Obligations.CompressStarts : Prop :=
  ∀ (level : BitVec 2) (s : State), busy s = false → memWf s.mem = true → inOutReady s → s.inLen.toNat ≤ 2 ^ 32 - 1 →
    32 + s.inLen.toNat + s.inLen.toNat / 6 ≤ s.outLen.toNat →
      ∃ t, exec (.cmdCompress level) s = .next t ∧
        t = { s with
          status := 0x01#64, result := 0, phase := .fragment, mem := t.mem,
          latch := Latch.mk 2#3 level s.inBase s.inLen s.outBase s.outLen,
          enc := { s.enc with
            n := s.inLen, base := 0, op := BitVec.ofNat 64 (varintBytes (s.inLen.setWidth 32)).length } } ∧
        (∀ k (h : k < (varintBytes (s.inLen.setWidth 32)).length),
          outByte t k = (varintBytes (s.inLen.setWidth 32))[k]) ∧
        t.mem.map = s.mem.map ∧
        ∀ a : Addr, (∀ k < (varintBytes (s.inLen.setWidth 32)).length,
            mapAddr s.mem.map a ≠ mapAddr s.mem.map (s.outBase + BitVec.ofNat 64 k)) →
          memRead t.mem a = memRead s.mem a

/-- R171: LEVEL has no effect on COMPRESS but to be latched: not on its start, and not on any step of the core. -/
def Obligations.LevelHasNoEffect : Prop :=
  (∀ (l1 l2 : BitVec 2) (s t : State), busy s = false → exec (.cmdCompress l1) s = .next t →
      exec (.cmdCompress l2) s = .next { t with latch := { t.latch with level := l2 } }) ∧
    ∀ (level : BitVec 2) (s t : State), s.host = [] → step s = .next t →
      step { s with latch := { s.latch with level := level } } =
        .next { t with latch := { t.latch with level := level } }

/-- R45, R220, R260, R275, R281: GETLEN, DECOMPRESS and VALIDATE start their varint with BUSY set, RESULT 0 and the
arguments latched; nothing else changes. GETLEN and VALIDATE ignore OUT_BASE and OUT_LEN (R27), so no condition is put on
them (log entry 10). -/
def Obligations.StreamCommandsStart : Prop :=
  ∀ (level : BitVec 2) (s : State), busy s = false → inReady s →
    exec (.cmdGetlen level) s = .next { s with
        status := 0x01#64, result := 0, phase := .varint, varint := VarintRegs.mk 0 0 0,
        latch := Latch.mk 3#3 level s.inBase s.inLen s.outBase s.outLen } ∧
      exec (.cmdValidate level) s = .next { s with
        status := 0x01#64, result := 0, phase := .varint, varint := VarintRegs.mk 0 0 0,
        latch := Latch.mk 5#3 level s.inBase s.inLen s.outBase s.outLen } ∧
      (inOutReady s →
        exec (.cmdDecompress level) s = .next { s with
          status := 0x01#64, result := 0, phase := .varint, varint := VarintRegs.mk 0 0 0,
          latch := Latch.mk 4#3 level s.inBase s.inLen s.outBase s.outLen })

/-- R61, R64: a command has no effect in the spec, and is refused by name, where a region it uses runs past 2^64, or names
an address without memory, or where IN and OUT overlap in their addresses, share a byte that MemMap gives both, or OUT holds
a byte twice (log entry 9); and it starts where none of these is so. -/
def Obligations.BadRegionsRefused : Prop :=
  ∀ (level : BitVec 2) (s : State), busy s = false →
    (¬ Fits s.inBase s.inLen → exec (.cmdGetlen level) s = .refused .regionWraps ∧
        exec (.cmdValidate level) s = .refused .regionWraps) ∧
      (Fits s.inBase s.inLen → ¬ Mapped s.mem.map s.inBase s.inLen →
        exec (.cmdGetlen level) s = .refused .notMapped ∧ exec (.cmdValidate level) s = .refused .notMapped) ∧
      (Fits s.inBase s.inLen → Mapped s.mem.map s.inBase s.inLen →
        (∃ t, exec (.cmdGetlen level) s = .next t) ∧ ∃ t, exec (.cmdValidate level) s = .next t) ∧
      (¬ (Fits s.inBase s.inLen ∧ Fits s.outBase s.outLen) →
        exec (.cmdCompress level) s = .refused .regionWraps ∧ exec (.cmdDecompress level) s = .refused .regionWraps) ∧
      (Fits s.inBase s.inLen → Fits s.outBase s.outLen →
        ¬ (Mapped s.mem.map s.inBase s.inLen ∧ Mapped s.mem.map s.outBase s.outLen) →
        exec (.cmdCompress level) s = .refused .notMapped ∧ exec (.cmdDecompress level) s = .refused .notMapped) ∧
      (Fits s.inBase s.inLen → Fits s.outBase s.outLen →
        Mapped s.mem.map s.inBase s.inLen → Mapped s.mem.map s.outBase s.outLen →
        (s.outBase.toNat < s.inBase.toNat + s.inLen.toNat ∧ s.inBase.toNat < s.outBase.toNat + s.outLen.toNat) ∨
          (∃ i < s.inLen.toNat, ∃ j < s.outLen.toNat,
            mapAddr s.mem.map (s.inBase + BitVec.ofNat 64 i) = mapAddr s.mem.map (s.outBase + BitVec.ofNat 64 j)) ∨
          (∃ j < s.outLen.toNat, ∃ k < j,
            mapAddr s.mem.map (s.outBase + BitVec.ofNat 64 j) = mapAddr s.mem.map (s.outBase + BitVec.ofNat 64 k)) →
        exec (.cmdCompress level) s = .refused .regionsOverlap ∧
          exec (.cmdDecompress level) s = .refused .regionsOverlap) ∧
      (Fits s.inBase s.inLen → Fits s.outBase s.outLen →
        Mapped s.mem.map s.inBase s.inLen → Mapped s.mem.map s.outBase s.outLen →
        s.inBase.toNat + s.inLen.toNat ≤ s.outBase.toNat ∨ s.outBase.toNat + s.outLen.toNat ≤ s.inBase.toNat →
        (∀ i < s.inLen.toNat, ∀ j < s.outLen.toNat,
          mapAddr s.mem.map (s.inBase + BitVec.ofNat 64 i) ≠ mapAddr s.mem.map (s.outBase + BitVec.ofNat 64 j)) →
        (∀ j < s.outLen.toNat, ∀ k < j,
          mapAddr s.mem.map (s.outBase + BitVec.ofNat 64 j) ≠ mapAddr s.mem.map (s.outBase + BitVec.ofNat 64 k)) →
        (∃ t, exec (.cmdCompress level) s = .next t) ∧ ∃ t, exec (.cmdDecompress level) s = .next t)

/-- R42, R287: a command's start does not depend on what an earlier command left in HT, the datapath registers or the
latched arguments. -/
def Obligations.StartIgnoresHiddenState : Prop :=
  ∀ (i : Instr) (s s' t : State), contextOf i = .command → busy s = false →
    s' = { s with
      ht := s'.ht, varint := s'.varint, dec := s'.dec, enc := s'.enc, latch := s'.latch, phase := s'.phase } →
    exec i s = .next t →
      ∃ t', exec i s' = .next t' ∧ t'.status = t.status ∧ t'.result = t.result ∧ t'.mem = t.mem ∧ t'.phase = t.phase ∧
        t'.latch = t.latch ∧ (t.phase = .varint → t'.varint = t.varint) ∧
        (t.phase = .fragment → t'.enc.n = t.enc.n ∧ t'.enc.op = t.enc.op ∧ t'.enc.base = t.enc.base)

/-! ### The varint unit -/

/-- R122: a byte with C = 1 that is not the fifth adds its group and moves the shift on by 7; nothing else changes. -/
def Obligations.VarintMoreContinues : Prop :=
  ∀ (g : BitVec 7) (s : State), varintRunning s = true → s.varint.count ≠ 5#3 → s.varint.shift.toNat + 7 < 32 →
    exec (.varintMore g) s = .next { s with
      varint := { s.varint with
        acc := s.varint.acc ||| (g.setWidth 35 <<< s.varint.shift.toNat), shift := s.varint.shift + 7 } }

/-- R45, R122, R127, R220 to R222, R260, R275, R333: a byte with C = 0 ends the varint with L = acc[31:0]: the three
commands set L, ip just past the varint and op to 0; GETLEN completes with L and VALID = 1, DECOMPRESS checks its buffer first,
and DECOMPRESS and VALIDATE start their operations. An L above OUT_LEN ends DECOMPRESS before ip and op are set.
That GETLEN and that DECOMPRESS, which end here, keep the registers as they stand is the model's choice (U9, U10; log entry
19). -/
def Obligations.VarintLastEndsTheVarint : Prop :=
  ∀ (g : BitVec 7) (s : State) (v : VarintRegs) (L : BitVec 32), varintRunning s = true →
    (s.varint.count = 5#3 → g.extractLsb' 4 3 = 0#3) →
    v = { s.varint with acc := s.varint.acc ||| (g.setWidth 35 <<< s.varint.shift.toNat) } → L = v.acc.setWidth 32 →
      (s.latch.opcode = 3#3 → exec (.varintLast g) s = .next { s with
        status := 0x12#64, result := L.setWidth 64, phase := .idle, varint := v,
        dec := { s.dec with L := L, ip := s.varint.count.setWidth 64, op := 0 } }) ∧
      (s.latch.opcode = 4#3 → L.toNat ≤ s.latch.outLen.toNat → exec (.varintLast g) s = .next { s with
        phase := .ops, varint := v, dec := { s.dec with L := L, ip := s.varint.count.setWidth 64, op := 0 } }) ∧
      (s.latch.opcode = 4#3 → s.latch.outLen.toNat < L.toNat → exec (.varintLast g) s = .next { s with
        status := 0x0A#64, result := 0, phase := .idle, varint := v, dec := { s.dec with L := L } }) ∧
      (s.latch.opcode = 5#3 → exec (.varintLast g) s = .next { s with
        phase := .ops, varint := v, dec := { s.dec with L := L, ip := s.varint.count.setWidth 64, op := 0 } })

/-- R123, R124: a varint fails at a fifth byte that goes on, at a fifth byte with a bit of G[6:4], and where IN is
exhausted: DECOMPRESS raises CorruptedData, GETLEN and VALIDATE complete with VALID = 0. That the ended command keeps the datapath
registers, HT and the latched arguments is the model's choice (U9, U10; log entry 19). -/
def Obligations.VarintFailures : Prop :=
  (∀ (g : BitVec 7) (s : State), varintRunning s = true → s.varint.count = 5#3 → g.extractLsb' 4 3 ≠ 0#3 →
      exec (.varintMore g) s = .next { s with
          status := if s.latch.opcode = 4#3 then 0x0E#64 else 0x02#64, result := 0, phase := .idle } ∧
        exec (.varintLast g) s = .next { s with
          status := if s.latch.opcode = 4#3 then 0x0E#64 else 0x02#64, result := 0, phase := .idle }) ∧
    (∀ (g : BitVec 7) (s : State), varintRunning s = true → 32 ≤ s.varint.shift.toNat + 7 →
      ∃ v, exec (.varintMore g) s = .next { s with
        status := if s.latch.opcode = 4#3 then 0x0E#64 else 0x02#64, result := 0, phase := .idle, varint := v }) ∧
    ∀ s : State, varintRunning s = true → s.host = [] →
      s.varint.count = 5#3 ∨ inLenOf s ≤ s.varint.count.toNat →
      step s = .next { s with
        status := if s.latch.opcode = 4#3 then 0x0E#64 else 0x02#64, result := 0, phase := .idle }

/-- R122, R126: from one byte to the next the varint unit keeps what VARINT_DECODE of the whole IN answers, and ends
with it: L and ip for the operations, or a completion with that value or for want of one. -/
def Obligations.VarintUnitFollowsDecode : Prop :=
  ∀ s t : State, StreamInv s → busy s = true → s.phase = .varint → s.host = [] → step s = .next t →
    (t.phase = .varint → pendingVarint t = pendingVarint s) ∧
      (t.phase = .ops → pendingVarint s = some (t.dec.L.toNat, t.dec.ip.toNat) ∧ t.dec.op = 0) ∧
      (busy t = false → s.latch.opcode = opGetlen →
        (validField t = 1#1 ∧ ∃ m, pendingVarint s = some (t.result.toNat, m)) ∨
          (validField t = 0#1 ∧ pendingVarint s = none)) ∧
      (busy t = false → s.latch.opcode = opValidate →
        validField t = 0#1 ∧ errField t = 0#2 ∧ pendingVarint s = none) ∧
      (busy t = false → errField t = 3#2 → pendingVarint s = none) ∧
      (busy t = false → errField t = 2#2 → ∃ L m, pendingVarint s = some (L, m) ∧ outLenOf s < L)

/-! ### Literals -/

/-- R225 to R230: under DECOMPRESS, a literal whose length bytes and data are in IN and whose data fits L moves its
data to OUT[op …] and advances both cursors; every other byte, register and flag is as before. That k is left at the length
is the model's choice (log entry 19). -/
def Obligations.LiteralsDecode : Prop :=
  ∀ (i : Instr) (m len : Nat) (s : State), literalShape i = some (m, len) → Decompressing s → memWf s.mem = true →
    m + len ≤ inputLeft s → len ≤ outputLeft s →
      ∃ t, exec i s = .next t ∧
        t = { s with
          mem := t.mem,
          dec := { s.dec with
            ip := s.dec.ip + BitVec.ofNat 64 (m + len), op := s.dec.op + BitVec.ofNat 64 len,
            len := BitVec.ofNat 64 len, k := BitVec.ofNat 64 len } } ∧
        t.dec.ip.toNat = s.dec.ip.toNat + m + len ∧ t.dec.op.toNat = s.dec.op.toNat + len ∧
        (∀ k < len, outByte t (s.dec.op.toNat + k) = inByte s (s.dec.ip.toNat + m + k)) ∧
        outOnly s t s.dec.op.toNat len

/-- R262 to R267, R268 to R271: under VALIDATE the same literals advance both cursors, the copies whose offset bytes are in
IN, whose offset is 1 … op and whose length fits L advance op, and ip past their offset bytes; no byte of memory changes,
and k, which the shadows do not write, is as before. That LIT_SHORT's shadow sets len too, which R263 does not name, is the
model's choice, and so is what k holds (log entry 19). -/
def Obligations.OperationsValidate : Prop :=
  (∀ (i : Instr) (m len : Nat) (s : State), literalShape i = some (m, len) → Validating s →
      m + len ≤ inputLeft s → len ≤ outputLeft s →
        exec i s = .next { s with
          dec := { s.dec with
            ip := s.dec.ip + BitVec.ofNat 64 (m + len), op := s.dec.op + BitVec.ofNat 64 len,
            len := BitVec.ofNat 64 len } }) ∧
    ∀ (i : Instr) (m offset len : Nat) (s : State), copyShape i = some (m, offset, len) → Validating s →
      m ≤ inputLeft s → 1 ≤ offset → offset ≤ s.dec.op.toNat → len ≤ outputLeft s →
        exec i s = .next { s with
          dec := { s.dec with
            ip := s.dec.ip + BitVec.ofNat 64 m, op := s.dec.op + BitVec.ofNat 64 len,
            len := BitVec.ofNat 64 len, offset := BitVec.ofNat 64 offset } }

/-- R224, R225, R241, R261, R262: a literal that wants bytes IN does not have or takes op above L ends the command,
CorruptedData under DECOMPRESS and VALID = 0 under VALIDATE, with no byte written. EndedWith leaves the
datapath registers of the ended command open; that HT and the latched arguments are kept is log entry 19's choice. -/
def Obligations.LiteralsTrap : Prop :=
  ∀ (i : Instr) (m len : Nat) (s : State), literalShape i = some (m, len) → opsRunning s = true →
    inputLeft s < m + len ∨ outputLeft s < len →
      (s.latch.opcode = 4#3 → ∃ t, exec i s = .next t ∧ EndedWith s t 0x0E#64 0) ∧
      (s.latch.opcode = 5#3 → ∃ t, exec i s = .next t ∧ EndedWith s t 0x02#64 0)

/-! ### Copies -/

/-- R231 to R234: under DECOMPRESS, a copy whose offset bytes are in IN, whose offset is 1 … op and whose length fits L
makes every byte it writes equal to the byte `offset` below it as it stands after the copy, in increasing order; every
other byte, register and flag is as before. That k is left at the length is the model's choice (log entry 19). -/
def Obligations.CopiesDecode : Prop :=
  ∀ (i : Instr) (m offset len : Nat) (s : State), copyShape i = some (m, offset, len) → Decompressing s →
    memWf s.mem = true → m ≤ inputLeft s → 1 ≤ offset → offset ≤ s.dec.op.toNat → len ≤ outputLeft s →
      ∃ t, exec i s = .next t ∧
        t = { s with
          mem := t.mem,
          dec := { s.dec with
            ip := s.dec.ip + BitVec.ofNat 64 m, op := s.dec.op + BitVec.ofNat 64 len,
            len := BitVec.ofNat 64 len, offset := BitVec.ofNat 64 offset, k := BitVec.ofNat 64 len } } ∧
        t.dec.op.toNat = s.dec.op.toNat + len ∧
        (∀ k < len, outByte t (s.dec.op.toNat + k) = outByte t (s.dec.op.toNat - offset + k)) ∧
        outOnly s t s.dec.op.toNat len

/-- R224, R231, R241, R261, R268: a copy that wants offset bytes IN does not have, has offset 0 or above op, or takes op
above L ends the command, CorruptedData under DECOMPRESS and VALID = 0 under VALIDATE, with no byte written. HT and the
latched arguments are kept by log entry 19's choice. -/
def Obligations.CopiesTrap : Prop :=
  ∀ (i : Instr) (m offset len : Nat) (s : State), copyShape i = some (m, offset, len) → opsRunning s = true →
    inputLeft s < m ∨ offset = 0 ∨ s.dec.op.toNat < offset ∨ outputLeft s < len →
      (s.latch.opcode = 4#3 → ∃ t, exec i s = .next t ∧ EndedWith s t 0x0E#64 0) ∧
      (s.latch.opcode = 5#3 → ∃ t, exec i s = .next t ∧ EndedWith s t 0x02#64 0)

/-! ### The stream as a whole -/

/-- R273: an operation goes on under VALIDATE exactly where it goes on under DECOMPRESS, with the same registers but for
the byte index k, which the shadows do not write, and ends ILLEGAL exactly where DECOMPRESS raises CorruptedData.
That LIT_SHORT's shadow sets len too is the model's choice (log entry 19). -/
def Obligations.ShadowAgreesWithDecoder : Prop :=
  ∀ (i : Instr) (s v : State), contextOf i = .stream → opsRunning s = true → s.latch.opcode = opDecompress →
    s.dec.L.toNat ≤ outLenOf s → v = { s with latch := { s.latch with opcode := opValidate } } →
      ∃ t u, exec i s = .next t ∧ exec i v = .next u ∧
        ((busy t = true ∧ busy u = true ∧ t.dec = { u.dec with k := t.dec.k }) ∨
          (busy t = false ∧ errField t = 3#2 ∧ busy u = false ∧ errField u = 0#2 ∧ validField u = 0#1))

/-- R239: once op = L, a stream with a byte left raises CorruptedData. HT and the latched arguments are kept by log
entry 19's choice. -/
def Obligations.TrailingBytesRaise : Prop :=
  ∀ s : State, opsRunning s = true → s.latch.opcode = opDecompress → s.host = [] → s.dec.op.toNat = s.dec.L.toNat →
    s.dec.ip.toNat < inLenOf s → ∃ t, step s = .next t ∧ EndedWith s t 0x0E#64 0

/-- R235, R236, R272: at the end of IN, DECOMPRESS completes with RESULT = L where op = L and raises CorruptedData
elsewhere; VALIDATE is LEGAL where op = L and ip = IN_LEN and ILLEGAL elsewhere. That the ended command keeps the datapath registers, HT
and the latched arguments, which R42, U9 and U10 leave open, is the model's choice (log entry 19). -/
def Obligations.EndOfStreamAnswers : Prop :=
  ∀ s : State, opsRunning s = true → s.host = [] → inLenOf s ≤ s.dec.ip.toNat →
    (s.latch.opcode = 4#3 → s.dec.op.toNat = s.dec.L.toNat →
      step s = .next { s with status := 0x02#64, result := s.dec.L.setWidth 64, phase := .idle }) ∧
    (s.latch.opcode = 4#3 → s.dec.op.toNat ≠ s.dec.L.toNat →
      step s = .next { s with status := 0x0E#64, result := 0, phase := .idle }) ∧
    (s.latch.opcode = 5#3 → s.dec.op.toNat = s.dec.L.toNat → s.dec.ip.toNat = inLenOf s →
      step s = .next { s with status := 0x12#64, result := 0, phase := .idle }) ∧
    (s.latch.opcode = 5#3 → s.dec.op.toNat ≠ s.dec.L.toNat ∨ s.dec.ip.toNat ≠ inLenOf s →
      step s = .next { s with status := 0x02#64, result := 0, phase := .idle })

/-- R32, R240: an operation that does not end the command moves ip forward, never past IN_LEN, and op forward, never
past L, and leaves L. -/
def Obligations.OperationsAdvance : Prop :=
  ∀ s t : State, StreamInv s → busy s = true → s.phase = .ops → s.host = [] → step s = .next t → busy t = true →
    t.phase = .ops ∧ s.dec.ip.toNat < t.dec.ip.toNat ∧ t.dec.ip.toNat ≤ inLenOf s ∧
      s.dec.op.toNat < t.dec.op.toNat ∧ t.dec.op.toNat ≤ s.dec.L.toNat ∧ t.dec.L = s.dec.L

/-! ### The encoder -/

/-- R175: a fragment's table has the least power of two of entries that holds its length, clamped to 256 … 32768. -/
def Obligations.TableBitsAreLeast : Prop :=
  ∀ len : Nat, 8 ≤ tableBitsFor len ∧ tableBitsFor len ≤ 15 ∧ min (max len 256) 32768 ≤ 2 ^ tableBitsFor len ∧
    ∀ k < tableBitsFor len, 2 ^ k < min (max len 256) 32768

/-- R41: a fragment starts with its own table entries 0, and its hash indexes no others. -/
def Obligations.FragmentTableCleared : Prop :=
  ∀ (s t : State), busy s = true → s.phase = .fragment → s.host = [] → s.enc.base.toNat < s.enc.n.toNat →
    step s = .next t →
      (∀ h < 2 ^ t.enc.tableBits.toNat, htRead t.ht h = 0) ∧
        (∀ h, 2 ^ t.enc.tableBits.toNat ≤ h → htRead t.ht h = htRead s.ht h) ∧
        ∀ w : BitVec 32, hashOf t.enc.tableBits.toNat w < 2 ^ t.enc.tableBits.toNat

/-- R173, R174, R177: the fragment loop's head starts the next fragment of at most 65536 bytes, its cursors 0 and skip
32, with op carried over; it leaves memory and every other register. -/
def Obligations.FragmentStarts : Prop :=
  ∀ s : State, busy s = true → s.phase = .fragment → s.host = [] → s.enc.base.toNat < s.enc.n.toNat →
    ∃ t, step s = .next t ∧
      t = { s with
        phase := .probe, ht := t.ht,
        enc := { s.enc with
          len := BitVec.ofNat 17 (min 65536 (s.enc.n.toNat - s.enc.base.toNat)),
          tableBits := BitVec.ofNat 4 (tableBitsFor (min 65536 (s.enc.n.toNat - s.enc.base.toNat))),
          ip := 0, nextEmit := 0, skip := 32 } }

/-- R173, R188: with no input left, COMPRESS completes with RESULT = op. That HT, the encoder's registers and the latched arguments are
kept, which R42, U9 and U10 leave open, is the model's choice (log entry 19). -/
def Obligations.CompressCompletes : Prop :=
  ∀ s : State, busy s = true → s.phase = .fragment → s.host = [] → s.enc.n.toNat ≤ s.enc.base.toNat →
    step s = .next { s with status := 0x02#64, result := s.enc.op, phase := .idle }

/-- R67, R176, R179, R180, R184: a probe whose candidate is 0, too far, or of other bytes writes ip to its HT entry, whose
old value it keeps as the candidate, and advances ip by skip / 32 and skip by 1; memory and every other register are as
before. -/
def Obligations.ProbeMissSkips : Prop :=
  ∀ (s : State) (w : BitVec 32) (h : Nat) (cand : BitVec 16), busy s = true → s.phase = .probe → s.host = [] →
    htWf s.ht = true → s.enc.ip.toNat + 15 < s.enc.len.toNat → w = load32 s (s.enc.base.toNat + s.enc.ip.toNat) →
    h = (w * 0x1E35A7BD#32).toNat / 2 ^ 17 % 2 ^ s.enc.tableBits.toNat → cand = htRead s.ht h →
    ¬(cand ≠ 0 ∧ s.enc.ip.toNat - cand.toNat ≤ 65535 ∧ load32 s (s.enc.base.toNat + cand.toNat) = w) →
      ∃ t : State, step s = .next t ∧
        t = { s with
          ht := t.ht,
          enc := { s.enc with
            w := w, h := BitVec.ofNat 15 h, candidate := cand,
            ip := s.enc.ip + BitVec.ofNat 17 (s.enc.skip.toNat / 32), skip := s.enc.skip + 1 } } ∧
        htRead t.ht h = BitVec.ofNat 16 s.enc.ip.toNat ∧ ∀ g, g ≠ h → htRead t.ht g = htRead s.ht g

/-- R67, R176, R179 to R183, R186, R187: at a probe whose candidate is not 0, near enough and of the same four bytes, the
pending literal and then the copy are written to OUT[op …]; the match is real, at least 4 bytes, inside the fragment and as
long as it can be; ip and next_emit move past it and skip is 32. HT holds ip at the probe's entry, and then the entry for
ip − 1 where the loop will probe again; every other entry is as before. -/
def Obligations.ProbeMatchEmits : Prop :=
  ∀ (s : State) (w : BitVec 32) (h : Nat) (cand : BitVec 16), MachineInv s → busy s = true → s.phase = .probe →
    s.host = [] → s.enc.ip.toNat + 15 < s.enc.len.toNat → w = load32 s (s.enc.base.toNat + s.enc.ip.toNat) →
    h = (w * 0x1E35A7BD#32).toNat / 2 ^ 17 % 2 ^ s.enc.tableBits.toNat → cand = htRead s.ht h →
    cand ≠ 0 → s.enc.ip.toNat - cand.toNat ≤ 65535 → load32 s (s.enc.base.toNat + cand.toNat) = w →
      ∃ (t : State) (mlen lit : Nat) (header copy : List Byte), step s = .next t ∧
        cand.toNat < s.enc.ip.toNat ∧
        4 ≤ mlen ∧ s.enc.ip.toNat + mlen ≤ s.enc.len.toNat ∧
        (∀ j < mlen, inByte s (s.enc.base.toNat + s.enc.ip.toNat + j) = inByte s (s.enc.base.toNat + cand.toNat + j)) ∧
        (s.enc.ip.toNat + mlen < s.enc.len.toNat →
          inByte s (s.enc.base.toNat + s.enc.ip.toNat + mlen) ≠ inByte s (s.enc.base.toNat + cand.toNat + mlen)) ∧
        lit = s.enc.ip.toNat - s.enc.nextEmit.toNat ∧
        (if lit = 0 then header = [] else tagEncLiteral lit = some header) ∧
        emitCopyBytes (s.enc.ip.toNat - cand.toNat) mlen = some copy ∧
        t = { s with mem := t.mem, ht := t.ht, enc := t.enc } ∧
        t.enc.ip.toNat = s.enc.ip.toNat + mlen ∧ t.enc.nextEmit = t.enc.ip ∧ t.enc.skip = 32 ∧
        t.enc.n = s.enc.n ∧ t.enc.base = s.enc.base ∧ t.enc.len = s.enc.len ∧ t.enc.tableBits = s.enc.tableBits ∧
        t.enc.op.toNat = s.enc.op.toNat + header.length + lit + copy.length ∧
        (∀ k (h : k < header.length), outByte t (s.enc.op.toNat + k) = header[k]) ∧
        (∀ k < lit, outByte t (s.enc.op.toNat + header.length + k) =
          inByte s (s.enc.base.toNat + s.enc.nextEmit.toNat + k)) ∧
        (∀ k (h : k < copy.length), outByte t (s.enc.op.toNat + header.length + lit + k) = copy[k]) ∧
        outOnly s t s.enc.op.toNat (header.length + lit + copy.length) ∧
        ∀ g, htRead t.ht g =
          if s.enc.ip.toNat + mlen + 15 < s.enc.len.toNat ∧
              g = (load32 s (s.enc.base.toNat + (s.enc.ip.toNat + mlen - 1)) * 0x1E35A7BD#32).toNat / 2 ^ 17 %
                2 ^ s.enc.tableBits.toNat then
            BitVec.ofNat 16 (s.enc.ip.toNat + mlen - 1)
          else if g = h then BitVec.ofNat 16 s.enc.ip.toNat
          else htRead s.ht g

/-- R173, R185, R187: where the fragment is not probed further, its tail literal is written, if there is one, and base
moves to the next fragment. -/
def Obligations.TailEmits : Prop :=
  ∀ s : State, MachineInv s → busy s = true → s.phase = .probe → s.host = [] →
    s.enc.len.toNat ≤ s.enc.ip.toNat + 15 →
      ∃ (t : State) (lit : Nat) (header : List Byte), step s = .next t ∧
        lit = s.enc.len.toNat - s.enc.nextEmit.toNat ∧
        (if lit = 0 then header = [] else tagEncLiteral lit = some header) ∧
        t = { s with
          phase := .fragment, mem := t.mem,
          enc := { s.enc with
            base := s.enc.base + s.enc.len.setWidth 64, op := s.enc.op + BitVec.ofNat 64 (header.length + lit) } } ∧
        (∀ k (h : k < header.length), outByte t (s.enc.op.toNat + k) = header[k]) ∧
        (∀ k < lit, outByte t (s.enc.op.toNat + header.length + k) =
          inByte s (s.enc.base.toNat + s.enc.nextEmit.toNat + k)) ∧
        outOnly s t s.enc.op.toNat (header.length + lit)

/-- R190: a pass of the probe loop moves ip forward in the same fragment, or ends the fragment with base moved forward
and never past n. -/
def Obligations.EncoderAdvances : Prop :=
  ∀ s t : State, CanonicalInv s → EncoderInv s → busy s = true → s.phase = .probe → s.host = [] → step s = .next t →
    busy t = true ∧
      ((t.phase = .probe ∧ t.enc.base = s.enc.base ∧ s.enc.ip.toNat < t.enc.ip.toNat) ∨
        (t.phase = .fragment ∧ s.enc.base.toNat < t.enc.base.toNat ∧ t.enc.base.toNat ≤ s.enc.n.toNat))

/-- R189: when COMPRESS completes, RESULT is at most 32 + n + n div 6, which OUT holds. -/
def Obligations.CompressedSizeBound : Prop :=
  ∀ s t : State, EncoderInv s → busy s = true → s.phase = .fragment → s.host = [] → step s = .next t →
    busy t = false →
      t.result.toNat ≤ 32 + inLenOf s + inLenOf s / 6 ∧ t.result.toNat ≤ outLenOf s

/-! ### Invariants every step keeps -/

/-- Every step keeps memory and HT in canonical form, and the platform's parameters as they are (R7). -/
def Obligations.CanonicalFormKept : Prop :=
  ∀ s t : State, CanonicalInv s → step s = .next t →
    CanonicalInv t ∧ t.mem.map = s.mem.map ∧ t.windowBase = s.windowBase

/-- R23, R281, R282, R301: STATUS only ever holds one of its seven legal words, and BUSY = 1 exactly while a command
stands in its rule. -/
def Obligations.StatusStaysLegal : Prop :=
  ∀ s t : State, StatusInv s → step s = .next t → StatusInv t

/-- R28, R30, R281: while a command runs the window's registers are the latched ones, RESULT reads 0, and the regions
fit, have memory and are disjoint, as R61 and R64 ask of the commands that use them (log entries 9, 10, 11). -/
def Obligations.LatchedArgumentsHold : Prop :=
  ∀ s t : State, LatchInv s → step s = .next t → LatchInv t

/-- R32, R33, R35, R222: the varint unit's registers agree with its count, ip stays within IN_LEN, op within L, and
under DECOMPRESS L within OUT_LEN. -/
def Obligations.StreamRegistersInBounds : Prop :=
  ∀ s t : State, StreamInv s → step s = .next t → StreamInv t

/-- R174, R177 to R189: the encoder's fragment lies in the input, next_emit does not pass ip, every candidate lies
before ip, and op stays within R189's account. -/
def Obligations.EncoderRegistersInBounds : Prop :=
  ∀ s t : State, CanonicalInv s → EncoderInv s → step s = .next t → EncoderInv t

/-- The invariants hold after reset. -/
def Obligations.ResetMeetsInvariants : Prop := MachineInv State.reset

/-- R147, R191, R238: in a state that meets the invariant no step faults: the tag encoders stay in their domains, and
no write is outside OUT. -/
def Obligations.NoStepFaults : Prop :=
  ∀ s : State, MachineInv s → ¬ Faults (step s)

/-- R286, R351: in a state that meets the invariant the core's turn always answers a next state. -/
def Obligations.CoreAlwaysSteps : Prop :=
  ∀ s : State, MachineInv s → s.host = [] → ∃ t, step s = .next t

/-- R62, R63, R191, R238: the core's turn changes no byte outside OUT, none of IN, and none at all under GETLEN and
VALIDATE. -/
def Obligations.CoreWritesOnlyOut : Prop :=
  ∀ s t : State, MachineInv s → s.host = [] → step s = .next t →
    (∀ a : Addr, (∀ j < outLenOf s, mapAddr s.mem.map a ≠ mapAddr s.mem.map (outAddr s j)) →
        memRead t.mem a = memRead s.mem a) ∧
      (∀ j < inLenOf s, busy s = true → inByte t j = inByte s j) ∧
      (busy s = false ∨ writesOut s = false → t.mem = s.mem)

/-! ### Whole commands -/

/-- R194: COMPRESS of any input completes, without error, with a stream from which, wherever and whenever the host has it
read again, GETLEN gives the input's length, VALIDATE answers LEGAL, and DECOMPRESS with room enough gives the input's bytes
back. GETLEN and VALIDATE ignore OUT_BASE and OUT_LEN, so no condition is put on them there (R27; log entry 10). -/
def Obligations.DecompressRestoresCompressed : Prop :=
  ∀ (level : BitVec 2) (s : State), busy s = false → s.host = [] → CanonicalInv s →
    inOutReady s → s.inLen.toNat ≤ 2 ^ 32 - 1 → 32 + s.inLen.toNat + s.inLen.toNat / 6 ≤ s.outLen.toNat →
      ∃ c t, exec (.cmdCompress level) s = .next c ∧ Reaches c t ∧ t.status = 0x02#64 ∧
        t.result.toNat ≤ s.outLen.toNat ∧
        ∀ (level' : BitVec 2) (u : State), busy u = false → u.host = [] → memWf u.mem = true →
          inReady u → u.inLen = t.result →
          (∀ k < t.result.toNat,
            memRead u.mem (u.inBase + BitVec.ofNat 64 k) = memRead t.mem (s.outBase + BitVec.ofNat 64 k)) →
            (∃ c' t', exec (.cmdGetlen level') u = .next c' ∧ Reaches c' t' ∧ t'.status = 0x12#64 ∧
              t'.result = s.inLen) ∧
            (∃ c' t', exec (.cmdValidate level') u = .next c' ∧ Reaches c' t' ∧ t'.status = 0x12#64) ∧
            (inOutReady u → s.inLen.toNat ≤ u.outLen.toNat →
              ∃ c' t', exec (.cmdDecompress level') u = .next c' ∧ Reaches c' t' ∧ t'.status = 0x02#64 ∧
                t'.result = s.inLen ∧
                ∀ k < s.inLen.toNat,
                  memRead t'.mem (u.outBase + BitVec.ofNat 64 k) = memRead s.mem (s.inBase + BitVec.ofNat 64 k))
end

