-- ==== Sys2Proof/Laws/State.lean ====
section
/-! SUPPORT. Laws/State.lean: each field after each named update, and what the flags read after a start and a
completion. -/

namespace Sys2Proof.Machine

section
variable (s : State) (d : DecRegs)

@[simp] theorem setDec_status : (setDec s d).status = s.status := rfl
@[simp] theorem setDec_inBase : (setDec s d).inBase = s.inBase := rfl
@[simp] theorem setDec_inLen : (setDec s d).inLen = s.inLen := rfl
@[simp] theorem setDec_outBase : (setDec s d).outBase = s.outBase := rfl
@[simp] theorem setDec_outLen : (setDec s d).outLen = s.outLen := rfl
@[simp] theorem setDec_result : (setDec s d).result = s.result := rfl
@[simp] theorem setDec_latch : (setDec s d).latch = s.latch := rfl
@[simp] theorem setDec_phase : (setDec s d).phase = s.phase := rfl
@[simp] theorem setDec_varint : (setDec s d).varint = s.varint := rfl
@[simp] theorem setDec_dec : (setDec s d).dec = d := rfl
@[simp] theorem setDec_enc : (setDec s d).enc = s.enc := rfl
@[simp] theorem setDec_ht : (setDec s d).ht = s.ht := rfl
@[simp] theorem setDec_mem : (setDec s d).mem = s.mem := rfl
@[simp] theorem setDec_host : (setDec s d).host = s.host := rfl
@[simp] theorem setDec_hostData : (setDec s d).hostData = s.hostData := rfl
@[simp] theorem setDec_fresh : (setDec s d).fresh = s.fresh := rfl
@[simp] theorem setDec_windowBase : (setDec s d).windowBase = s.windowBase := rfl

end

section
variable (s : State) (e : EncRegs)

@[simp] theorem setEnc_status : (setEnc s e).status = s.status := rfl
@[simp] theorem setEnc_inBase : (setEnc s e).inBase = s.inBase := rfl
@[simp] theorem setEnc_inLen : (setEnc s e).inLen = s.inLen := rfl
@[simp] theorem setEnc_outBase : (setEnc s e).outBase = s.outBase := rfl
@[simp] theorem setEnc_outLen : (setEnc s e).outLen = s.outLen := rfl
@[simp] theorem setEnc_result : (setEnc s e).result = s.result := rfl
@[simp] theorem setEnc_latch : (setEnc s e).latch = s.latch := rfl
@[simp] theorem setEnc_phase : (setEnc s e).phase = s.phase := rfl
@[simp] theorem setEnc_varint : (setEnc s e).varint = s.varint := rfl
@[simp] theorem setEnc_dec : (setEnc s e).dec = s.dec := rfl
@[simp] theorem setEnc_enc : (setEnc s e).enc = e := rfl
@[simp] theorem setEnc_ht : (setEnc s e).ht = s.ht := rfl
@[simp] theorem setEnc_mem : (setEnc s e).mem = s.mem := rfl
@[simp] theorem setEnc_host : (setEnc s e).host = s.host := rfl
@[simp] theorem setEnc_hostData : (setEnc s e).hostData = s.hostData := rfl
@[simp] theorem setEnc_fresh : (setEnc s e).fresh = s.fresh := rfl
@[simp] theorem setEnc_windowBase : (setEnc s e).windowBase = s.windowBase := rfl

end

section
variable (s : State) (v : VarintRegs)

@[simp] theorem setVarint_status : (setVarint s v).status = s.status := rfl
@[simp] theorem setVarint_inBase : (setVarint s v).inBase = s.inBase := rfl
@[simp] theorem setVarint_inLen : (setVarint s v).inLen = s.inLen := rfl
@[simp] theorem setVarint_outBase : (setVarint s v).outBase = s.outBase := rfl
@[simp] theorem setVarint_outLen : (setVarint s v).outLen = s.outLen := rfl
@[simp] theorem setVarint_result : (setVarint s v).result = s.result := rfl
@[simp] theorem setVarint_latch : (setVarint s v).latch = s.latch := rfl
@[simp] theorem setVarint_phase : (setVarint s v).phase = s.phase := rfl
@[simp] theorem setVarint_varint : (setVarint s v).varint = v := rfl
@[simp] theorem setVarint_dec : (setVarint s v).dec = s.dec := rfl
@[simp] theorem setVarint_enc : (setVarint s v).enc = s.enc := rfl
@[simp] theorem setVarint_ht : (setVarint s v).ht = s.ht := rfl
@[simp] theorem setVarint_mem : (setVarint s v).mem = s.mem := rfl
@[simp] theorem setVarint_host : (setVarint s v).host = s.host := rfl
@[simp] theorem setVarint_hostData : (setVarint s v).hostData = s.hostData := rfl
@[simp] theorem setVarint_fresh : (setVarint s v).fresh = s.fresh := rfl
@[simp] theorem setVarint_windowBase : (setVarint s v).windowBase = s.windowBase := rfl

end

section
variable (s : State) (m : Memory)

@[simp] theorem setMem_status : (setMem s m).status = s.status := rfl
@[simp] theorem setMem_inBase : (setMem s m).inBase = s.inBase := rfl
@[simp] theorem setMem_inLen : (setMem s m).inLen = s.inLen := rfl
@[simp] theorem setMem_outBase : (setMem s m).outBase = s.outBase := rfl
@[simp] theorem setMem_outLen : (setMem s m).outLen = s.outLen := rfl
@[simp] theorem setMem_result : (setMem s m).result = s.result := rfl
@[simp] theorem setMem_latch : (setMem s m).latch = s.latch := rfl
@[simp] theorem setMem_phase : (setMem s m).phase = s.phase := rfl
@[simp] theorem setMem_varint : (setMem s m).varint = s.varint := rfl
@[simp] theorem setMem_dec : (setMem s m).dec = s.dec := rfl
@[simp] theorem setMem_enc : (setMem s m).enc = s.enc := rfl
@[simp] theorem setMem_ht : (setMem s m).ht = s.ht := rfl
@[simp] theorem setMem_mem : (setMem s m).mem = m := rfl
@[simp] theorem setMem_host : (setMem s m).host = s.host := rfl
@[simp] theorem setMem_hostData : (setMem s m).hostData = s.hostData := rfl
@[simp] theorem setMem_fresh : (setMem s m).fresh = s.fresh := rfl
@[simp] theorem setMem_windowBase : (setMem s m).windowBase = s.windowBase := rfl

end

section
variable (s : State) (t : List (Nat × BitVec 16))

@[simp] theorem setHt_status : (setHt s t).status = s.status := rfl
@[simp] theorem setHt_inBase : (setHt s t).inBase = s.inBase := rfl
@[simp] theorem setHt_inLen : (setHt s t).inLen = s.inLen := rfl
@[simp] theorem setHt_outBase : (setHt s t).outBase = s.outBase := rfl
@[simp] theorem setHt_outLen : (setHt s t).outLen = s.outLen := rfl
@[simp] theorem setHt_result : (setHt s t).result = s.result := rfl
@[simp] theorem setHt_latch : (setHt s t).latch = s.latch := rfl
@[simp] theorem setHt_phase : (setHt s t).phase = s.phase := rfl
@[simp] theorem setHt_varint : (setHt s t).varint = s.varint := rfl
@[simp] theorem setHt_dec : (setHt s t).dec = s.dec := rfl
@[simp] theorem setHt_enc : (setHt s t).enc = s.enc := rfl
@[simp] theorem setHt_ht : (setHt s t).ht = t := rfl
@[simp] theorem setHt_mem : (setHt s t).mem = s.mem := rfl
@[simp] theorem setHt_host : (setHt s t).host = s.host := rfl
@[simp] theorem setHt_hostData : (setHt s t).hostData = s.hostData := rfl
@[simp] theorem setHt_fresh : (setHt s t).fresh = s.fresh := rfl
@[simp] theorem setHt_windowBase : (setHt s t).windowBase = s.windowBase := rfl

end

section
variable (s : State) (p : Phase)

@[simp] theorem setPhase_status : (setPhase s p).status = s.status := rfl
@[simp] theorem setPhase_inBase : (setPhase s p).inBase = s.inBase := rfl
@[simp] theorem setPhase_inLen : (setPhase s p).inLen = s.inLen := rfl
@[simp] theorem setPhase_outBase : (setPhase s p).outBase = s.outBase := rfl
@[simp] theorem setPhase_outLen : (setPhase s p).outLen = s.outLen := rfl
@[simp] theorem setPhase_result : (setPhase s p).result = s.result := rfl
@[simp] theorem setPhase_latch : (setPhase s p).latch = s.latch := rfl
@[simp] theorem setPhase_phase : (setPhase s p).phase = p := rfl
@[simp] theorem setPhase_varint : (setPhase s p).varint = s.varint := rfl
@[simp] theorem setPhase_dec : (setPhase s p).dec = s.dec := rfl
@[simp] theorem setPhase_enc : (setPhase s p).enc = s.enc := rfl
@[simp] theorem setPhase_ht : (setPhase s p).ht = s.ht := rfl
@[simp] theorem setPhase_mem : (setPhase s p).mem = s.mem := rfl
@[simp] theorem setPhase_host : (setPhase s p).host = s.host := rfl
@[simp] theorem setPhase_hostData : (setPhase s p).hostData = s.hostData := rfl
@[simp] theorem setPhase_fresh : (setPhase s p).fresh = s.fresh := rfl
@[simp] theorem setPhase_windowBase : (setPhase s p).windowBase = s.windowBase := rfl

end

section
variable (s : State) (acts : List HostAction)

@[simp] theorem setHost_status : (setHost s acts).status = s.status := rfl
@[simp] theorem setHost_inBase : (setHost s acts).inBase = s.inBase := rfl
@[simp] theorem setHost_inLen : (setHost s acts).inLen = s.inLen := rfl
@[simp] theorem setHost_outBase : (setHost s acts).outBase = s.outBase := rfl
@[simp] theorem setHost_outLen : (setHost s acts).outLen = s.outLen := rfl
@[simp] theorem setHost_result : (setHost s acts).result = s.result := rfl
@[simp] theorem setHost_latch : (setHost s acts).latch = s.latch := rfl
@[simp] theorem setHost_phase : (setHost s acts).phase = s.phase := rfl
@[simp] theorem setHost_varint : (setHost s acts).varint = s.varint := rfl
@[simp] theorem setHost_dec : (setHost s acts).dec = s.dec := rfl
@[simp] theorem setHost_enc : (setHost s acts).enc = s.enc := rfl
@[simp] theorem setHost_ht : (setHost s acts).ht = s.ht := rfl
@[simp] theorem setHost_mem : (setHost s acts).mem = s.mem := rfl
@[simp] theorem setHost_host : (setHost s acts).host = acts := rfl
@[simp] theorem setHost_hostData : (setHost s acts).hostData = s.hostData := rfl
@[simp] theorem setHost_fresh : (setHost s acts).fresh = s.fresh := rfl
@[simp] theorem setHost_windowBase : (setHost s acts).windowBase = s.windowBase := rfl

end

section
variable (s : State) (err : ErrKind) (valid : BitVec 1) (r : Word)

@[simp] theorem complete_status : (complete err valid r s).status = statusDone err valid := rfl
@[simp] theorem complete_inBase : (complete err valid r s).inBase = s.inBase := rfl
@[simp] theorem complete_inLen : (complete err valid r s).inLen = s.inLen := rfl
@[simp] theorem complete_outBase : (complete err valid r s).outBase = s.outBase := rfl
@[simp] theorem complete_outLen : (complete err valid r s).outLen = s.outLen := rfl
@[simp] theorem complete_result : (complete err valid r s).result = r := rfl
@[simp] theorem complete_latch : (complete err valid r s).latch = s.latch := rfl
@[simp] theorem complete_phase : (complete err valid r s).phase = .idle := rfl
@[simp] theorem complete_varint : (complete err valid r s).varint = s.varint := rfl
@[simp] theorem complete_dec : (complete err valid r s).dec = s.dec := rfl
@[simp] theorem complete_enc : (complete err valid r s).enc = s.enc := rfl
@[simp] theorem complete_ht : (complete err valid r s).ht = s.ht := rfl
@[simp] theorem complete_mem : (complete err valid r s).mem = s.mem := rfl
@[simp] theorem complete_host : (complete err valid r s).host = s.host := rfl
@[simp] theorem complete_hostData : (complete err valid r s).hostData = s.hostData := rfl
@[simp] theorem complete_fresh : (complete err valid r s).fresh = s.fresh := rfl
@[simp] theorem complete_windowBase : (complete err valid r s).windowBase = s.windowBase := rfl

end

section
variable (s : State) (op : BitVec 3) (level : BitVec 2)

@[simp] theorem beginCommand_status : (beginCommand op level s).status = statusRunning := rfl
@[simp] theorem beginCommand_inBase : (beginCommand op level s).inBase = s.inBase := rfl
@[simp] theorem beginCommand_inLen : (beginCommand op level s).inLen = s.inLen := rfl
@[simp] theorem beginCommand_outBase : (beginCommand op level s).outBase = s.outBase := rfl
@[simp] theorem beginCommand_outLen : (beginCommand op level s).outLen = s.outLen := rfl
@[simp] theorem beginCommand_result : (beginCommand op level s).result = 0 := rfl
@[simp] theorem beginCommand_latch :
    (beginCommand op level s).latch =
      { opcode := op, level := level, inBase := s.inBase, inLen := s.inLen, outBase := s.outBase, outLen := s.outLen } := rfl
@[simp] theorem beginCommand_phase : (beginCommand op level s).phase = s.phase := rfl
@[simp] theorem beginCommand_varint : (beginCommand op level s).varint = s.varint := rfl
@[simp] theorem beginCommand_dec : (beginCommand op level s).dec = s.dec := rfl
@[simp] theorem beginCommand_enc : (beginCommand op level s).enc = s.enc := rfl
@[simp] theorem beginCommand_ht : (beginCommand op level s).ht = s.ht := rfl
@[simp] theorem beginCommand_mem : (beginCommand op level s).mem = s.mem := rfl
@[simp] theorem beginCommand_host : (beginCommand op level s).host = s.host := rfl
@[simp] theorem beginCommand_hostData : (beginCommand op level s).hostData = s.hostData := rfl
@[simp] theorem beginCommand_fresh : (beginCommand op level s).fresh = s.fresh := rfl
@[simp] theorem beginCommand_windowBase : (beginCommand op level s).windowBase = s.windowBase := rfl

end

section
variable (s : State) (n : Nat) (m : Memory)

@[simp] theorem emitted_status : (emitted s n m).status = s.status := rfl
@[simp] theorem emitted_inBase : (emitted s n m).inBase = s.inBase := rfl
@[simp] theorem emitted_inLen : (emitted s n m).inLen = s.inLen := rfl
@[simp] theorem emitted_outBase : (emitted s n m).outBase = s.outBase := rfl
@[simp] theorem emitted_outLen : (emitted s n m).outLen = s.outLen := rfl
@[simp] theorem emitted_result : (emitted s n m).result = s.result := rfl
@[simp] theorem emitted_latch : (emitted s n m).latch = s.latch := rfl
@[simp] theorem emitted_phase : (emitted s n m).phase = s.phase := rfl
@[simp] theorem emitted_varint : (emitted s n m).varint = s.varint := rfl
@[simp] theorem emitted_dec : (emitted s n m).dec = s.dec := rfl
@[simp] theorem emitted_enc : (emitted s n m).enc = { s.enc with op := s.enc.op + BitVec.ofNat 64 n } := rfl
@[simp] theorem emitted_ht : (emitted s n m).ht = s.ht := rfl
@[simp] theorem emitted_mem : (emitted s n m).mem = m := rfl
@[simp] theorem emitted_host : (emitted s n m).host = s.host := rfl
@[simp] theorem emitted_hostData : (emitted s n m).hostData = s.hostData := rfl
@[simp] theorem emitted_fresh : (emitted s n m).fresh = s.fresh := rfl
@[simp] theorem emitted_windowBase : (emitted s n m).windowBase = s.windowBase := rfl

end

/-! ### Flags -/

/-- The flags depend on STATUS alone. -/
theorem busy_congr {s t : State} (h : s.status = t.status) : busy s = busy t := by simp [busy, h]

@[simp] theorem busy_setDec (s : State) (d : DecRegs) : busy (setDec s d) = busy s := rfl
@[simp] theorem busy_setEnc (s : State) (e : EncRegs) : busy (setEnc s e) = busy s := rfl
@[simp] theorem busy_setVarint (s : State) (v : VarintRegs) : busy (setVarint s v) = busy s := rfl
@[simp] theorem busy_setMem (s : State) (m : Memory) : busy (setMem s m) = busy s := rfl
@[simp] theorem busy_setHt (s : State) (t : List (Nat × BitVec 16)) : busy (setHt s t) = busy s := rfl
@[simp] theorem busy_setPhase (s : State) (p : Phase) : busy (setPhase s p) = busy s := rfl
@[simp] theorem busy_setHost (s : State) (acts : List HostAction) : busy (setHost s acts) = busy s := rfl
@[simp] theorem busy_emitted (s : State) (n : Nat) (m : Memory) : busy (emitted s n m) = busy s := rfl

/-- R281: BUSY after a start. -/
@[simp] theorem busy_beginCommand (s : State) (op : BitVec 3) (level : BitVec 2) :
    busy (beginCommand op level s) = true := by simp [busy, statusRunning]

/-- STATUS's fields at completion (R282). -/
theorem statusDone_bits (err : ErrKind) (valid : BitVec 1) :
    (statusDone err valid).getLsbD 0 = false ∧ (statusDone err valid).getLsbD 1 = true ∧
      (statusDone err valid).extractLsb' 2 2 = errCode err ∧ (statusDone err valid).extractLsb' 4 1 = valid ∧
      (statusDone err valid).extractLsb' 5 59 = 0 := by
  revert valid; cases err <;> decide

/-- R282: BUSY after a completion. -/
@[simp] theorem busy_complete (s : State) (err : ErrKind) (valid : BitVec 1) (r : Word) :
    busy (complete err valid r s) = false := (statusDone_bits err valid).1

/-- R282: DONE after a completion. -/
@[simp] theorem done_complete (s : State) (err : ErrKind) (valid : BitVec 1) (r : Word) :
    done (complete err valid r s) = true := (statusDone_bits err valid).2.1

/-- R282: ERR after a completion. -/
@[simp] theorem errField_complete (s : State) (err : ErrKind) (valid : BitVec 1) (r : Word) :
    errField (complete err valid r s) = errCode err := (statusDone_bits err valid).2.2.1

/-- R282: VALID after a completion. -/
@[simp] theorem validField_complete (s : State) (err : ErrKind) (valid : BitVec 1) (r : Word) :
    validField (complete err valid r s) = valid := (statusDone_bits err valid).2.2.2.1

end Sys2Proof.Machine
end

