-- ==== Sys2Proof/Laws/Command.lean ====
section
/-! SUPPORT. Laws/Command.lean: once for the varint unit and for each kind of command start, everything it can do. -/

namespace Sys2Proof.Machine

section

variable {s t : State} {op : BitVec 3} {level : BitVec 2} {run : State → Result}

/-- A failed varint ends the command (R221, R275, R260). -/
theorem varintFail_eq : ∃ err, varintFail s = .next (complete err 0#1 0 s) := by
  unfold varintFail
  split
  · exact ⟨_, rfl⟩
  · exact ⟨_, rfl⟩

/-- A parsed varint ends GETLEN, or DECOMPRESS for want of room, or starts the operations of DECOMPRESS and
VALIDATE. -/
theorem varintOk_next (h : varintOk s = .next t) :
    (∃ err valid r d, (err = .none ∨ valid = 0#1) ∧ t = complete err valid r (setDec s d)) ∨
      (s.latch.opcode ≠ opGetlen ∧ (s.latch.opcode = opDecompress → (s.varint.acc.setWidth 32).toNat ≤ outLenOf s) ∧
        t = beginOps s) := by
  unfold varintOk at h
  split at h
  · cases h; exact .inl ⟨_, _, _, _, .inl rfl, rfl⟩
  · next hg =>
    split at h
    · next hd =>
      split at h
      · cases h; exact .inl ⟨_, _, _, _, .inr rfl, rfl⟩
      · next hl => cases h; exact .inr ⟨hg, fun _ => by omega, rfl⟩
    · next hd => cases h; exact .inr ⟨hg, fun h' => absurd h' hd, rfl⟩

/-- VARINT_MORE goes on to the next byte or ends the command. -/
theorem execVarintMore_next {g : BitVec 7} (h : execVarintMore g s = .next t) :
    varintRunning s ∧
      ((fifthByteBad s g = false ∧ s.varint.shift.toNat + 7 < 32 ∧
          t = setVarint s { s.varint with acc := accumulate s.varint g, shift := s.varint.shift + 7 }) ∨
        ∃ v err, t = complete err 0#1 0 (setVarint s v)) := by
  unfold execVarintMore at h
  split at h
  · next hr =>
    refine ⟨hr, ?_⟩
    split at h
    · obtain ⟨err, e⟩ := varintFail_eq (s := s)
      rw [e] at h
      cases h
      exact .inr ⟨s.varint, err, rfl⟩
    · next hb =>
      split at h
      · obtain ⟨err, e⟩ := varintFail_eq (s := setVarint s
          { s.varint with acc := accumulate s.varint g, shift := s.varint.shift + 7 })
        rw [e] at h
        cases h
        exact .inr ⟨_, err, rfl⟩
      · next hs => cases h; exact .inl ⟨by simpa using hb, by omega, rfl⟩
  · cases h

/-- VARINT_LAST ends the command or starts the operations. -/
theorem execVarintLast_next {g : BitVec 7} (h : execVarintLast g s = .next t) :
    varintRunning s ∧
      ((fifthByteBad s g = false ∧ s.latch.opcode ≠ opGetlen ∧
          (s.latch.opcode = opDecompress → ((accumulate s.varint g).setWidth 32).toNat ≤ outLenOf s) ∧
          t = beginOps (setVarint s { s.varint with acc := accumulate s.varint g })) ∨
        ∃ v err valid r d, (err = .none ∨ valid = 0#1) ∧ t = complete err valid r (setDec (setVarint s v) d)) := by
  unfold execVarintLast at h
  split at h
  · next hr =>
    refine ⟨hr, ?_⟩
    split at h
    · obtain ⟨err, e⟩ := varintFail_eq (s := s)
      rw [e] at h
      cases h
      exact .inr ⟨s.varint, err, _, _, s.dec, .inr rfl, rfl⟩
    · next hb =>
      obtain ⟨err, valid, r, d, hv, rfl⟩ | ⟨hg, hl, rfl⟩ := varintOk_next h
      · exact .inr ⟨_, err, valid, r, d, hv, rfl⟩
      · exact .inl ⟨by simpa using hb, hg, hl, rfl⟩
  · cases h

/-! ### Command starts -/

/-- MAXLEN's start: ignored while a command runs, else the command's rule runs from its start. -/
theorem startPlain_next (h : startPlain op level run s = .next t) :
    (busy s = true ∧ t = s) ∨ (busy s = false ∧ run (beginCommand op level s) = .next t) := by
  unfold startPlain at h
  split at h
  · next hb => cases h; exact .inl ⟨hb, rfl⟩
  · next hb => exact .inr ⟨by simpa using hb, h⟩

/-- GETLEN's and VALIDATE's start. -/
theorem startIn_next (h : startIn op level run s = .next t) :
    (busy s = true ∧ t = s) ∨
      (busy s = false ∧ regionFits s.inBase s.inLen = true ∧ regionMapped s.mem.map s.inBase s.inLen = true ∧
        run (beginCommand op level s) = .next t) := by
  unfold startIn at h
  split at h
  · next hb => cases h; exact .inl ⟨hb, rfl⟩
  · next hb =>
    split at h
    · next hr =>
      split at h
      · next hm => exact .inr ⟨by simpa using hb, hr, hm, h⟩
      · cases h
    · cases h

/-- GETLEN's and VALIDATE's start where IN is as the host owes it (R61). -/
theorem startIn_of_ready (hb : busy s = false) (h : inReady s) :
    startIn op level run s = run (beginCommand op level s) := by
  have h1 : regionFits s.inBase s.inLen = true := decide_eq_true h.1
  simp only [startIn, hb, h1, h.2, Bool.false_eq_true, if_false, if_true]

/-- COMPRESS's and DECOMPRESS's start where IN and OUT are as the host owes them (R61, R64). -/
theorem startInOut_of_ready (hb : busy s = false) (h : inOutReady s) :
    startInOut op level run s = run (beginCommand op level s) := by
  have h1 : regionFits s.inBase s.inLen = true := decide_eq_true h.1.1
  have h2 : regionFits s.outBase s.outLen = true := decide_eq_true h.2.1
  simp only [startInOut, hb, h1, h2, h.1.2, h.2.2.1, h.2.2.2, Bool.and_self, Bool.false_eq_true, if_false, if_true]

/-- COMPRESS's and DECOMPRESS's start. -/
theorem startInOut_next (h : startInOut op level run s = .next t) :
    (busy s = true ∧ t = s) ∨
      (busy s = false ∧ regionFits s.inBase s.inLen = true ∧ regionFits s.outBase s.outLen = true ∧
        regionMapped s.mem.map s.inBase s.inLen = true ∧ regionMapped s.mem.map s.outBase s.outLen = true ∧
        regionsDisjoint s = true ∧ run (beginCommand op level s) = .next t) := by
  unfold startInOut at h
  split at h
  · next hb => cases h; exact .inl ⟨hb, rfl⟩
  · next hb =>
    split at h
    · next hr =>
      rw [Bool.and_eq_true] at hr
      split at h
      · next hm =>
        rw [Bool.and_eq_true] at hm
        split at h
        · next hd => exact .inr ⟨by simpa using hb, hr.1, hr.2, hm.1, hm.2, hd, h⟩
        · cases h
      · cases h
    · cases h

end

end Sys2Proof.Machine
end

