-- ==== Sys2Proof/Laws/Decode.lean ====
section
/-! SUPPORT. Laws/Decode.lean: what reading an operand does, and what of it the encoder's bytes give back. -/

namespace Sys2Proof

@[simp] theorem leBytes_length (n v : Nat) : (leBytes n v).length = n := by
  induction n generalizing v with
  | zero => rfl
  | succ n ih => simp [leBytes, ih]

/-- The bytes of a value read back as the value, as far as they hold it. -/
theorem takeLE_leBytes (n v : Nat) (rest : List Byte) :
    takeLE n (leBytes n v ++ rest) = .ok (v % 256 ^ n, rest) := by
  induction n generalizing v with
  | zero => simp [takeLE, leBytes, Nat.mod_one]
  | succ n ih =>
    simp only [leBytes, List.cons_append, takeLE, ih, BitVec.toNat_ofNat]
    congr 2
    rw [show 256 ^ (n + 1) = 256 * 256 ^ n by rw [Nat.pow_succ, Nat.mul_comm], Nat.mod_mul]

/-- The operand a form reads from a value's bytes. -/
theorem withOperand_leBytes (n v : Nat) (mk : Nat → Instr) (rest : List Byte) :
    withOperand n mk (leBytes n v ++ rest) = .ok (mk (v % 256 ^ n), rest) := by
  rw [withOperand, takeLE_leBytes]

/-- A read operand is the value of the bytes read. -/
theorem takeLE_ok {n : Nat} {bs rest : List Byte} {v : Nat} (h : takeLE n bs = .ok (v, rest)) :
    v < 256 ^ n ∧ leBytes n v ++ rest = bs := by
  induction n generalizing bs v with
  | zero =>
    simp only [takeLE] at h
    cases h
    simp [leBytes]
  | succ n ih =>
    cases bs with
    | nil => cases h
    | cons b bs =>
      have hb : b.toNat < 256 := b.isLt
      simp only [takeLE] at h
      split at h
      · next v' r' hv =>
        cases h
        obtain ⟨hlt, he⟩ := ih hv
        refine ⟨by rw [Nat.pow_succ]; omega, ?_⟩
        have hd : (b.toNat + 256 * v') / 256 = v' := by omega
        have hm : BitVec.ofNat 8 (b.toNat + 256 * v') = b := by
          apply BitVec.eq_of_toNat_eq
          simp only [BitVec.toNat_ofNat]
          omega
        simp only [leBytes, List.cons_append, hd, he, hm]
      · cases h

/-- A form with an operand reads it from its bytes. -/
theorem withOperand_ok {n : Nat} {mk : Nat → Instr} {bs rest : List Byte} {i : Instr}
    (h : withOperand n mk bs = .ok (i, rest)) : ∃ v, v < 256 ^ n ∧ i = mk v ∧ leBytes n v ++ rest = bs := by
  unfold withOperand at h
  split at h
  · next v r hv =>
    cases h
    obtain ⟨hlt, he⟩ := takeLE_ok hv
    exact ⟨v, hlt, rfl, he⟩
  · cases h

/-- Every list of as many bytes decodes as an operand. -/
theorem takeLE_of_length (n : Nat) (bs : List Byte) (h : n ≤ bs.length) :
    ∃ v, takeLE n bs = .ok (v, bs.drop n) := by
  induction n generalizing bs with
  | zero => exact ⟨0, rfl⟩
  | succ n ih =>
    cases bs with
    | nil => simp at h
    | cons b bs =>
      obtain ⟨v, hv⟩ := ih bs (by simpa using h)
      exact ⟨_, by rw [takeLE, hv]; rfl⟩

/-- An operand of a form whose bytes are there is read. -/
theorem withOperand_of_length (n : Nat) (mk : Nat → Instr) (bs : List Byte) (h : n ≤ bs.length) :
    ∃ v, withOperand n mk bs = .ok (mk v, bs.drop n) := by
  obtain ⟨v, hv⟩ := takeLE_of_length n bs h
  exact ⟨v, by rw [withOperand, hv]⟩

end Sys2Proof
end

