-- ==== Sys2Proof/Laws/Memory.lean ====
section
/-! SUPPORT. Laws/Memory.lean: what the table, memory and HT operations do: read after write, frames, and that each
keeps the canonical form. -/

namespace Sys2Proof.Machine

section Sparse

variable {w : Nat} {d : BitVec w} {bound lo : Nat}

/-- A write leaves every other key alone, whatever the list. -/
theorem sparseGet_sparseSet_ne {a b : Nat} (h : b ≠ a) (v : BitVec w) (l : List (Nat × BitVec w)) :
    sparseGet d (sparseSet d l a v) b = sparseGet d l b := by
  induction l with
  | nil =>
    by_cases hv : v = d
    · simp [sparseSet, hv]
    · simp [sparseSet, hv, sparseGet, Ne.symm h]
  | cons e t ih =>
    obtain ⟨k, x⟩ := e
    by_cases h1 : k < a
    · simp [sparseSet, h1, sparseGet, ih]
    · by_cases h2 : k = a
      · subst h2
        by_cases hv : v = d <;> simp [sparseSet, hv, sparseGet, Ne.symm h]
      · by_cases hv : v = d <;> simp [sparseSet, h1, h2, hv, sparseGet, Ne.symm h]

/-- A key below a canonical list's keys is unlisted. -/
theorem sparseGet_of_lt {l : List (Nat × BitVec w)} (hl : sparseWf d bound lo l) {a : Nat} (ha : a < lo) :
    sparseGet d l a = d := by
  induction l generalizing lo with
  | nil => rfl
  | cons e t ih =>
    obtain ⟨k, x⟩ := e
    simp only [sparseWf, Bool.and_eq_true, decide_eq_true_eq] at hl
    have hk : k ≠ a := by omega
    simp only [sparseGet, hk, if_false]
    exact ih hl.2 (by omega)

/-- The value written is the value read, in a canonical list. -/
theorem sparseGet_sparseSet_self {l : List (Nat × BitVec w)} (hl : sparseWf d bound lo l) (a : Nat) (v : BitVec w) :
    sparseGet d (sparseSet d l a v) a = v := by
  induction l generalizing lo with
  | nil => by_cases hv : v = d <;> simp [sparseSet, sparseGet, hv]
  | cons e t ih =>
    obtain ⟨k, x⟩ := e
    simp only [sparseWf, Bool.and_eq_true, decide_eq_true_eq] at hl
    by_cases h1 : k < a
    · have hk : k ≠ a := by omega
      simp only [sparseSet, h1, if_true, sparseGet, hk, if_false]
      exact ih hl.2
    · by_cases h2 : k = a
      · subst h2
        by_cases hv : v = d
        · simp only [sparseSet, Nat.lt_irrefl, if_false, if_true, hv]
          exact sparseGet_of_lt hl.2 (by omega)
        · simp [sparseSet, hv, sparseGet]
      · by_cases hv : v = d
        · simp only [sparseSet, h1, if_false, h2, hv, if_true, sparseGet]
          exact sparseGet_of_lt hl.2 (by omega)
        · simp [sparseSet, h1, h2, hv, sparseGet]

/-- A lower start is a weaker demand. -/
theorem sparseWf_mono {lo' : Nat} (h : lo' ≤ lo) {l : List (Nat × BitVec w)} (hl : sparseWf d bound lo l) :
    sparseWf d bound lo' l := by
  cases l with
  | nil => rfl
  | cons e t =>
    obtain ⟨k, x⟩ := e
    simp only [sparseWf, Bool.and_eq_true, decide_eq_true_eq] at hl ⊢
    exact ⟨⟨⟨by omega, hl.1.1.2⟩, hl.1.2⟩, hl.2⟩

/-- A write keeps the canonical form. -/
theorem sparseWf_sparseSet {l : List (Nat × BitVec w)} (hl : sparseWf d bound lo l) {a : Nat} (hlo : lo ≤ a)
    (ha : a < bound) (v : BitVec w) : sparseWf d bound lo (sparseSet d l a v) := by
  induction l generalizing lo with
  | nil => by_cases hv : v = d <;> simp [sparseSet, sparseWf, hv, hlo, ha]
  | cons e t ih =>
    obtain ⟨k, x⟩ := e
    have hl' := hl
    simp only [sparseWf, Bool.and_eq_true, decide_eq_true_eq] at hl
    by_cases h1 : k < a
    · simp only [sparseSet, h1, if_true, sparseWf, Bool.and_eq_true, decide_eq_true_eq]
      exact ⟨hl.1, ih hl.2 (by omega)⟩
    · by_cases h2 : k = a
      · subst h2
        by_cases hv : v = d
        · simp only [sparseSet, Nat.lt_irrefl, if_false, if_true, hv]
          exact sparseWf_mono (by omega) hl.2
        · simp only [sparseSet, Nat.lt_irrefl, if_false, if_true, hv, sparseWf, Bool.and_eq_true,
            decide_eq_true_eq, bne_iff_ne, ne_eq, not_false_eq_true, and_true]
          exact ⟨hl.1.1, hl.2⟩
      · by_cases hv : v = d
        · simpa only [sparseSet, h1, if_false, h2, hv, if_true] using hl'
        · simp only [sparseSet, h1, if_false, h2, hv, sparseWf, Bool.and_eq_true, decide_eq_true_eq, bne_iff_ne,
            ne_eq, not_false_eq_true, and_true]
          exact ⟨⟨hlo, ha⟩, ⟨⟨by omega, hl.1.1.2⟩, by simpa using hl.1.2⟩, hl.2⟩

/-- Keeping the entries at or above a key keeps the canonical form. -/
theorem sparseWf_filter {l : List (Nat × BitVec w)} (hl : sparseWf d bound lo l) (p : Nat × BitVec w → Bool) :
    sparseWf d bound lo (l.filter p) := by
  induction l generalizing lo with
  | nil => rfl
  | cons e t ih =>
    obtain ⟨k, x⟩ := e
    simp only [sparseWf, Bool.and_eq_true, decide_eq_true_eq] at hl
    by_cases hp : p (k, x)
    · simp only [List.filter, hp, sparseWf, Bool.and_eq_true, decide_eq_true_eq]
      exact ⟨hl.1, ih hl.2⟩
    · simp only [List.filter, hp]
      exact sparseWf_mono (by omega) (ih hl.2)

end Sparse

/-! ### Memory -/

@[simp] theorem memWrite_map (m : Memory) (a : Addr) (v : Byte) : (memWrite m a v).map = m.map := rfl

/-- A write leaves every address of another byte alone, whatever the memory. -/
theorem memRead_memWrite_ne {m : Memory} {a b : Addr} (h : mapAddr m.map b ≠ mapAddr m.map a) (v : Byte) :
    memRead (memWrite m a v) b = memRead m b := by
  unfold memRead
  rw [memWrite_map]
  cases hb : mapAddr m.map b with
  | none => rfl
  | some c =>
    cases ha : mapAddr m.map a with
    | none => simp only [memWrite, ha]
    | some d =>
      simp only [memWrite, ha]
      exact sparseGet_sparseSet_ne (fun e => h (by rw [ha, hb, BitVec.eq_of_toNat_eq e])) v m.cells

/-- The byte written is the byte read, at every address that names it. -/
theorem memRead_memWrite_of_eq {m : Memory} (hm : memWf m) {a b : Addr} (hb : mapAddr m.map b = mapAddr m.map a)
    (ha : mapAddr m.map a ≠ none) (v : Byte) : memRead (memWrite m a v) b = v := by
  unfold memRead
  rw [memWrite_map, hb]
  cases hc : mapAddr m.map a with
  | none => exact absurd hc ha
  | some c =>
    simp only [memWrite, hc]
    exact sparseGet_sparseSet_self hm c.toNat v

/-- The byte written is the byte read. -/
theorem memRead_memWrite_self {m : Memory} (hm : memWf m) {a : Addr} (ha : mapAddr m.map a ≠ none) (v : Byte) :
    memRead (memWrite m a v) a = v :=
  memRead_memWrite_of_eq hm rfl ha v

/-- A write keeps memory's canonical form. -/
theorem memWf_memWrite {m : Memory} (hm : memWf m) (a : Addr) (v : Byte) : memWf (memWrite m a v) := by
  unfold memWrite memWf
  dsimp only
  split
  · next c _ => exact sparseWf_sparseSet hm (Nat.zero_le _) c.isLt v
  · exact hm

/-! ### MemMap and regions -/

/-- An address that MemMap does not list names the byte of its own number. -/
theorem mapAddr_of_unlisted {f : MemMap} {a : Addr} (h : ∀ e ∈ f, e.1 ≠ a) : mapAddr f a = some a := by
  induction f with
  | nil => rfl
  | cons e f ih =>
    rw [mapAddr, if_neg (h e (List.mem_cons_self ..))]
    exact ih fun e' he' => h e' (List.mem_cons_of_mem _ he')

/-- `names` finds the addresses that name a byte. -/
theorem names_iff {f : MemMap} {p : Addr → Bool} {c : Addr} :
    names f p c = true ↔ ∃ a, p a = true ∧ mapAddr f a = some c := by
  simp only [names, Bool.or_eq_true, Bool.and_eq_true, decide_eq_true_eq, List.any_eq_true]
  constructor
  · rintro (⟨h1, h2⟩ | ⟨e, -, h1, h2⟩)
    · exact ⟨c, h1, h2⟩
    · exact ⟨e.1, h1, h2⟩
  · rintro ⟨a, h1, h2⟩
    by_cases hl : ∃ e ∈ f, e.1 = a
    · obtain ⟨e, he, rfl⟩ := hl
      exact .inr ⟨e, he, h1, h2⟩
    · push Not at hl
      rw [mapAddr_of_unlisted hl, Option.some.injEq] at h2
      subst h2
      exact .inl ⟨h1, mapAddr_of_unlisted hl⟩

/-- `namedWith` finds the addresses that name the byte of another. -/
theorem namedWith_iff {f : MemMap} {p : Addr → Bool} {a : Addr} :
    namedWith f p a = true ↔ mapAddr f a ≠ none ∧ ∃ b, p b = true ∧ mapAddr f b = mapAddr f a := by
  unfold namedWith
  split
  · next c h => rw [names_iff, h]; simp
  · next h => simp [h]

/-- `inRegion` finds the addresses of a region. -/
theorem inRegion_iff {base len a : BitVec 64} :
    inRegion base len a = true ↔ ∃ k < len.toNat, a = base + BitVec.ofNat 64 k := by
  rw [inRegion, decide_eq_true_eq]
  constructor
  · intro h
    refine ⟨_, h, ?_⟩
    rw [BitVec.ofNat_toNat, BitVec.setWidth_eq, BitVec.add_comm, BitVec.sub_add_cancel]
  · rintro ⟨k, hk, rfl⟩
    have hl := len.isLt
    rw [BitVec.add_comm, BitVec.add_sub_cancel, BitVec.toNat_ofNat]
    omega

/-- A region is mapped where every one of its addresses names a byte. -/
theorem regionMapped_iff {f : MemMap} {base len : BitVec 64} :
    regionMapped f base len = true ↔ ∀ k < len.toNat, mapAddr f (base + BitVec.ofNat 64 k) ≠ none := by
  simp only [regionMapped, List.all_eq_true, Bool.or_eq_true, Bool.not_eq_true']
  constructor
  · intro h k hk
    by_cases hl : ∃ e ∈ f, e.1 = base + BitVec.ofNat 64 k
    · obtain ⟨e, he, e1⟩ := hl
      obtain h1 | h1 := h e he
      · rw [e1, inRegion_iff.mpr ⟨k, hk, rfl⟩] at h1
        cases h1
      · rw [← e1]
        exact Option.isSome_iff_ne_none.mp h1
    · push Not at hl
      rw [mapAddr_of_unlisted hl]
      exact Option.some_ne_none _
  · intro h e _
    cases hr : inRegion base len e.1 with
    | false => exact .inl rfl
    | true =>
      obtain ⟨k, hk, e1⟩ := inRegion_iff.mp hr
      exact .inr (Option.isSome_iff_ne_none.mpr (e1 ▸ h k hk))

/-- `namedApart`: two different addresses, one of each, that name a byte name different ones. -/
theorem namedApart_iff {f : MemMap} {p q : Addr → Bool} :
    namedApart f p q = true ↔
      ∀ a b, p a = true → q b = true → a ≠ b → mapAddr f a = mapAddr f b → mapAddr f a = none := by
  simp only [namedApart, List.all_eq_true, Bool.and_eq_true, Bool.or_eq_true, Bool.not_eq_true',
    Bool.eq_false_iff, ne_eq, namedWith_iff, decide_eq_true_eq]
  constructor
  · intro h a b ha hb hne hm
    by_contra hn
    by_cases hl : ∃ e ∈ f, e.1 = a
    · obtain ⟨e, he, rfl⟩ := hl
      obtain h1 | h1 := (h e he).1
      · exact h1 ha
      · exact h1 ⟨hn, b, ⟨hb, fun e' => hne e'.symm⟩, hm.symm⟩
    by_cases hl' : ∃ e ∈ f, e.1 = b
    · obtain ⟨e, he, rfl⟩ := hl'
      obtain h1 | h1 := (h e he).2
      · exact h1 hb
      · exact h1 ⟨hm ▸ hn, a, ⟨ha, hne⟩, hm⟩
    push Not at hl hl'
    rw [mapAddr_of_unlisted hl, mapAddr_of_unlisted hl', Option.some.injEq] at hm
    exact hne hm
  · intro h e _
    refine ⟨?_, ?_⟩
    · by_cases hp : p e.1 = true
      · refine .inr ?_
        rintro ⟨hn, b, ⟨hb, hne⟩, hm⟩
        exact hn (h _ _ hp hb (fun e' => hne e'.symm) hm.symm)
      · exact .inl hp
    · by_cases hq : q e.1 = true
      · refine .inr ?_
        rintro ⟨hn, b, ⟨hb, hne⟩, hm⟩
        exact hn (hm ▸ h _ _ hb hq hne hm)
      · exact .inl hq

/-- The `n` addresses from `base` name bytes, each its own. -/
structure OwnBytes (f : MemMap) (base : Addr) (n : Nat) : Prop where
  mapped : ∀ k < n, mapAddr f (base + BitVec.ofNat 64 k) ≠ none
  inj : ∀ j < n, ∀ k < n, mapAddr f (base + BitVec.ofNat 64 j) = mapAddr f (base + BitVec.ofNat 64 k) → j = k

/-- No two of those addresses name one byte. -/
theorem OwnBytes.ne {f : MemMap} {base : Addr} {n j k : Nat} (h : OwnBytes f base n) (hj : j < n) (hk : k < n)
    (hne : j ≠ k) : mapAddr f (base + BitVec.ofNat 64 j) ≠ mapAddr f (base + BitVec.ofNat 64 k) :=
  fun e => hne (h.inj j hj k hk e)

/-- A part of a region whose bytes are its own. -/
theorem OwnBytes.part {f : MemMap} {base : Addr} {n : Nat} (h : OwnBytes f base n) {j m : Nat} (hj : j + m ≤ n) :
    OwnBytes f (base + BitVec.ofNat 64 j) m := by
  have e : ∀ k, base + BitVec.ofNat 64 j + BitVec.ofNat 64 k = base + BitVec.ofNat 64 (j + k) := fun k => by
    rw [BitVec.add_assoc, ← BitVec.ofNat_add]
  refine ⟨fun k hk => ?_, fun i hi k hk hik => ?_⟩
  · rw [e]; exact h.mapped _ (by omega)
  · rw [e, e] at hik
    have := h.inj _ (by omega) _ (by omega) hik
    omega

/-- The bytes but the first. -/
theorem OwnBytes.tail {f : MemMap} {base : Addr} {n : Nat} (h : OwnBytes f base (n + 1)) : OwnBytes f (base + 1) n :=
  h.part (j := 1) (by omega)

/-- The first byte's address names a byte. -/
theorem OwnBytes.head {f : MemMap} {base : Addr} {n : Nat} (h : OwnBytes f base (n + 1)) : mapAddr f base ≠ none := by
  simpa using h.mapped 0 (by omega)

/-- Addresses of two regions that fit and are disjoint are different. -/
theorem addr_ne_of_disjoint {a m b n : BitVec 64} (ha : a.toNat + m.toNat ≤ 2 ^ 64) (hb : b.toNat + n.toNat ≤ 2 ^ 64)
    (h : a.toNat + m.toNat ≤ b.toNat ∨ b.toNat + n.toNat ≤ a.toNat) {i j : Nat} (hi : i < m.toNat) (hj : j < n.toNat) :
    a + BitVec.ofNat 64 i ≠ b + BitVec.ofNat 64 j := by
  intro e
  have e' := congrArg BitVec.toNat e
  simp only [BitVec.toNat_add, BitVec.toNat_ofNat] at e'
  omega

/-- Regions that fit and are mapped are apart where their addresses are disjoint, no byte of IN is one of OUT, and OUT's
bytes are its own. -/
theorem regionsApart_iff {f : MemMap} {inBase inLen outBase outLen : BitVec 64}
    (fi : inBase.toNat + inLen.toNat ≤ 2 ^ 64) (fo : outBase.toNat + outLen.toNat ≤ 2 ^ 64)
    (hi : regionMapped f inBase inLen = true) (ho : regionMapped f outBase outLen = true) :
    regionsApart f inBase inLen outBase outLen = true ↔
      (inBase.toNat + inLen.toNat ≤ outBase.toNat ∨ outBase.toNat + outLen.toNat ≤ inBase.toNat) ∧
        (∀ i < inLen.toNat, ∀ j < outLen.toNat,
          mapAddr f (inBase + BitVec.ofNat 64 i) ≠ mapAddr f (outBase + BitVec.ofNat 64 j)) ∧
        OwnBytes f outBase outLen.toNat := by
  simp only [regionsApart, Bool.and_eq_true, Bool.or_eq_true, decide_eq_true_eq, namedApart_iff, and_assoc]
  refine and_congr_right fun hd => and_congr ⟨fun h i hi' j hj hm => ?_, fun h a b ha hb _ hm => ?_⟩
    ⟨fun h => ⟨regionMapped_iff.mp ho, fun j hj k hk hm => ?_⟩, fun h a b ha hb hne hm => ?_⟩
  · exact regionMapped_iff.mp hi i hi' (h _ _ (inRegion_iff.mpr ⟨i, hi', rfl⟩) (inRegion_iff.mpr ⟨j, hj, rfl⟩)
      (addr_ne_of_disjoint fi fo hd hi' hj) hm)
  · obtain ⟨i, hi', rfl⟩ := inRegion_iff.mp ha
    obtain ⟨j, hj, rfl⟩ := inRegion_iff.mp hb
    exact absurd hm (h i hi' j hj)
  · by_contra hne
    refine regionMapped_iff.mp ho j hj
      (h _ _ (inRegion_iff.mpr ⟨j, hj, rfl⟩) (inRegion_iff.mpr ⟨k, hk, rfl⟩) ?_ hm)
    intro e
    have e' := congrArg BitVec.toNat e
    simp only [BitVec.toNat_add, BitVec.toNat_ofNat] at e'
    omega
  · obtain ⟨j, hj, rfl⟩ := inRegion_iff.mp ha
    obtain ⟨k, hk, rfl⟩ := inRegion_iff.mp hb
    have e := h.inj j hj k hk hm
    subst e
    exact absurd rfl hne

/-- Moving bytes leaves MemMap alone. -/
@[simp] theorem copyBytes_map (n : Nat) (src dst : Addr) (m : Memory) : (copyBytes n src dst m).map = m.map := by
  induction n generalizing src dst m with
  | zero => rfl
  | succ n ih => exact ih _ _ _

/-- Storing bytes leaves MemMap alone. -/
@[simp] theorem storeBytes_map (bs : List Byte) (dst : Addr) (m : Memory) : (storeBytes bs dst m).map = m.map := by
  induction bs generalizing dst m with
  | nil => rfl
  | cons b bs ih => exact ih _ _

/-- Giving bytes free values leaves MemMap alone. -/
@[simp] theorem freeBytes_map (n fresh : Nat) (dst : Addr) (m : Memory) : (freeBytes n fresh dst m).map = m.map := by
  induction n generalizing fresh dst m with
  | zero => rfl
  | succ n ih => exact ih _ _ _

/-- Moving bytes keeps memory's canonical form. -/
theorem memWf_copyBytes (n : Nat) (src dst : Addr) {m : Memory} (hm : memWf m) :
    memWf (copyBytes n src dst m) := by
  induction n generalizing src dst m with
  | zero => exact hm
  | succ n ih => exact ih _ _ (memWf_memWrite hm _ _)

/-- Storing bytes keeps memory's canonical form. -/
theorem memWf_storeBytes (bs : List Byte) (dst : Addr) {m : Memory} (hm : memWf m) :
    memWf (storeBytes bs dst m) := by
  induction bs generalizing dst m with
  | nil => exact hm
  | cons b bs ih => exact ih _ (memWf_memWrite hm _ _)

/-- Giving bytes free values keeps memory's canonical form. -/
theorem memWf_freeBytes (n fresh : Nat) (dst : Addr) {m : Memory} (hm : memWf m) :
    memWf (freeBytes n fresh dst m) := by
  induction n generalizing fresh dst m with
  | zero => exact hm
  | succ n ih => exact ih _ _ (memWf_memWrite hm _ _)

/-- The byte after `dst` is the first of those after it. -/
theorem addr_succ (dst : Addr) (k : Nat) : dst + 1 + BitVec.ofNat 64 k = dst + BitVec.ofNat 64 (k + 1) := by
  rw [BitVec.add_assoc, Nat.add_comm k 1, BitVec.ofNat_add]
  rfl

/-- A byte that is none of the `n` from `dst` is not the one at `dst`, and none of the `n - 1` from the next. -/
theorem notIn_succ {f : MemMap} {n : Nat} {dst a : Addr}
    (h : ∀ k < n + 1, mapAddr f a ≠ mapAddr f (dst + BitVec.ofNat 64 k)) :
    mapAddr f a ≠ mapAddr f dst ∧ ∀ k < n, mapAddr f a ≠ mapAddr f (dst + 1 + BitVec.ofNat 64 k) :=
  ⟨by simpa using h 0 (by omega), fun k hk e => h (k + 1) (by omega) (by rw [e, addr_succ])⟩

/-- A move changes only the bytes it moves to. -/
theorem memRead_copyBytes_of_ne (n : Nat) (src dst a : Addr) (m : Memory)
    (h : ∀ k < n, mapAddr m.map a ≠ mapAddr m.map (dst + BitVec.ofNat 64 k)) :
    memRead (copyBytes n src dst m) a = memRead m a := by
  induction n generalizing src dst m with
  | zero => rfl
  | succ n ih =>
    obtain ⟨h0, h1⟩ := notIn_succ h
    rw [copyBytes, ih _ _ _ (by simpa using h1), memRead_memWrite_ne h0]

/-- Storing bytes changes only the bytes stored to. -/
theorem memRead_storeBytes_of_ne (bs : List Byte) (dst a : Addr) (m : Memory)
    (h : ∀ k < bs.length, mapAddr m.map a ≠ mapAddr m.map (dst + BitVec.ofNat 64 k)) :
    memRead (storeBytes bs dst m) a = memRead m a := by
  induction bs generalizing dst m with
  | nil => rfl
  | cons b bs ih =>
    obtain ⟨h0, h1⟩ := notIn_succ h
    rw [storeBytes, ih _ _ (by simpa using h1), memRead_memWrite_ne h0]

/-- Giving bytes free values changes only those bytes. -/
theorem memRead_freeBytes_of_ne (n fresh : Nat) (dst a : Addr) (m : Memory)
    (h : ∀ k < n, mapAddr m.map a ≠ mapAddr m.map (dst + BitVec.ofNat 64 k)) :
    memRead (freeBytes n fresh dst m) a = memRead m a := by
  induction n generalizing fresh dst m with
  | zero => rfl
  | succ n ih =>
    obtain ⟨h0, h1⟩ := notIn_succ h
    rw [freeBytes, ih _ _ _ (by simpa using h1), memRead_memWrite_ne h0]

/-- The address at distance 0. -/
theorem addr_zero (dst : Addr) : dst + BitVec.ofNat 64 0 = dst := by simp

/-- A move to bytes that are their own and none of the source's gives each byte its source. -/
theorem memRead_copyBytes_disjoint (n : Nat) (src dst : Addr) {m : Memory} (hm : memWf m) (ho : OwnBytes m.map dst n)
    (hd : ∀ j < n, ∀ k < n, mapAddr m.map (src + BitVec.ofNat 64 j) ≠ mapAddr m.map (dst + BitVec.ofNat 64 k))
    {k : Nat} (hk : k < n) :
    memRead (copyBytes n src dst m) (dst + BitVec.ofNat 64 k) = memRead m (src + BitVec.ofNat 64 k) := by
  induction n generalizing src dst m k with
  | zero => omega
  | succ n ih =>
    rw [copyBytes]
    cases k with
    | zero =>
      rw [memRead_copyBytes_of_ne, addr_zero, addr_zero, memRead_memWrite_self hm ho.head]
      intro j hj
      rw [addr_succ, memWrite_map]
      exact ho.ne (by omega) (by omega) (by omega)
    | succ k =>
      rw [← addr_succ, ← addr_succ src, ih _ _ (memWf_memWrite hm _ _) (by simpa using ho.tail) _ (by omega),
        memRead_memWrite_ne]
      · rw [addr_succ]
        simpa using hd (k + 1) hk 0 (by omega)
      · intro i hi j hj
        rw [addr_succ, addr_succ, memWrite_map]
        exact hd _ (by omega) _ (by omega)

/-- A move to `off ≥ 1` bytes above its source, overlap and all, in a stretch whose bytes are its own: every byte moved to
reads, after the move, as the byte `off` below it reads after the move (R231). -/
theorem memRead_copyBytes_overlap (n off : Nat) (src : Addr) {m : Memory} (hm : memWf m) (h1 : 1 ≤ off)
    (ho : OwnBytes m.map src (off + n)) {k : Nat} (hk : k < n) :
    memRead (copyBytes n src (src + BitVec.ofNat 64 off) m) (src + BitVec.ofNat 64 (off + k)) =
      memRead (copyBytes n src (src + BitVec.ofNat 64 off) m) (src + BitVec.ofNat 64 k) := by
  induction n generalizing src m k with
  | zero => omega
  | succ n ih =>
    have hdst : src + BitVec.ofNat 64 off + 1 = src + 1 + BitVec.ofNat 64 off := by
      rw [BitVec.add_assoc, BitVec.add_assoc, BitVec.add_comm (BitVec.ofNat 64 off)]
    rw [copyBytes, hdst]
    cases k with
    | zero =>
      rw [memRead_copyBytes_of_ne, memRead_copyBytes_of_ne, Nat.add_zero,
        memRead_memWrite_self hm (ho.mapped off (by omega)), addr_zero, memRead_memWrite_ne]
      · conv_lhs => rw [← addr_zero src]
        exact ho.ne (by omega) (by omega) (by omega)
      · intro j hj
        rw [BitVec.add_assoc (src + 1), ← BitVec.ofNat_add, addr_succ, memWrite_map]
        exact ho.ne (by omega) (by omega) (by omega)
      · intro j hj
        rw [BitVec.add_assoc (src + 1), ← BitVec.ofNat_add, addr_succ, memWrite_map]
        exact ho.ne (by omega) (by omega) (by omega)
    | succ k =>
      rw [← addr_succ src k, show off + (k + 1) = off + k + 1 by omega, ← addr_succ]
      refine ih (src + 1) (memWf_memWrite hm _ _) ?_ (by omega)
      rw [memWrite_map]
      exact (show OwnBytes m.map src (off + n + 1) from ho).tail

/-- Bytes stored where the bytes are their own are the bytes read. -/
theorem memRead_storeBytes (bs : List Byte) (dst : Addr) {m : Memory} (hm : memWf m)
    (ho : OwnBytes m.map dst bs.length) {k : Nat} (hk : k < bs.length) :
    memRead (storeBytes bs dst m) (dst + BitVec.ofNat 64 k) = bs[k] := by
  induction bs generalizing dst m k with
  | nil => simp at hk
  | cons b bs ih =>
    simp only [List.length_cons] at ho hk
    rw [storeBytes]
    cases k with
    | zero =>
      rw [memRead_storeBytes_of_ne, addr_zero, memRead_memWrite_self hm ho.head]
      · rfl
      · intro j hj
        rw [addr_succ, memWrite_map]
        exact ho.ne (by omega) (by omega) (by omega)
    | succ k =>
      rw [← addr_succ, ih _ (memWf_memWrite hm _ _) (by simpa using ho.tail) (by omega)]
      rfl

/-! ### HT -/

/-- A write leaves every other entry alone. -/
theorem htRead_htWrite_ne {g h : Nat} (hne : g ≠ h) (t : List (Nat × BitVec 16)) (v : BitVec 16) :
    htRead (htWrite t h v) g = htRead t g :=
  sparseGet_sparseSet_ne hne v t

/-- The entry written is the entry read. -/
theorem htRead_htWrite_self {t : List (Nat × BitVec 16)} (ht : htWf t) (h : Nat) (v : BitVec 16) :
    htRead (htWrite t h v) h = v :=
  sparseGet_sparseSet_self ht h v

/-- A write of one of the 32768 entries keeps HT's canonical form. -/
theorem htWf_htWrite {t : List (Nat × BitVec 16)} (ht : htWf t) {h : Nat} (hh : h < 2 ^ Config.htMaxBits)
    (v : BitVec 16) : htWf (htWrite t h v) :=
  sparseWf_sparseSet ht (Nat.zero_le _) hh v

/-- Clearing keeps HT's canonical form. -/
theorem htWf_htClear {t : List (Nat × BitVec 16)} (ht : htWf t) (tsize : Nat) : htWf (htClear tsize t) :=
  sparseWf_filter ht _

/-- A cleared entry reads 0 (R41). -/
theorem htRead_htClear_of_lt {tsize h : Nat} (hh : h < tsize) (t : List (Nat × BitVec 16)) :
    htRead (htClear tsize t) h = 0 := by
  induction t with
  | nil => rfl
  | cons e t ih =>
    obtain ⟨k, v⟩ := e
    simp only [htClear, htRead] at ih ⊢
    by_cases hk : tsize ≤ k
    · simp only [List.filter, hk, decide_true, sparseGet]
      rw [if_neg (by omega)]
      exact ih
    · simpa only [List.filter, hk, decide_false] using ih

/-- An entry at or above the cleared ones keeps its value (R41). -/
theorem htRead_htClear_of_le {tsize h : Nat} (hh : tsize ≤ h) (t : List (Nat × BitVec 16)) :
    htRead (htClear tsize t) h = htRead t h := by
  induction t with
  | nil => rfl
  | cons e t ih =>
    obtain ⟨k, v⟩ := e
    simp only [htClear, htRead] at ih ⊢
    by_cases hk : tsize ≤ k
    · simp only [List.filter, hk, decide_true, sparseGet, ih]
    · simp only [List.filter, hk, decide_false, sparseGet]
      rw [if_neg (by omega)]
      exact ih

end Sys2Proof.Machine
end

