-- ==== Sys2Proof/Laws/Encoder.lean ====
section
/-! SUPPORT. Laws/Encoder.lean: sizes and domains of what the encoder emits, and once for each of its passes everything
it can do. -/

namespace Sys2Proof.Machine

/-! ### Sizes -/

/-- A literal's header in its domain: at most one byte, and two more for each full 61 bytes (R189). -/
theorem tagEncLiteral_of_domain {len : Nat} (h1 : 1 ≤ len) (h2 : len ≤ 65536) :
    ∃ bs, tagEncLiteral len = some bs ∧ 1 ≤ bs.length ∧ bs.length ≤ 1 + 2 * (len / 61) := by
  unfold tagEncLiteral
  rw [if_pos ⟨h1, by omega⟩]
  by_cases h : len ≤ 60
  · rw [if_pos h]
    exact ⟨_, rfl, by simp⟩
  · rw [if_neg h]
    refine ⟨_, rfl, by simp, ?_⟩
    simp only [List.length_cons, leBytes_length, extraCount]
    split
    · omega
    · split
      · omega
      · omega

/-- A chunk in its domain. -/
theorem copyChunkBytes_of_domain {offset len : Nat} (ho : offset ≤ 65535) (h1 : 1 ≤ len) (h2 : len ≤ 64) :
    ∃ bs, copyChunkBytes offset len = some bs ∧ bs.length = 3 := by
  unfold copyChunkBytes tagEncCopy2
  rw [if_pos (by omega), if_pos ⟨ho, h1, h2⟩]
  exact ⟨_, rfl, by simp⟩

/-- The chunk loop in its domain: three bytes a started 64. -/
theorem copyChunks_of_domain {offset : Nat} (ho : offset ≤ 65535) (fuel length : Nat) (hf : length / 64 < fuel) :
    ∃ bs, copyChunks offset fuel length = some bs ∧ bs.length = 3 * ((length + 63) / 64) := by
  induction fuel generalizing length with
  | zero => omega
  | succ fuel ih =>
    unfold copyChunks
    simp only [Config.copyChunk]
    by_cases h : length ≥ 64
    · rw [if_pos h]
      obtain ⟨a, ha, hal⟩ := copyChunkBytes_of_domain ho (len := 64) (by omega) (by omega)
      obtain ⟨b, hb, hbl⟩ := ih (length - 64) (by omega)
      rw [ha, hb]
      exact ⟨_, rfl, by rw [List.length_append, hal, hbl]; omega⟩
    · rw [if_neg h]
      by_cases h0 : length > 0
      · rw [if_pos h0]
        obtain ⟨a, ha, hal⟩ := copyChunkBytes_of_domain ho (len := length) (by omega) (by omega)
        exact ⟨a, ha, by omega⟩
      · rw [if_neg h0]
        exact ⟨_, rfl, by simp; omega⟩

/-- A copy in its domain saves at least a byte of the bytes it covers (R189). -/
theorem emitCopyBytes_of_domain {offset length : Nat} (ho : offset ≤ 65535) (hl : 4 ≤ length) :
    ∃ bs, emitCopyBytes offset length = some bs ∧ bs.length + 1 ≤ length := by
  unfold emitCopyBytes
  by_cases h : 4 ≤ length ∧ length ≤ 11 ∧ offset < 2048
  · rw [if_pos h, tagEncCopy1, if_pos (by omega)]
    exact ⟨_, rfl, by simp; omega⟩
  · rw [if_neg h]
    obtain ⟨bs, hb, hbl⟩ := copyChunks_of_domain ho (length / Config.copyChunk + 1) length
      (by simp only [Config.copyChunk]; omega)
    exact ⟨bs, hb, by omega⟩

/-- A varint is one to five bytes (R121). -/
theorem varintBytesFuel_length (fuel v : Nat) : (varintBytesFuel fuel v).length ≤ fuel := by
  induction fuel generalizing v with
  | zero => simp [varintBytesFuel]
  | succ fuel ih =>
    unfold varintBytesFuel
    split
    · simpa using ih (v / 128)
    · simp

/-! ### Emission -/

section

variable {s t : State}

/-- What follows an emission that went through. -/
theorem afterEmit_next {r : Except Fault State} {f : State → Result} (h : afterEmit r f = .next t) :
    ∃ u, r = .ok u ∧ f u = .next t := by
  cases r with
  | ok u => exact ⟨u, rfl, h⟩
  | error e => cases h

/-- One emission after another that both went through. -/
theorem andThen_ok {r : Except Fault State} {f : State → Except Fault State} (h : andThen r f = .ok t) :
    ∃ u, r = .ok u ∧ f u = .ok t := by
  cases r with
  | ok u => exact ⟨u, rfl, h⟩
  | error e => cases h

/-- What an emission leaves but for OUT's bytes: op moved on by `n`. -/
structure Emitted (s : State) (n : Nat) (t : State) : Prop where
  room : s.enc.op.toNat + n ≤ outLenOf s
  eq : t = emitted s n t.mem
  outside : ∀ a, (∀ k < n, mapAddr s.mem.map a ≠ mapAddr s.mem.map (outAddr s (s.enc.op.toNat + k))) →
    memRead t.mem a = memRead s.mem a
  wf : memWf s.mem → memWf t.mem
  map : t.mem.map = s.mem.map

/-- Two addresses of OUT a distance apart. -/
theorem outAddr_add (s : State) (j k : Nat) : outAddr s (j + k) = outAddr s j + BitVec.ofNat 64 k := by
  simp only [outAddr]
  rw [BitVec.ofNat_add, BitVec.add_assoc]

/-- op after `n` more bytes, in the room there is. -/
theorem op_add_toNat {op : Word} {n m : Nat} (h : op.toNat + n ≤ m) (hm : m < 2 ^ 64) :
    (op + BitVec.ofNat 64 n).toNat = op.toNat + n := by
  simp only [BitVec.toNat_add, BitVec.toNat_ofNat]
  omega

/-- op of the state an emission leaves. -/
theorem Emitted.op {n : Nat} (h : Emitted s n t) : t.enc.op.toNat = s.enc.op.toNat + n := by
  have hr := h.room
  have hl : outLenOf s < 2 ^ 64 := s.latch.outLen.isLt
  rw [h.eq]
  exact op_add_toNat hr hl

/-- An emission touches the encoder's op and memory alone. -/
theorem Emitted.latch {n : Nat} (h : Emitted s n t) : t.latch = s.latch := by rw [h.eq]; rfl

/-- Two emissions in a row are one. -/
theorem Emitted.trans {n m : Nat} {u : State} (h1 : Emitted s n t) (h2 : Emitted t m u) : Emitted s (n + m) u := by
  have hop := h1.op
  have hl := h1.latch
  have hlen : outLenOf t = outLenOf s := by simp only [outLenOf, hl]
  have haddr : ∀ j, outAddr t j = outAddr s j := fun j => by simp only [outAddr, hl]
  refine ⟨?_, ?_, ?_, fun hw => h2.wf (h1.wf hw), h2.map.trans h1.map⟩
  · have := h2.room; omega
  · conv_lhs => rw [h2.eq, h1.eq]
    simp only [emitted, setEnc, setMem, State.mk.injEq, EncRegs.mk.injEq, true_and, and_true]
    rw [BitVec.add_assoc, ← BitVec.ofNat_add]
  · intro a ha
    rw [h2.outside a, h1.outside a]
    · exact fun k hk => ha k (by omega)
    · intro k hk
      rw [haddr, hop, Nat.add_assoc, h1.map]
      exact ha (n + k) (by omega)

/-- No emission at all. -/
theorem Emitted.refl (h : s.enc.op.toNat ≤ outLenOf s) : Emitted s 0 s :=
  ⟨by simpa using h, by simp [emitted, setEnc, setMem], fun _ _ => rfl, id, rfl⟩

/-- `emit` of bytes there is room for. -/
theorem emitBytes_ok {bs : List Byte} (h : emitBytes bs s = .ok t) : Emitted s bs.length t := by
  unfold emitBytes at h
  split at h
  · next hr =>
    injection h with h
    subst h
    refine ⟨by simpa [emitRoom] using hr, rfl, fun a ha => memRead_storeBytes_of_ne _ _ _ _ ?_,
      fun hw => memWf_storeBytes _ _ hw, storeBytes_map _ _ _⟩
    exact fun k hk => by rw [← outAddr_add]; exact ha k hk
  · cases h

/-- There is room. -/
theorem emitBytes_of_room {bs : List Byte} (h : s.enc.op.toNat + bs.length ≤ outLenOf s) :
    ∃ t, emitBytes bs s = .ok t := by
  unfold emitBytes
  rw [if_pos (by simpa [emitRoom] using h)]
  exact ⟨_, rfl⟩

/-- OUT's bytes are its own: what a command that writes OUT was started with (R64). -/
abbrev ownsOut (s : State) : Prop := OwnBytes s.mem.map s.latch.outBase (outLenOf s)

/-- The bytes `emit` wrote read back. -/
theorem emitBytes_bytes {bs : List Byte} (h : emitBytes bs s = .ok t) (hm : memWf s.mem) (ho : ownsOut s) {k : Nat}
    (hk : k < bs.length) : outByte t (s.enc.op.toNat + k) = bs[k] := by
  have hr := (emitBytes_ok h).room
  have hl : outLenOf s < 2 ^ 64 := s.latch.outLen.isLt
  unfold emitBytes at h
  split at h
  · injection h with h
    subst h
    have e : outAddr (emitted s bs.length (storeBytes bs (outAddr s s.enc.op.toNat) s.mem)) (s.enc.op.toNat + k) =
        outAddr s s.enc.op.toNat + BitVec.ofNat 64 k := outAddr_add s _ _
    rw [outByte, e]
    exact memRead_storeBytes bs _ hm (ho.part hr) hk
  · cases h

/-- `emit` of input bytes there is room for. -/
theorem emitInput_ok {src len : Nat} (h : emitInput src len s = .ok t) : Emitted s len t := by
  unfold emitInput at h
  split at h
  · next hr =>
    injection h with h
    subst h
    refine ⟨by simpa [emitRoom] using hr, rfl, fun a ha => memRead_copyBytes_of_ne _ _ _ _ _ ?_,
      fun hw => memWf_copyBytes _ _ _ hw, copyBytes_map _ _ _ _⟩
    exact fun k hk => by rw [← outAddr_add]; exact ha k hk
  · cases h

/-- The input bytes `emit` wrote are IN's, where the regions are disjoint. -/
theorem emitInput_bytes {src len : Nat} (h : emitInput src len s = .ok t) (hm : memWf s.mem)
    (ho : ownsOut s)
    (hd : ∀ i < len, ∀ j < outLenOf s, mapAddr s.mem.map (inAddr s (src + i)) ≠ mapAddr s.mem.map (outAddr s j)) {k : Nat} (hk : k < len) :
    outByte t (s.enc.op.toNat + k) = inByte s (src + k) := by
  have hr := (emitInput_ok h).room
  have hl : outLenOf s < 2 ^ 64 := s.latch.outLen.isLt
  have hin : ∀ j, inAddr s src + BitVec.ofNat 64 j = inAddr s (src + j) := fun j => by
    simp only [inAddr]
    rw [BitVec.ofNat_add, BitVec.add_assoc]
  unfold emitInput at h
  split at h
  · injection h with h
    subst h
    have e : outAddr (emitted s len (copyBytes len (inAddr s src) (outAddr s s.enc.op.toNat) s.mem))
        (s.enc.op.toNat + k) = outAddr s s.enc.op.toNat + BitVec.ofNat 64 k := outAddr_add s _ _
    rw [outByte, e]
    refine (memRead_copyBytes_disjoint len _ _ hm (ho.part hr) ?_ hk).trans ?_
    · intro i hi j hj
      have hij := hd i hi (s.enc.op.toNat + j) (by omega)
      rw [outAddr_add] at hij
      rwa [hin]
    · rw [hin]
      rfl
  · cases h

/-- There is room. -/
theorem emitInput_of_room {src len : Nat} (h : s.enc.op.toNat + len ≤ outLenOf s) :
    ∃ t, emitInput src len s = .ok t := by
  unfold emitInput
  rw [if_pos (by simpa [emitRoom] using h)]
  exact ⟨_, rfl⟩

/-- EMIT_LITERAL writes its header and its bytes (R187). -/
theorem emitLiteral_ok {src len : Nat} (h : emitLiteral src len s = .ok t) :
    ∃ bs, tagEncLiteral len = some bs ∧ Emitted s (bs.length + len) t := by
  unfold emitLiteral at h
  split at h
  · next bs hb =>
    refine ⟨bs, hb, ?_⟩
    unfold andThen at h
    split at h
    · next u hu => exact (emitBytes_ok hu).trans (emitInput_ok h)
    · cases h
  · cases h

/-- EMIT_LITERAL in its domain, with room for what it writes. -/
theorem emitLiteral_of_room {src len : Nat} (h1 : 1 ≤ len) (h2 : len ≤ 65536)
    (hr : s.enc.op.toNat + (1 + 2 * (len / 61) + len) ≤ outLenOf s) : ∃ t, emitLiteral src len s = .ok t := by
  obtain ⟨bs, hb, -, hl⟩ := tagEncLiteral_of_domain h1 h2
  obtain ⟨u, hu⟩ := emitBytes_of_room (s := s) (bs := bs) (by omega)
  have hop := (emitBytes_ok hu).op
  have hlatch := (emitBytes_ok hu).latch
  obtain ⟨t, ht⟩ := emitInput_of_room (s := u) (src := src) (len := len)
    (by simp only [outLenOf, hlatch] at hr ⊢; omega)
  exact ⟨t, by rw [emitLiteral, hb]; dsimp only; rw [hu]; exact ht⟩

/-- EMIT_LITERAL's bytes: its header, and then IN's, where the regions are disjoint. -/
theorem emitLiteral_bytes {src len : Nat} (h : emitLiteral src len s = .ok t) (hm : memWf s.mem)
    (ho : ownsOut s)
    (hd : ∀ i < len, ∀ j < outLenOf s, mapAddr s.mem.map (inAddr s (src + i)) ≠ mapAddr s.mem.map (outAddr s j)) :
    ∃ header, tagEncLiteral len = some header ∧ Emitted s (header.length + len) t ∧
      (∀ k (hk : k < header.length), outByte t (s.enc.op.toNat + k) = header[k]) ∧
      ∀ k < len, outByte t (s.enc.op.toNat + header.length + k) = inByte s (src + k) := by
  obtain ⟨bs, hbs, hem⟩ := emitLiteral_ok h
  refine ⟨bs, hbs, hem, ?_⟩
  unfold emitLiteral at h
  rw [hbs] at h
  obtain ⟨v, hv, hu⟩ := andThen_ok h
  have e1 := emitBytes_ok hv
  have e2 := emitInput_ok hu
  have hop := e1.op
  have hlt : outLenOf s < 2 ^ 64 := s.latch.outLen.isLt
  have hr1 := e1.room
  have hr2 := e2.room
  have hlen : outLenOf v = outLenOf s := by simp only [outLenOf, e1.latch]
  have hin : ∀ j, inAddr v j = inAddr s j := fun j => by simp only [inAddr, e1.latch]
  have hout : ∀ j, outAddr v j = outAddr s j := fun j => by simp only [outAddr, e1.latch]
  refine ⟨fun k hk => ?_, fun k hk => ?_⟩
  · rw [← emitBytes_bytes hv hm ho hk, outByte, outByte,
      show outAddr t (s.enc.op.toNat + k) = outAddr v (s.enc.op.toNat + k) by simp only [outAddr, e2.latch]]
    refine e2.outside _ fun j hj => ?_
    rw [hop, hout, hout, e1.map]
    exact ho.ne (by omega) (by omega) (by omega)
  · have hb := emitInput_bytes hu (e1.wf hm) (by rw [ownsOut, e1.map, hlen, e1.latch]; exact ho)
      (fun i hi j hj => by rw [hin, hout, e1.map]; exact hd i hi j (by omega)) hk
    rw [hop] at hb
    rw [hb, inByte, inByte, hin]
    exact e1.outside _ fun j hj => hd k hk _ (by omega)

/-- EMIT_COPY writes its bytes (R186). -/
theorem emitCopy_ok {offset length : Nat} (h : emitCopy offset length s = .ok t) :
    ∃ bs, emitCopyBytes offset length = some bs ∧ Emitted s bs.length t := by
  unfold emitCopy at h
  split at h
  · next bs hb => exact ⟨bs, hb, emitBytes_ok h⟩
  · cases h

/-! ### Passes -/

/-- The fragment loop's head starts a fragment or ends the command (R173). -/
theorem fragmentStep_next (h : fragmentStep s = .next t) :
    (s.enc.base.toNat < s.enc.n.toNat ∧
        t = fragmentInit (min Config.fragSize (s.enc.n.toNat - s.enc.base.toNat)) s) ∨
      (s.enc.n.toNat ≤ s.enc.base.toNat ∧ t = complete .none 0#1 s.enc.op s) := by
  unfold fragmentStep at h
  split at h
  · next hb => cases h; exact .inl ⟨hb, rfl⟩
  · next hb => cases h; exact .inr ⟨by omega, rfl⟩

/-- One pass of the probe loop: a match, a skip, or the tail (R178). -/
theorem probeStep_next (h : probeStep s = .next t) :
    (probeGoes s ∧ matchOk (probe s) ∧
        ∃ u v, emitPending (probe s) = .ok u ∧
          emitCopy ((probe s).enc.ip.toNat - (probe s).enc.candidate.toNat) (matchLen (probe s)) u = .ok v ∧
          t = insertBehind (advance (matchLen (probe s)) v)) ∨
      (probeGoes s ∧ matchOk (probe s) = false ∧ t = skipStep (probe s)) ∨
      (probeGoes s = false ∧ ∃ u, emitTail s = .ok u ∧ t = endFragment u) := by
  unfold probeStep at h
  split at h
  · next hg =>
    split at h
    · next hm =>
      obtain ⟨v, hv, h⟩ := afterEmit_next h
      obtain ⟨u, hu, hv⟩ := andThen_ok hv
      cases h
      exact .inl ⟨hg, hm, u, v, hu, hv, rfl⟩
    · next hm => cases h; exact .inr (.inl ⟨hg, by simpa using hm, rfl⟩)
  · next hg =>
    obtain ⟨u, hu, h⟩ := afterEmit_next h
    cases h
    exact .inr (.inr ⟨by simpa using hg, u, hu, rfl⟩)

/-- COMPRESS's rule after its start raises one of two errors, or writes the varint and enters the fragment loop
(R172, R173). -/
theorem runCompress_next (h : runCompress s = .next t) :
    (inLenOf s > Config.maxInput ∧ t = complete .inputTooLarge 0#1 0 (takeLength s)) ∨
      (inLenOf s ≤ Config.maxInput ∧ outLenOf s < Config.maxCompressedLength (inLenOf s) ∧
        t = complete .insufficientBuffer 0#1 0 (takeLength s)) ∨
      (inLenOf s ≤ Config.maxInput ∧ Config.maxCompressedLength (inLenOf s) ≤ outLenOf s ∧
        Emitted (encoderStart s) (varintBytes (s.latch.inLen.setWidth 32)).length t) := by
  unfold runCompress at h
  split at h
  · next h1 => cases h; exact .inl ⟨h1, rfl⟩
  · next h1 =>
    split at h
    · next h2 => cases h; exact .inr (.inl ⟨by omega, h2, rfl⟩)
    · next h2 =>
      obtain ⟨u, hu, h⟩ := afterEmit_next h
      cases h
      exact .inr (.inr ⟨by omega, by omega, emitBytes_ok hu⟩)

/-- COMPRESS of an input that is too large (R172). -/
theorem runCompress_tooLarge (h : Config.maxInput < inLenOf s) :
    runCompress s = raise .inputTooLarge (takeLength s) := by
  unfold runCompress
  rw [if_pos h]

/-- COMPRESS into a buffer that is too small (R172). -/
theorem runCompress_insufficient (h1 : inLenOf s ≤ Config.maxInput)
    (h2 : outLenOf s < Config.maxCompressedLength (inLenOf s)) :
    runCompress s = raise .insufficientBuffer (takeLength s) := by
  unfold runCompress
  rw [if_neg (Nat.not_lt.mpr h1), if_pos h2]

/-- COMPRESS whose checks pass writes the varint and enters its fragment loop (R173). -/
theorem runCompress_starts (h1 : inLenOf s ≤ Config.maxInput)
    (h2 : Config.maxCompressedLength (inLenOf s) ≤ outLenOf s) :
    runCompress s = .next (emitted (encoderStart s) (varintBytes (s.latch.inLen.setWidth 32)).length
      (storeBytes (varintBytes (s.latch.inLen.setWidth 32)) (outAddr s 0) s.mem)) := by
  have hl : (varintBytes (s.latch.inLen.setWidth 32)).length ≤ 5 := varintBytesFuel_length 5 _
  have hroom : emitRoom (encoderStart s) (varintBytes (s.latch.inLen.setWidth 32)).length = true := by
    have h3 : 32 ≤ Config.maxCompressedLength (inLenOf s) := by unfold Config.maxCompressedLength; omega
    have h4 : outLenOf (encoderStart s) = outLenOf s := rfl
    have h5 : (encoderStart s).enc.op.toNat = 0 := rfl
    rw [emitRoom, decide_eq_true_eq]
    omega
  unfold runCompress emitBytes
  rw [if_neg (Nat.not_lt.mpr h1), if_neg (Nat.not_lt.mpr h2), if_pos hroom]
  rfl

/-- The extension stays inside the fragment (R182). -/
theorem extendMatch_le (fuel k : Nat) (hk : s.enc.ip.toNat + 4 + k ≤ s.enc.len.toNat) :
    s.enc.ip.toNat + 4 + extendMatch s fuel k ≤ s.enc.len.toNat := by
  induction fuel generalizing k with
  | zero => exact hk
  | succ fuel ih =>
    unfold extendMatch
    split
    · next h => exact ih (k + 1) (by omega)
    · exact hk

/-- The extension's bytes match, and it stops at the fragment's end or where they do not (R182). -/
theorem extendMatch_spec (fuel k : Nat) (hf : s.enc.len.toNat < s.enc.ip.toNat + 4 + k + fuel) :
    (∀ j, k ≤ j → j < extendMatch s fuel k →
        inByte s (fragPos s (s.enc.ip.toNat + 4 + j)) = inByte s (fragPos s (s.enc.candidate.toNat + 4 + j))) ∧
      (s.enc.ip.toNat + 4 + extendMatch s fuel k < s.enc.len.toNat →
        inByte s (fragPos s (s.enc.ip.toNat + 4 + extendMatch s fuel k)) ≠
          inByte s (fragPos s (s.enc.candidate.toNat + 4 + extendMatch s fuel k))) := by
  induction fuel generalizing k with
  | zero => exact ⟨fun j h1 h2 => by simp only [extendMatch] at h2; omega, fun h => by simp only [extendMatch] at h; omega⟩
  | succ fuel ih =>
    rw [extendMatch]
    split
    · next hc =>
      obtain ⟨h1, h2⟩ := ih (k + 1) (by omega)
      refine ⟨fun j hj hl => ?_, h2⟩
      by_cases e : j = k
      · rw [e]; exact hc.2
      · exact h1 j (by omega) hl
    · next hc => exact ⟨fun j h1 h2 => by omega, fun h e => hc ⟨h, e⟩⟩

/-- Equal loads are equal bytes (R67). -/
theorem load32_inj {i j : Nat} (h : load32 s i = load32 s j) : ∀ k < 4, inByte s (i + k) = inByte s (j + k) := by
  have h' := congrArg BitVec.toNat h
  simp only [load32, leNat, BitVec.toNat_ofNat] at h'
  have hb : ∀ a, (inByte s a).toNat < 256 := fun a => (inByte s a).isLt
  have a0 := hb i
  have a1 := hb (i + 1)
  have a2 := hb (i + 2)
  have a3 := hb (i + 3)
  have b0 := hb j
  have b1 := hb (j + 1)
  have b2 := hb (j + 2)
  have b3 := hb (j + 3)
  intro k hk
  apply BitVec.eq_of_toNat_eq
  obtain rfl | rfl | rfl | rfl : k = 0 ∨ k = 1 ∨ k = 2 ∨ k = 3 := by omega
  · rw [Nat.add_zero, Nat.add_zero]; omega
  · omega
  · omega
  · omega

/-- A match in a fragment that is still probed ends inside it (R182). -/
theorem matchLen_le (h : probeGoes s = true) :
    4 ≤ matchLen s ∧ s.enc.ip.toNat + matchLen s ≤ s.enc.len.toNat := by
  have h' : s.enc.ip.toNat + 15 < s.enc.len.toNat := by simpa [probeGoes, Config.inputMargin] using h
  have := extendMatch_le (s := s) s.enc.len.toNat 0 (by omega)
  unfold matchLen
  omega

end

end Sys2Proof.Machine
end

