-- ==== Sys2Proof/Laws/Stream.lean ====
section
/-! SUPPORT. Laws/Stream.lean: once for each operation the stream's instructions share, everything it can do. -/

namespace Sys2Proof.Machine

section

variable {s t : State} {m len offset : Nat}

@[simp] theorem operandTaken_latch : (operandTaken s m).latch = s.latch := rfl
@[simp] theorem operandTaken_mem : (operandTaken s m).mem = s.mem := rfl
@[simp] theorem operandTaken_op : (operandTaken s m).dec.op = s.dec.op := rfl
@[simp] theorem operandTaken_L : (operandTaken s m).dec.L = s.dec.L := rfl
@[simp] theorem operandTaken_ip : (operandTaken s m).dec.ip = s.dec.ip + BitVec.ofNat 64 m := rfl

/-- LITERAL_BODY: the move and both advances, or CorruptedData. -/
theorem literalBody_next (h : literalBody len s = .next t) :
    (available s len ∧ fitsOutput s len ∧ opRoom s len ∧
        t = setDec (setMem s (literalMoved s len)) (afterLiteral s.dec len)) ∨
      ((available s len && fitsOutput s len) = false ∧ t = complete .corruptedData 0#1 0 (setDec s (heldLength s.dec len))) := by
  unfold literalBody at h
  split at h
  · next h1 =>
    split at h
    · next h2 =>
      split at h
      · next h3 => cases h; exact .inl ⟨h1, h2, h3, rfl⟩
      · cases h
    · next h2 => cases h; exact .inr ⟨by simp [h2], rfl⟩
  · next h1 => cases h; exact .inr ⟨by simp [h1], rfl⟩

/-- V_LITERAL_BODY: both advances, or ILLEGAL. -/
theorem shadowLiteralBody_next (h : shadowLiteralBody len s = .next t) :
    (available s len ∧ fitsOutput s len ∧ t = setDec s (skipLiteral s.dec len)) ∨
      ((available s len && fitsOutput s len) = false ∧ t = complete .none 0#1 0 (setDec s (heldLength s.dec len))) := by
  unfold shadowLiteralBody at h
  split at h
  · next h1 =>
    split at h
    · next h2 => cases h; exact .inl ⟨h1, h2, rfl⟩
    · next h2 => cases h; exact .inr ⟨by simp [h2], rfl⟩
  · next h1 => cases h; exact .inr ⟨by simp [h1], rfl⟩

/-- COPY_BODY: the move and op's advance, or CorruptedData. -/
theorem copyBody_next (h : copyBody offset len s = .next t) :
    (offsetOk s offset ∧ fitsOutput s len ∧ opRoom s len ∧
        t = setDec (setMem s (copyMoved s offset len)) (afterCopy s.dec offset len)) ∨
      ((offsetOk s offset && fitsOutput s len) = false ∧ t = complete .corruptedData 0#1 0 (setDec s (heldCopy s.dec offset len))) := by
  unfold copyBody at h
  split at h
  · next h1 =>
    split at h
    · next h2 =>
      split at h
      · next h3 => cases h; exact .inl ⟨h1, h2, h3, rfl⟩
      · cases h
    · next h2 => cases h; exact .inr ⟨by simp [h2], rfl⟩
  · next h1 => cases h; exact .inr ⟨by simp [h1], rfl⟩

/-- V_COPY_BODY: op's advance, or ILLEGAL. -/
theorem shadowCopyBody_next (h : shadowCopyBody offset len s = .next t) :
    (offsetOk s offset ∧ fitsOutput s len ∧ t = setDec s (skipCopy s.dec offset len)) ∨
      ((offsetOk s offset && fitsOutput s len) = false ∧ t = complete .none 0#1 0 (setDec s (heldCopy s.dec offset len))) := by
  unfold shadowCopyBody at h
  split at h
  · next h1 =>
    split at h
    · next h2 => cases h; exact .inl ⟨h1, h2, rfl⟩
    · next h2 => cases h; exact .inr ⟨by simp [h2], rfl⟩
  · next h1 => cases h; exact .inr ⟨by simp [h1], rfl⟩

/-- A stream operation runs under DECOMPRESS by its rule or under VALIDATE by its shadow, and nowhere else. -/
theorem withStream_next {decoder shadow : State → Result} (h : withStream decoder shadow s = .next t) :
    opsRunning s ∧
      ((s.latch.opcode = opDecompress ∧ decoder s = .next t) ∨ (s.latch.opcode = opValidate ∧ shadow s = .next t)) := by
  unfold withStream at h
  split at h
  · next h1 =>
    refine ⟨h1, ?_⟩
    split at h
    · next h2 => exact .inl ⟨h2, h⟩
    · split at h
      · next h3 => exact .inr ⟨h3, h⟩
      · cases h
  · cases h

/-- Under DECOMPRESS the decoder's rule runs. -/
theorem withStream_decompress {decoder shadow : State → Result} (h : opsRunning s)
    (ho : s.latch.opcode = opDecompress) : withStream decoder shadow s = decoder s := by
  simp [withStream, h, ho]

/-- Under VALIDATE the shadow runs. -/
theorem withStream_validate {decoder shadow : State → Result} (h : opsRunning s)
    (ho : s.latch.opcode = opValidate) : withStream decoder shadow s = shadow s := by
  simp [withStream, h, ho, opValidate, opDecompress]

/-- The operand bytes are there and are taken, or the operation fails before reading them (R224). -/
theorem decoderOperand_next {body : State → Result} (h : decoderOperand m body s = .next t) :
    (available s m ∧ body (operandTaken s m) = .next t) ∨
      (available s m = false ∧ t = complete .corruptedData 0#1 0 s) := by
  unfold decoderOperand at h
  split at h
  · next h1 => exact .inl ⟨h1, h⟩
  · next h1 => cases h; exact .inr ⟨by simpa using h1, rfl⟩

/-- The shadow of `decoderOperand_next` (R261). -/
theorem shadowOperand_next {body : State → Result} (h : shadowOperand m body s = .next t) :
    (available s m ∧ body (operandTaken s m) = .next t) ∨
      (available s m = false ∧ t = complete .none 0#1 0 s) := by
  unfold shadowOperand at h
  split at h
  · next h1 => exact .inl ⟨h1, h⟩
  · next h1 => cases h; exact .inr ⟨by simpa using h1, rfl⟩

/-- The state a literal starts its body from, `s'`, and what it does: it moves (DECOMPRESS), it skips (VALIDATE), or
it ends the command. -/
theorem literalOp_next (h : literalOp m len s = .next t) :
    opsRunning s ∧
      ((available s m ∧ s.latch.opcode = opDecompress ∧ available (operandTaken s m) len ∧ fitsOutput s len ∧
          opRoom s len ∧
          t = setDec (setMem s (literalMoved (operandTaken s m) len)) (afterLiteral (operandTaken s m).dec len)) ∨
        (available s m ∧ s.latch.opcode = opValidate ∧ available (operandTaken s m) len ∧ fitsOutput s len ∧
          t = setDec s (skipLiteral (operandTaken s m).dec len)) ∨
        ∃ d err, t = complete err 0#1 0 (setDec s d)) := by
  obtain ⟨hr, ⟨ho, h⟩ | ⟨ho, h⟩⟩ := withStream_next h
  · refine ⟨hr, ?_⟩
    obtain ⟨ha, h⟩ | ⟨-, rfl⟩ := decoderOperand_next h
    · obtain ⟨h1, h2, h3, rfl⟩ | ⟨-, rfl⟩ := literalBody_next h
      · exact .inl ⟨ha, ho, h1, h2, h3, rfl⟩
      · exact .inr (.inr ⟨_, _, rfl⟩)
    · exact .inr (.inr ⟨s.dec, _, rfl⟩)
  · refine ⟨hr, ?_⟩
    obtain ⟨ha, h⟩ | ⟨-, rfl⟩ := shadowOperand_next h
    · obtain ⟨h1, h2, rfl⟩ | ⟨-, rfl⟩ := shadowLiteralBody_next h
      · exact .inr (.inl ⟨ha, ho, h1, h2, rfl⟩)
      · exact .inr (.inr ⟨_, _, rfl⟩)
    · exact .inr (.inr ⟨s.dec, _, rfl⟩)

/-- What a copy does: it moves (DECOMPRESS), it advances op (VALIDATE), or it ends the command. -/
theorem copyOp_next (h : copyOp m offset len s = .next t) :
    opsRunning s ∧
      ((available s m ∧ s.latch.opcode = opDecompress ∧ offsetOk s offset ∧ fitsOutput s len ∧ opRoom s len ∧
          t = setDec (setMem s (copyMoved s offset len)) (afterCopy (operandTaken s m).dec offset len)) ∨
        (available s m ∧ s.latch.opcode = opValidate ∧ offsetOk s offset ∧ fitsOutput s len ∧
          t = setDec s (skipCopy (operandTaken s m).dec offset len)) ∨
        ∃ d err, t = complete err 0#1 0 (setDec s d)) := by
  obtain ⟨hr, ⟨ho, h⟩ | ⟨ho, h⟩⟩ := withStream_next h
  · refine ⟨hr, ?_⟩
    obtain ⟨ha, h⟩ | ⟨-, rfl⟩ := decoderOperand_next h
    · obtain ⟨h1, h2, h3, rfl⟩ | ⟨-, rfl⟩ := copyBody_next h
      · exact .inl ⟨ha, ho, h1, h2, h3, rfl⟩
      · exact .inr (.inr ⟨_, _, rfl⟩)
    · exact .inr (.inr ⟨s.dec, _, rfl⟩)
  · refine ⟨hr, ?_⟩
    obtain ⟨ha, h⟩ | ⟨-, rfl⟩ := shadowOperand_next h
    · obtain ⟨h1, h2, rfl⟩ | ⟨-, rfl⟩ := shadowCopyBody_next h
      · exact .inr (.inl ⟨ha, ho, h1, h2, rfl⟩)
      · exact .inr (.inr ⟨_, _, rfl⟩)
    · exact .inr (.inr ⟨s.dec, _, rfl⟩)

/-- The loop's exit always ends the command (R235, R236, R272). -/
theorem endOfStream_next (h : endOfStream s = .next t) :
    opsRunning s ∧ ∃ err valid r, (err = .none ∨ valid = 0#1) ∧ t = complete err valid r s := by
  obtain ⟨hr, ⟨-, h⟩ | ⟨-, h⟩⟩ := withStream_next h
  all_goals
    refine ⟨hr, ?_⟩
    split at h <;> cases h
    · exact ⟨.none, _, _, .inl rfl, rfl⟩
    · exact ⟨_, 0#1, _, .inr rfl, rfl⟩

end

end Sys2Proof.Machine
end

