-- ==== Sys2Proof/Laws/Step.lean ====
section
/-! SUPPORT. Laws/Step.lean: once for step, everything it can do, so that no proof unfolds it again. -/

namespace Sys2Proof.Machine

/-- What a step's work comes to. -/
def workOutcome : Work → Result
  | .run i s => exec i s
  | .finish r => r

/-- A step is the outcome of its work. -/
theorem step_eq (s : State) : step s = workOutcome (nextWork s) := by
  unfold step workOutcome
  cases nextWork s <;> rfl

/-- The core's turn as an outcome. -/
def coreOutcome (s : State) : Result := workOutcome (coreWork s)

/-- A host action as an outcome. -/
def hostOutcome (a : HostAction) (s : State) : Result := workOutcome (hostWork a s)

/-- With nothing for the host to do, a step is the core's turn. -/
theorem step_of_coreTurn {s : State} (h : s.host = []) : step s = coreOutcome s := by
  rw [step_eq, nextWork, h]
  rfl

/-- With an action of the host first, a step is that action, on the state without it. -/
theorem step_of_action {s : State} {a : HostAction} {rest : List HostAction} (h : s.host = a :: rest) :
    step s = hostOutcome a (setHost s rest) := by
  rw [step_eq, nextWork, h]
  rfl

/-- A step is the core's turn or an action of the host. -/
theorem step_cases (s : State) :
    (s.host = [] ∧ step s = coreOutcome s) ∨
      ∃ a rest, s.host = a :: rest ∧ step s = hostOutcome a (setHost s rest) := by
  cases h : s.host with
  | nil => exact .inl ⟨rfl, step_of_coreTurn h⟩
  | cons a rest => exact .inr ⟨a, rest, rfl, step_of_action h⟩

section

variable {s t : State} {i : Instr}

/-! ### Fetching -/

/-- Every tag followed by its operand bytes decodes, and leaves the bytes after them (R90, R91, R93). -/
theorem decodeTag_of_length (tag : Byte) (bs : List Byte) (h : operandCount tag ≤ bs.length) :
    ∃ i, decodeTag tag bs = .ok (i, bs.drop (operandCount tag)) := by
  unfold operandCount at h ⊢
  unfold decodeTag
  repeat' split
  all_goals first
    | exact ⟨_, rfl⟩
    | (rename_i hs
       simp only [*, if_true, if_false] at h
       obtain ⟨v, hv⟩ := withOperand_of_length _ _ bs h
       exact ⟨_, hv⟩)

/-- Every fetch of the operation loop decodes. -/
theorem fetch_decodes (s : State) : ∃ i rest, decode .stream (fetchBytes s) = .ok (i, rest) := by
  obtain ⟨i, hi⟩ := decodeTag_of_length (inByte s s.dec.ip.toNat)
    ((List.range (operandCount (inByte s s.dec.ip.toNat))).map (fun j => streamByte s (s.dec.ip.toNat + 1 + j)))
    (by simp)
  exact ⟨i, _, hi⟩

/-- What the stream's decoder gives is a stream operation. -/
theorem contextOf_decode_stream {bs rest : List Byte} (h : decode .stream bs = .ok (i, rest)) :
    contextOf i = .stream := by
  cases bs with
  | nil => cases h
  | cons tag bs =>
    simp only [decode, decodeTag] at h
    repeat' split at h
    all_goals first
      | (obtain ⟨v, -, rfl, -⟩ := withOperand_ok h; rfl)
      | (injection h with h; injection h with h; subst h; rfl)

/-- What the varint's decoder gives is one of its two bytes. -/
theorem decodeVarintByte_cases (b : Byte) :
    ∃ g, decodeVarintByte b = .varintMore g ∨ decodeVarintByte b = .varintLast g := by
  unfold decodeVarintByte
  split
  · exact ⟨_, .inl rfl⟩
  · exact ⟨_, .inr rfl⟩

/-- What a CMD value starts is a command with a legal LEVEL. -/
theorem contextOf_commandOf {v : BitVec 64} (h : commandOf v = some i) : contextOf i = .command := by
  unfold commandOf at h
  split at h
  · next j rest hj =>
    cases h
    simp only [decode] at hj
    split at hj
    · cases hj
    · split at hj
      · next k hk =>
        injection hj with hj
        injection hj with hj
        subst hj
        unfold decodeCommand at hk
        repeat' split at hk
        all_goals first
          | (injection hk with hk; subst hk; rfl)
          | cases hk
      · cases hj
  · cases h

/-! ### The kinds of meaning -/

/-- A stream operation is a literal or a copy, of at least one byte. -/
theorem exec_stream (h : contextOf i = .stream) :
    (∃ m len, 1 ≤ len ∧ ∀ s, exec i s = literalOp m len s) ∨
      ∃ m offset len, 1 ≤ len ∧ ∀ s, exec i s = copyOp m offset len s := by
  cases i with
  | litX1 e => exact .inl ⟨_, _, Nat.le_add_left _ _, fun _ => rfl⟩
  | litX2 e => exact .inl ⟨_, _, Nat.le_add_left _ _, fun _ => rfl⟩
  | litX3 e => exact .inl ⟨_, _, Nat.le_add_left _ _, fun _ => rfl⟩
  | litX4 e => exact .inl ⟨_, _, Nat.le_add_left _ _, fun _ => rfl⟩
  | litShort n => exact .inl ⟨_, _, Nat.le_add_left _ _, fun _ => rfl⟩
  | copy1 l off => exact .inr ⟨_, _, _, Nat.le_trans (by omega) (Nat.le_add_left 4 l.toNat), fun _ => rfl⟩
  | copy2 l off => exact .inr ⟨_, _, _, Nat.le_add_left _ _, fun _ => rfl⟩
  | copy4 l off => exact .inr ⟨_, _, _, Nat.le_add_left _ _, fun _ => rfl⟩
  | varintMore g => cases h
  | varintLast g => cases h
  | cmdMaxlen level => cases h
  | cmdCompress level => cases h
  | cmdGetlen level => cases h
  | cmdDecompress level => cases h
  | cmdValidate level => cases h

/-- What a command's start leads to: nothing while a command runs; MAXLEN's completion; COMPRESS's rule; or the varint
unit's start, with the regions the command uses as the host owes them. -/
theorem exec_command (hc : contextOf i = .command) (h : exec i s = .next t) :
    (busy s = true ∧ t = s) ∨
      (busy s = false ∧
        ((∃ level r, t = complete .none 0#1 r (beginCommand opMaxlen level s)) ∨
          (∃ level, regionFits s.inBase s.inLen ∧ regionFits s.outBase s.outLen ∧
            regionMapped s.mem.map s.inBase s.inLen ∧ regionMapped s.mem.map s.outBase s.outLen ∧ regionsDisjoint s ∧
            runCompress (beginCommand opCompress level s) = .next t) ∨
          (∃ op level, (op = opGetlen ∨ op = opValidate) ∧ regionFits s.inBase s.inLen ∧
            regionMapped s.mem.map s.inBase s.inLen ∧ t = beginVarint (beginCommand op level s)) ∨
          ∃ level, regionFits s.inBase s.inLen ∧ regionFits s.outBase s.outLen ∧
            regionMapped s.mem.map s.inBase s.inLen ∧ regionMapped s.mem.map s.outBase s.outLen ∧ regionsDisjoint s ∧
            t = beginVarint (beginCommand opDecompress level s))) := by
  cases i with
  | cmdMaxlen level =>
    obtain h | ⟨hb, h⟩ := startPlain_next (run := runMaxlen) h
    · exact .inl h
    · cases h; exact .inr ⟨hb, .inl ⟨level, _, rfl⟩⟩
  | cmdCompress level =>
    obtain h | ⟨hb, h⟩ := startInOut_next (run := runCompress) h
    · exact .inl h
    · exact .inr ⟨hb, .inr (.inl ⟨level, h⟩)⟩
  | cmdGetlen level =>
    obtain h | ⟨hb, h1, h2, h⟩ := startIn_next (run := fun s => .next (beginVarint s)) h
    · exact .inl h
    · cases h; exact .inr ⟨hb, .inr (.inr (.inl ⟨opGetlen, level, .inl rfl, h1, h2, rfl⟩))⟩
  | cmdDecompress level =>
    obtain h | ⟨hb, h1, h2, h3, h4, h5, h⟩ := startInOut_next (run := fun s => .next (beginVarint s)) h
    · exact .inl h
    · cases h; exact .inr ⟨hb, .inr (.inr (.inr ⟨level, h1, h2, h3, h4, h5, rfl⟩))⟩
  | cmdValidate level =>
    obtain h | ⟨hb, h1, h2, h⟩ := startIn_next (run := fun s => .next (beginVarint s)) h
    · exact .inl h
    · cases h; exact .inr ⟨hb, .inr (.inr (.inl ⟨opValidate, level, .inr rfl, h1, h2, rfl⟩))⟩
  | litX1 e => cases hc
  | litX2 e => cases hc
  | litX3 e => cases hc
  | litX4 e => cases hc
  | litShort n => cases hc
  | copy1 l off => cases hc
  | copy2 l off => cases hc
  | copy4 l off => cases hc
  | varintMore g => cases hc
  | varintLast g => cases hc

/-! ### The core's turn and the host's actions -/

/-- The core's turn: idle, or one line of the running command's rule. -/
theorem coreOutcome_cases (s : State) :
    (busy s = false ∧ coreOutcome s = .next s) ∨
      (busy s = true ∧
        ((s.phase = .idle ∧ coreOutcome s = .next s) ∨
          (s.phase = .varint ∧ varintExhausted s = true ∧ coreOutcome s = varintFail s) ∨
          (s.phase = .varint ∧ varintExhausted s = false ∧
            coreOutcome s = exec (decodeVarintByte (inByte s s.varint.count.toNat)) (consumeVarintByte s)) ∨
          (s.phase = .ops ∧ s.dec.ip.toNat < inLenOf s ∧
            ∃ i rest, decode .stream (fetchBytes s) = .ok (i, rest) ∧ contextOf i = .stream ∧
              coreOutcome s = exec i (consumeTag s)) ∨
          (s.phase = .ops ∧ inLenOf s ≤ s.dec.ip.toNat ∧ coreOutcome s = endOfStream s) ∨
          (s.phase = .fragment ∧ coreOutcome s = fragmentStep s) ∨
          (s.phase = .probe ∧ coreOutcome s = probeStep s))) := by
  unfold coreOutcome coreWork
  cases hb : busy s with
  | false => exact .inl ⟨rfl, rfl⟩
  | true =>
    refine .inr ⟨rfl, ?_⟩
    cases hp : s.phase with
    | idle => exact .inl ⟨rfl, rfl⟩
    | varint =>
      cases he : varintExhausted s with
      | true => exact .inr (.inl ⟨rfl, rfl, by simp [varintWork, he, workOutcome]⟩)
      | false => exact .inr (.inr (.inl ⟨rfl, rfl, by simp [varintWork, he, workOutcome]⟩))
    | ops =>
      by_cases hi : s.dec.ip.toNat < inLenOf s
      · obtain ⟨i, rest, hd⟩ := fetch_decodes s
        exact .inr (.inr (.inr (.inl ⟨rfl, hi, i, rest, hd, contextOf_decode_stream hd,
          by simp [opsWork, hi, hd, workOutcome]⟩)))
      · exact .inr (.inr (.inr (.inr (.inl ⟨rfl, by omega, by simp [opsWork, hi, workOutcome]⟩))))
    | fragment => exact .inr (.inr (.inr (.inr (.inr (.inl ⟨rfl, rfl⟩)))))
    | probe => exact .inr (.inr (.inr (.inr (.inr (.inr ⟨rfl, rfl⟩)))))

/-- A host write of the window changes at most the four read-write registers, and none while a command runs. -/
theorem hostWrite_cases (addr : Addr) (width : AccessWidth) (v : BitVec 64) (s : State) :
    hostWrite addr width v s = s ∨
      (busy s = false ∧ ∃ a b c d,
        hostWrite addr width v s = { s with inBase := a, inLen := b, outBase := c, outLen := d }) := by
  unfold hostWrite
  split
  · split
    · next h =>
      have hb : busy s = false := by
        simp only [writeTaken, Bool.and_eq_true, Bool.not_eq_true'] at h
        exact h.2
      refine .inr ⟨hb, ?_⟩
      unfold windowWritten
      repeat' split
      all_goals exact ⟨_, _, _, _, rfl⟩
    · exact .inl rfl
  · exact .inl rfl

/-- A host read changes at most what the host got. -/
theorem hostRead_cases (addr : Addr) (width : AccessWidth) (s : State) :
    ∃ v, hostRead addr width s = { s with hostData := v } := by
  unfold hostRead
  split
  · exact ⟨_, rfl⟩
  · exact ⟨s.hostData, rfl⟩

/-- A CMD write that takes effect starts a command, with none running. -/
theorem commandWritten_some {addr : Addr} {width : AccessWidth} {v : BitVec 64} (h : commandWritten addr width v s = some i) :
    contextOf i = .command ∧ busy s = false := by
  unfold commandWritten at h
  split at h
  · split at h
    · next hw =>
      have h1 := hw.1
      simp only [writeTaken, Bool.and_eq_true, Bool.not_eq_true'] at h1
      exact ⟨contextOf_commandOf h, h1.2⟩
    · cases h
  · cases h

/-- The address `REG_WINDOW_BASE + off` is the window's offset `off`. -/
theorem windowOffset_at (s : State) (off : BitVec 8) : windowOffset (s.windowBase + off.setWidth 64) s = some off := by
  have e : s.windowBase + off.setWidth 64 - s.windowBase = off.setWidth 64 := by
    rw [BitVec.add_comm, BitVec.add_sub_cancel]
  have h : (off.setWidth 64).toNat = off.toNat := by
    rw [BitVec.toNat_setWidth]
    have := off.isLt
    omega
  have hl := off.isLt
  rw [windowOffset, e, if_pos (by omega)]
  refine congrArg some (BitVec.eq_of_toNat_eq ?_)
  rw [BitVec.toNat_setWidth, h]
  omega

/-- What a running command holds as IN, of the addresses that name a byte. -/
theorem holdsIn_iff {a : Addr} : holdsIn s a = true ↔ mapAddr s.mem.map a ≠ none ∧ HeldAsIn s a := by
  simp only [holdsIn, Bool.and_eq_true, decide_eq_true_eq, namedWith_iff, inRegion_iff]
  constructor
  · rintro ⟨⟨hb, ho⟩, hn, b, ⟨k, hk, rfl⟩, hm⟩
    exact ⟨hn, hb, ho, k, hk, hm⟩
  · rintro ⟨hn, hb, ho, k, hk, hm⟩
    exact ⟨⟨hb, ho⟩, hn, _, ⟨k, hk, rfl⟩, hm⟩

/-- What a running command holds as OUT, of the addresses that name a byte. -/
theorem holdsOut_iff {a : Addr} : holdsOut s a = true ↔ mapAddr s.mem.map a ≠ none ∧ HeldAsOut s a := by
  simp only [holdsOut, Bool.and_eq_true, namedWith_iff, inRegion_iff]
  constructor
  · rintro ⟨⟨hb, ho⟩, hn, b, ⟨k, hk, rfl⟩, hm⟩
    exact ⟨hn, hb, ho, k, hk, hm⟩
  · rintro ⟨hn, hb, ho, k, hk, hm⟩
    exact ⟨⟨hb, ho⟩, hn, _, ⟨k, hk, rfl⟩, hm⟩

/-- A host access that goes on was to an address that names a byte. -/
theorem atMemory_next {a : Addr} {r : Result} (h : atMemory a s r = .next t) :
    mapAddr s.mem.map a ≠ none ∧ r = .next t := by
  unfold atMemory at h
  split at h
  · next c hc => exact ⟨by simp [hc], h⟩
  · cases h

/-- A host access to an address that names a byte. -/
theorem atMemory_of_mapped {a : Addr} (h : mapAddr s.mem.map a ≠ none) (r : Result) : atMemory a s r = r := by
  unfold atMemory
  split
  · rfl
  · next hn => exact absurd hn h

/-- A host access to an address that names none. -/
theorem atMemory_of_unmapped {a : Addr} (h : mapAddr s.mem.map a = none) (r : Result) :
    atMemory a s r = .refused .notMapped := by
  rw [atMemory, h]

/-- A host action: the core's turn, a command's start, or one of the host's own accesses. -/
theorem hostOutcome_cases (a : HostAction) (s : State) :
    (a = .core ∧ hostOutcome a s = coreOutcome s) ∨
      (∃ i, contextOf i = .command ∧ busy s = false ∧ hostOutcome a s = exec i s) ∨
      (∃ addr width v, a = .write addr width v ∧ hostOutcome a s = .next (hostWrite addr width v s)) ∨
      (∃ addr width, a = .read addr width ∧ hostOutcome a s = .next (hostRead addr width s)) ∨
      (∃ addr, a = .load addr ∧ hostOutcome a s = hostLoad addr s) ∨
      (∃ addr b, a = .store addr b ∧ hostOutcome a s = hostStore addr b s) ∨
      (a = .reset ∧ hostOutcome a s = .next (resetBlock s)) := by
  cases a with
  | core => exact .inl ⟨rfl, rfl⟩
  | read addr width => exact .inr (.inr (.inr (.inl ⟨_, _, rfl, rfl⟩)))
  | write addr width v =>
    cases hc : commandWritten addr width v s with
    | none => exact .inr (.inr (.inl ⟨_, _, _, rfl, by simp [hostOutcome, hostWork, hc, workOutcome]⟩))
    | some i =>
      exact .inr (.inl ⟨i, (commandWritten_some hc).1, (commandWritten_some hc).2,
        by simp [hostOutcome, hostWork, hc, workOutcome]⟩)
  | load addr => exact .inr (.inr (.inr (.inr (.inl ⟨_, rfl, rfl⟩))))
  | store addr b => exact .inr (.inr (.inr (.inr (.inr (.inl ⟨_, _, rfl, rfl⟩)))))
  | reset => exact .inr (.inr (.inr (.inr (.inr (.inr ⟨rfl, rfl⟩)))))

end

end Sys2Proof.Machine
end

