-- ==== Sys2Proof/Laws/Updates.lean ====
section
/-! SUPPORT. Laws/Updates.lean: each field after each of the updates a pass or a fetch makes, so that no proof unfolds
one to see that a register is as before. -/

namespace Sys2Proof.Machine

section
variable (s : State)

@[simp] theorem consumeTag_status : (consumeTag s).status = s.status := rfl
@[simp] theorem consumeTag_inBase : (consumeTag s).inBase = s.inBase := rfl
@[simp] theorem consumeTag_inLen : (consumeTag s).inLen = s.inLen := rfl
@[simp] theorem consumeTag_outBase : (consumeTag s).outBase = s.outBase := rfl
@[simp] theorem consumeTag_outLen : (consumeTag s).outLen = s.outLen := rfl
@[simp] theorem consumeTag_result : (consumeTag s).result = s.result := rfl
@[simp] theorem consumeTag_latch : (consumeTag s).latch = s.latch := rfl
@[simp] theorem consumeTag_phase : (consumeTag s).phase = s.phase := rfl
@[simp] theorem consumeTag_varint : (consumeTag s).varint = s.varint := rfl
@[simp] theorem consumeTag_enc : (consumeTag s).enc = s.enc := rfl
@[simp] theorem consumeTag_ht : (consumeTag s).ht = s.ht := rfl
@[simp] theorem consumeTag_mem : (consumeTag s).mem = s.mem := rfl
@[simp] theorem consumeTag_host : (consumeTag s).host = s.host := rfl
@[simp] theorem consumeTag_hostData : (consumeTag s).hostData = s.hostData := rfl
@[simp] theorem consumeTag_fresh : (consumeTag s).fresh = s.fresh := rfl
@[simp] theorem consumeTag_windowBase : (consumeTag s).windowBase = s.windowBase := rfl

end

section
variable (s : State)

@[simp] theorem consumeVarintByte_status : (consumeVarintByte s).status = s.status := rfl
@[simp] theorem consumeVarintByte_inBase : (consumeVarintByte s).inBase = s.inBase := rfl
@[simp] theorem consumeVarintByte_inLen : (consumeVarintByte s).inLen = s.inLen := rfl
@[simp] theorem consumeVarintByte_outBase : (consumeVarintByte s).outBase = s.outBase := rfl
@[simp] theorem consumeVarintByte_outLen : (consumeVarintByte s).outLen = s.outLen := rfl
@[simp] theorem consumeVarintByte_result : (consumeVarintByte s).result = s.result := rfl
@[simp] theorem consumeVarintByte_latch : (consumeVarintByte s).latch = s.latch := rfl
@[simp] theorem consumeVarintByte_phase : (consumeVarintByte s).phase = s.phase := rfl
@[simp] theorem consumeVarintByte_dec : (consumeVarintByte s).dec = s.dec := rfl
@[simp] theorem consumeVarintByte_enc : (consumeVarintByte s).enc = s.enc := rfl
@[simp] theorem consumeVarintByte_ht : (consumeVarintByte s).ht = s.ht := rfl
@[simp] theorem consumeVarintByte_mem : (consumeVarintByte s).mem = s.mem := rfl
@[simp] theorem consumeVarintByte_host : (consumeVarintByte s).host = s.host := rfl
@[simp] theorem consumeVarintByte_hostData : (consumeVarintByte s).hostData = s.hostData := rfl
@[simp] theorem consumeVarintByte_fresh : (consumeVarintByte s).fresh = s.fresh := rfl
@[simp] theorem consumeVarintByte_windowBase : (consumeVarintByte s).windowBase = s.windowBase := rfl

end

section
variable (s : State)

@[simp] theorem beginOps_status : (beginOps s).status = s.status := rfl
@[simp] theorem beginOps_inBase : (beginOps s).inBase = s.inBase := rfl
@[simp] theorem beginOps_inLen : (beginOps s).inLen = s.inLen := rfl
@[simp] theorem beginOps_outBase : (beginOps s).outBase = s.outBase := rfl
@[simp] theorem beginOps_outLen : (beginOps s).outLen = s.outLen := rfl
@[simp] theorem beginOps_result : (beginOps s).result = s.result := rfl
@[simp] theorem beginOps_latch : (beginOps s).latch = s.latch := rfl
@[simp] theorem beginOps_varint : (beginOps s).varint = s.varint := rfl
@[simp] theorem beginOps_enc : (beginOps s).enc = s.enc := rfl
@[simp] theorem beginOps_ht : (beginOps s).ht = s.ht := rfl
@[simp] theorem beginOps_mem : (beginOps s).mem = s.mem := rfl
@[simp] theorem beginOps_host : (beginOps s).host = s.host := rfl
@[simp] theorem beginOps_hostData : (beginOps s).hostData = s.hostData := rfl
@[simp] theorem beginOps_fresh : (beginOps s).fresh = s.fresh := rfl
@[simp] theorem beginOps_windowBase : (beginOps s).windowBase = s.windowBase := rfl
@[simp] theorem beginOps_phase : (beginOps s).phase = .ops := rfl

end

section
variable (s : State)

@[simp] theorem beginVarint_status : (beginVarint s).status = s.status := rfl
@[simp] theorem beginVarint_inBase : (beginVarint s).inBase = s.inBase := rfl
@[simp] theorem beginVarint_inLen : (beginVarint s).inLen = s.inLen := rfl
@[simp] theorem beginVarint_outBase : (beginVarint s).outBase = s.outBase := rfl
@[simp] theorem beginVarint_outLen : (beginVarint s).outLen = s.outLen := rfl
@[simp] theorem beginVarint_result : (beginVarint s).result = s.result := rfl
@[simp] theorem beginVarint_latch : (beginVarint s).latch = s.latch := rfl
@[simp] theorem beginVarint_dec : (beginVarint s).dec = s.dec := rfl
@[simp] theorem beginVarint_enc : (beginVarint s).enc = s.enc := rfl
@[simp] theorem beginVarint_ht : (beginVarint s).ht = s.ht := rfl
@[simp] theorem beginVarint_mem : (beginVarint s).mem = s.mem := rfl
@[simp] theorem beginVarint_host : (beginVarint s).host = s.host := rfl
@[simp] theorem beginVarint_hostData : (beginVarint s).hostData = s.hostData := rfl
@[simp] theorem beginVarint_fresh : (beginVarint s).fresh = s.fresh := rfl
@[simp] theorem beginVarint_windowBase : (beginVarint s).windowBase = s.windowBase := rfl
@[simp] theorem beginVarint_phase : (beginVarint s).phase = .varint := rfl
@[simp] theorem beginVarint_varint : (beginVarint s).varint = { acc := 0, shift := 0, count := 0 } := rfl

end

section
variable (s : State)

@[simp] theorem takeLength_status : (takeLength s).status = s.status := rfl
@[simp] theorem takeLength_inBase : (takeLength s).inBase = s.inBase := rfl
@[simp] theorem takeLength_inLen : (takeLength s).inLen = s.inLen := rfl
@[simp] theorem takeLength_outBase : (takeLength s).outBase = s.outBase := rfl
@[simp] theorem takeLength_outLen : (takeLength s).outLen = s.outLen := rfl
@[simp] theorem takeLength_result : (takeLength s).result = s.result := rfl
@[simp] theorem takeLength_latch : (takeLength s).latch = s.latch := rfl
@[simp] theorem takeLength_varint : (takeLength s).varint = s.varint := rfl
@[simp] theorem takeLength_dec : (takeLength s).dec = s.dec := rfl
@[simp] theorem takeLength_ht : (takeLength s).ht = s.ht := rfl
@[simp] theorem takeLength_mem : (takeLength s).mem = s.mem := rfl
@[simp] theorem takeLength_host : (takeLength s).host = s.host := rfl
@[simp] theorem takeLength_hostData : (takeLength s).hostData = s.hostData := rfl
@[simp] theorem takeLength_fresh : (takeLength s).fresh = s.fresh := rfl
@[simp] theorem takeLength_windowBase : (takeLength s).windowBase = s.windowBase := rfl
@[simp] theorem takeLength_phase : (takeLength s).phase = s.phase := rfl
@[simp] theorem takeLength_enc : (takeLength s).enc = { s.enc with n := s.latch.inLen } := rfl

@[simp] theorem encoderStart_status : (encoderStart s).status = s.status := rfl
@[simp] theorem encoderStart_inBase : (encoderStart s).inBase = s.inBase := rfl
@[simp] theorem encoderStart_inLen : (encoderStart s).inLen = s.inLen := rfl
@[simp] theorem encoderStart_outBase : (encoderStart s).outBase = s.outBase := rfl
@[simp] theorem encoderStart_outLen : (encoderStart s).outLen = s.outLen := rfl
@[simp] theorem encoderStart_result : (encoderStart s).result = s.result := rfl
@[simp] theorem encoderStart_latch : (encoderStart s).latch = s.latch := rfl
@[simp] theorem encoderStart_varint : (encoderStart s).varint = s.varint := rfl
@[simp] theorem encoderStart_dec : (encoderStart s).dec = s.dec := rfl
@[simp] theorem encoderStart_ht : (encoderStart s).ht = s.ht := rfl
@[simp] theorem encoderStart_mem : (encoderStart s).mem = s.mem := rfl
@[simp] theorem encoderStart_host : (encoderStart s).host = s.host := rfl
@[simp] theorem encoderStart_hostData : (encoderStart s).hostData = s.hostData := rfl
@[simp] theorem encoderStart_fresh : (encoderStart s).fresh = s.fresh := rfl
@[simp] theorem encoderStart_windowBase : (encoderStart s).windowBase = s.windowBase := rfl
@[simp] theorem encoderStart_phase : (encoderStart s).phase = .fragment := rfl
@[simp] theorem encoderStart_enc : (encoderStart s).enc = { s.enc with n := s.latch.inLen, op := 0, base := 0 } := rfl

end

section
variable (n : Nat) (s : State)

@[simp] theorem fragmentInit_status : (fragmentInit n s).status = s.status := rfl
@[simp] theorem fragmentInit_inBase : (fragmentInit n s).inBase = s.inBase := rfl
@[simp] theorem fragmentInit_inLen : (fragmentInit n s).inLen = s.inLen := rfl
@[simp] theorem fragmentInit_outBase : (fragmentInit n s).outBase = s.outBase := rfl
@[simp] theorem fragmentInit_outLen : (fragmentInit n s).outLen = s.outLen := rfl
@[simp] theorem fragmentInit_result : (fragmentInit n s).result = s.result := rfl
@[simp] theorem fragmentInit_latch : (fragmentInit n s).latch = s.latch := rfl
@[simp] theorem fragmentInit_varint : (fragmentInit n s).varint = s.varint := rfl
@[simp] theorem fragmentInit_dec : (fragmentInit n s).dec = s.dec := rfl
@[simp] theorem fragmentInit_mem : (fragmentInit n s).mem = s.mem := rfl
@[simp] theorem fragmentInit_host : (fragmentInit n s).host = s.host := rfl
@[simp] theorem fragmentInit_hostData : (fragmentInit n s).hostData = s.hostData := rfl
@[simp] theorem fragmentInit_fresh : (fragmentInit n s).fresh = s.fresh := rfl
@[simp] theorem fragmentInit_windowBase : (fragmentInit n s).windowBase = s.windowBase := rfl
@[simp] theorem fragmentInit_phase : (fragmentInit n s).phase = .probe := rfl
@[simp] theorem fragmentInit_ht : (fragmentInit n s).ht = htClear (2 ^ tableBitsFor n) s.ht := rfl

end

section
variable (s : State)

@[simp] theorem probe_status : (probe s).status = s.status := rfl
@[simp] theorem probe_inBase : (probe s).inBase = s.inBase := rfl
@[simp] theorem probe_inLen : (probe s).inLen = s.inLen := rfl
@[simp] theorem probe_outBase : (probe s).outBase = s.outBase := rfl
@[simp] theorem probe_outLen : (probe s).outLen = s.outLen := rfl
@[simp] theorem probe_result : (probe s).result = s.result := rfl
@[simp] theorem probe_latch : (probe s).latch = s.latch := rfl
@[simp] theorem probe_phase : (probe s).phase = s.phase := rfl
@[simp] theorem probe_varint : (probe s).varint = s.varint := rfl
@[simp] theorem probe_dec : (probe s).dec = s.dec := rfl
@[simp] theorem probe_mem : (probe s).mem = s.mem := rfl
@[simp] theorem probe_host : (probe s).host = s.host := rfl
@[simp] theorem probe_hostData : (probe s).hostData = s.hostData := rfl
@[simp] theorem probe_fresh : (probe s).fresh = s.fresh := rfl
@[simp] theorem probe_windowBase : (probe s).windowBase = s.windowBase := rfl
@[simp] theorem probe_enc_n : (probe s).enc.n = s.enc.n := rfl
@[simp] theorem probe_enc_op : (probe s).enc.op = s.enc.op := rfl
@[simp] theorem probe_enc_base : (probe s).enc.base = s.enc.base := rfl
@[simp] theorem probe_enc_len : (probe s).enc.len = s.enc.len := rfl
@[simp] theorem probe_enc_tableBits : (probe s).enc.tableBits = s.enc.tableBits := rfl
@[simp] theorem probe_enc_ip : (probe s).enc.ip = s.enc.ip := rfl
@[simp] theorem probe_enc_nextEmit : (probe s).enc.nextEmit = s.enc.nextEmit := rfl
@[simp] theorem probe_enc_skip : (probe s).enc.skip = s.enc.skip := rfl
@[simp] theorem probe_enc_mlen : (probe s).enc.mlen = s.enc.mlen := rfl

end

section
variable (s : State)

@[simp] theorem skipStep_status : (skipStep s).status = s.status := rfl
@[simp] theorem skipStep_inBase : (skipStep s).inBase = s.inBase := rfl
@[simp] theorem skipStep_inLen : (skipStep s).inLen = s.inLen := rfl
@[simp] theorem skipStep_outBase : (skipStep s).outBase = s.outBase := rfl
@[simp] theorem skipStep_outLen : (skipStep s).outLen = s.outLen := rfl
@[simp] theorem skipStep_result : (skipStep s).result = s.result := rfl
@[simp] theorem skipStep_latch : (skipStep s).latch = s.latch := rfl
@[simp] theorem skipStep_phase : (skipStep s).phase = s.phase := rfl
@[simp] theorem skipStep_varint : (skipStep s).varint = s.varint := rfl
@[simp] theorem skipStep_dec : (skipStep s).dec = s.dec := rfl
@[simp] theorem skipStep_ht : (skipStep s).ht = s.ht := rfl
@[simp] theorem skipStep_mem : (skipStep s).mem = s.mem := rfl
@[simp] theorem skipStep_host : (skipStep s).host = s.host := rfl
@[simp] theorem skipStep_hostData : (skipStep s).hostData = s.hostData := rfl
@[simp] theorem skipStep_fresh : (skipStep s).fresh = s.fresh := rfl
@[simp] theorem skipStep_windowBase : (skipStep s).windowBase = s.windowBase := rfl
@[simp] theorem skipStep_enc_n : (skipStep s).enc.n = s.enc.n := rfl
@[simp] theorem skipStep_enc_op : (skipStep s).enc.op = s.enc.op := rfl
@[simp] theorem skipStep_enc_base : (skipStep s).enc.base = s.enc.base := rfl
@[simp] theorem skipStep_enc_len : (skipStep s).enc.len = s.enc.len := rfl
@[simp] theorem skipStep_enc_tableBits : (skipStep s).enc.tableBits = s.enc.tableBits := rfl
@[simp] theorem skipStep_enc_nextEmit : (skipStep s).enc.nextEmit = s.enc.nextEmit := rfl
@[simp] theorem skipStep_enc_w : (skipStep s).enc.w = s.enc.w := rfl
@[simp] theorem skipStep_enc_h : (skipStep s).enc.h = s.enc.h := rfl
@[simp] theorem skipStep_enc_candidate : (skipStep s).enc.candidate = s.enc.candidate := rfl
@[simp] theorem skipStep_enc_mlen : (skipStep s).enc.mlen = s.enc.mlen := rfl

end

section
variable (n : Nat) (s : State)

@[simp] theorem advance_status : (advance n s).status = s.status := rfl
@[simp] theorem advance_inBase : (advance n s).inBase = s.inBase := rfl
@[simp] theorem advance_inLen : (advance n s).inLen = s.inLen := rfl
@[simp] theorem advance_outBase : (advance n s).outBase = s.outBase := rfl
@[simp] theorem advance_outLen : (advance n s).outLen = s.outLen := rfl
@[simp] theorem advance_result : (advance n s).result = s.result := rfl
@[simp] theorem advance_latch : (advance n s).latch = s.latch := rfl
@[simp] theorem advance_phase : (advance n s).phase = s.phase := rfl
@[simp] theorem advance_varint : (advance n s).varint = s.varint := rfl
@[simp] theorem advance_dec : (advance n s).dec = s.dec := rfl
@[simp] theorem advance_ht : (advance n s).ht = s.ht := rfl
@[simp] theorem advance_mem : (advance n s).mem = s.mem := rfl
@[simp] theorem advance_host : (advance n s).host = s.host := rfl
@[simp] theorem advance_hostData : (advance n s).hostData = s.hostData := rfl
@[simp] theorem advance_fresh : (advance n s).fresh = s.fresh := rfl
@[simp] theorem advance_windowBase : (advance n s).windowBase = s.windowBase := rfl
@[simp] theorem advance_enc_n : (advance n s).enc.n = s.enc.n := rfl
@[simp] theorem advance_enc_op : (advance n s).enc.op = s.enc.op := rfl
@[simp] theorem advance_enc_base : (advance n s).enc.base = s.enc.base := rfl
@[simp] theorem advance_enc_len : (advance n s).enc.len = s.enc.len := rfl
@[simp] theorem advance_enc_tableBits : (advance n s).enc.tableBits = s.enc.tableBits := rfl
@[simp] theorem advance_enc_w : (advance n s).enc.w = s.enc.w := rfl
@[simp] theorem advance_enc_h : (advance n s).enc.h = s.enc.h := rfl
@[simp] theorem advance_enc_candidate : (advance n s).enc.candidate = s.enc.candidate := rfl

end

section
variable (s : State)

@[simp] theorem endFragment_status : (endFragment s).status = s.status := rfl
@[simp] theorem endFragment_inBase : (endFragment s).inBase = s.inBase := rfl
@[simp] theorem endFragment_inLen : (endFragment s).inLen = s.inLen := rfl
@[simp] theorem endFragment_outBase : (endFragment s).outBase = s.outBase := rfl
@[simp] theorem endFragment_outLen : (endFragment s).outLen = s.outLen := rfl
@[simp] theorem endFragment_result : (endFragment s).result = s.result := rfl
@[simp] theorem endFragment_latch : (endFragment s).latch = s.latch := rfl
@[simp] theorem endFragment_varint : (endFragment s).varint = s.varint := rfl
@[simp] theorem endFragment_dec : (endFragment s).dec = s.dec := rfl
@[simp] theorem endFragment_ht : (endFragment s).ht = s.ht := rfl
@[simp] theorem endFragment_mem : (endFragment s).mem = s.mem := rfl
@[simp] theorem endFragment_host : (endFragment s).host = s.host := rfl
@[simp] theorem endFragment_hostData : (endFragment s).hostData = s.hostData := rfl
@[simp] theorem endFragment_fresh : (endFragment s).fresh = s.fresh := rfl
@[simp] theorem endFragment_windowBase : (endFragment s).windowBase = s.windowBase := rfl
@[simp] theorem endFragment_phase : (endFragment s).phase = .fragment := rfl

end

/-! ### What reads through them -/

/-- IN's and OUT's addresses and lengths depend on the latched arguments alone, their bytes on memory too. -/
theorem region_congr {s t : State} (hl : t.latch = s.latch) :
    inLenOf t = inLenOf s ∧ outLenOf t = outLenOf s ∧ (∀ i, inAddr t i = inAddr s i) ∧ ∀ j, outAddr t j = outAddr s j := by
  simp only [inLenOf, outLenOf, inAddr, outAddr, hl, and_self, implies_true]

/-- The bytes of IN and OUT. -/
theorem byte_congr {s t : State} (hl : t.latch = s.latch) (hm : t.mem = s.mem) :
    (∀ i, inByte t i = inByte s i) ∧ (∀ j, outByte t j = outByte s j) ∧ ∀ i, load32 t i = load32 s i := by
  simp only [inByte, outByte, load32, inAddr, outAddr, hl, hm, implies_true, and_self]

/-- R183's insertion changes HT alone. -/
theorem insertBehind_eq (s : State) : insertBehind s = setHt s (insertBehind s).ht := by
  unfold insertBehind
  split <;> rfl

end Sys2Proof.Machine
end

