-- ==== Sys2Proof/Laws/Move.lean ====
section
/-! SUPPORT. Laws/Move.lean: every next state of the core's turn, once, so that a claim over all steps is a claim over
these few forms; and what the shapes of Safety.lean say of the meanings. -/

namespace Sys2Proof.Machine

/-! ### Shapes -/

/-- A literal's meaning is the literal operation of its shape. -/
theorem exec_of_literalShape {i : Instr} {m len : Nat} (h : literalShape i = some (m, len)) (s : State) :
    1 ≤ len ∧ exec i s = literalOp m len s := by
  cases i <;> simp only [literalShape, Option.some.injEq, Prod.mk.injEq, reduceCtorEq] at h
  all_goals
    obtain ⟨rfl, rfl⟩ := h
    exact ⟨Nat.le_add_left _ _, rfl⟩

/-- A copy's meaning is the copy operation of its shape. -/
theorem exec_of_copyShape {i : Instr} {m offset len : Nat} (h : copyShape i = some (m, offset, len)) (s : State) :
    1 ≤ len ∧ exec i s = copyOp m offset len s := by
  cases i <;> simp only [copyShape, Option.some.injEq, Prod.mk.injEq, reduceCtorEq] at h
  all_goals
    obtain ⟨rfl, rfl, rfl⟩ := h
    exact ⟨Nat.le_trans (by omega) (Nat.le_add_left _ _), rfl⟩

section

variable {s t : State} {m len : Nat}

/-- NEED(m) is a comparison with the bytes left. -/
theorem available_iff : available s m = true ↔ m ≤ inputLeft s := by
  rw [available, decide_eq_true_eq]
  rfl

/-- ip past the operand bytes. -/
theorem operandTaken_ip_toNat (h : m ≤ inputLeft s) : (operandTaken s m).dec.ip.toNat = s.dec.ip.toNat + m := by
  have hl := s.latch.inLen.isLt
  have hi := s.dec.ip.isLt
  simp only [operandTaken_ip, BitVec.toNat_add, BitVec.toNat_ofNat, inputLeft, inLenOf] at *
  omega

/-- NEED of the data after the operand bytes were taken. -/
theorem available_operandTaken (h : m ≤ inputLeft s) (hl : 1 ≤ len) :
    available (operandTaken s m) len = true ↔ m + len ≤ inputLeft s := by
  rw [available_iff, inputLeft, operandTaken_ip_toNat h]
  show len ≤ inLenOf s - (s.dec.ip.toNat + m) ↔ m + len ≤ inLenOf s - s.dec.ip.toNat
  omega

/-- The length check is a comparison with the bytes of L left. -/
theorem fitsOutput_iff : fitsOutput s len = true ↔ len ≤ outputLeft s := by
  rw [fitsOutput, decide_eq_true_eq]
  rfl

/-- ip past the tag. -/
theorem consumeTag_ip_toNat (h : s.dec.ip.toNat < inLenOf s) : (consumeTag s).dec.ip.toNat = s.dec.ip.toNat + 1 := by
  have hl : inLenOf s < 2 ^ 64 := s.latch.inLen.isLt
  have e : (consumeTag s).dec.ip = s.dec.ip + 1#64 := rfl
  rw [e, BitVec.toNat_add, show (1#64).toNat = 1 from rfl]
  omega

/-- A command that writes OUT holds it: its bytes are its own, and none is one of IN's (R64). -/
theorem outHeld_own (hi : inHeld s = true) (ho : outHeld s = true) :
    ownsOut s ∧ ∀ i < inLenOf s, ∀ j < outLenOf s, mapAddr s.mem.map (inAddr s i) ≠ mapAddr s.mem.map (outAddr s j) := by
  simp only [inHeld, outHeld, Bool.and_eq_true] at hi ho
  obtain ⟨-, hd, ho⟩ :=
    (regionsApart_iff (of_decide_eq_true hi.1) (of_decide_eq_true ho.1.1) hi.2 ho.1.2).mp ho.2
  exact ⟨ho, hd⟩

/-- The regions held depend on the latched arguments and MemMap alone. -/
theorem held_congr (h : t.latch = s.latch) (hm : t.mem.map = s.mem.map) : inHeld t = inHeld s ∧ outHeld t = outHeld s := by
  simp only [inHeld, outHeld, h, hm, and_self]

end

/-! ### The core's moves -/

/-- What a stream operation that goes on leaves of the decoder's registers: L as it was, ip and op further on within
their bounds. -/
structure OpAdvance (s : State) (len : Nat) (d : DecRegs) : Prop where
  pos : 1 ≤ len
  keepsL : d.L = s.dec.L
  op : d.op.toNat = s.dec.op.toNat + len
  fits : s.dec.op.toNat + len ≤ s.dec.L.toNat
  ipGrows : s.dec.ip.toNat < d.ip.toNat
  ipBound : d.ip.toNat ≤ inLenOf s

/-- The memory a stream operation of DECOMPRESS leaves: only OUT[op …] differs. -/
structure OpMemory (s : State) (len : Nat) (m : Memory) : Prop where
  room : s.dec.op.toNat + len ≤ outLenOf s
  outside : ∀ a, (∀ k < len, mapAddr s.mem.map a ≠ mapAddr s.mem.map (outAddr s (s.dec.op.toNat + k))) →
    memRead m a = memRead s.mem a
  wf : memWf s.mem → memWf m
  map : m.map = s.mem.map

/-- What an emission that may write nothing leaves: op moved on by `n`, and only OUT[op …] different. -/
structure Wrote (s : State) (n : Nat) (t : State) : Prop where
  room : n = 0 ∨ s.enc.op.toNat + n ≤ outLenOf s
  eq : t = emitted s n t.mem
  op : t.enc.op.toNat = s.enc.op.toNat + n
  outside : ∀ a, (∀ k < n, mapAddr s.mem.map a ≠ mapAddr s.mem.map (outAddr s (s.enc.op.toNat + k))) →
    memRead t.mem a = memRead s.mem a
  wf : memWf s.mem → memWf t.mem
  map : t.mem.map = s.mem.map

/-- How many bytes a literal of `len` input bytes takes at most, with its header; none for no literal (R189). -/
def literalCost (len : Nat) : Nat := if len = 0 then 0 else len + 1 + 2 * (len / 61)

/-- The next states of the core's turn. -/
inductive CoreMove (s : State) : State → Prop where
  /-- No command runs, or it stands nowhere. -/
  | stays (h : busy s = false ∨ s.phase = .idle) : CoreMove s s
  /-- The command completes: memory and the encoder are as they were. -/
  | ends (hb : busy s = true) (err : ErrKind) (valid : BitVec 1) (r : Word) (d : DecRegs) (v : VarintRegs)
      (hv : err = .none ∨ valid = 0#1) :
      CoreMove s (complete err valid r (setDec (setVarint s v) d))
  /-- The varint goes on (R122). -/
  | varintMore (hb : busy s = true) (hp : s.phase = .varint) (g : BitVec 7) (h5 : s.varint.count ≠ 5#3)
      (hi : s.varint.count.toNat < inLenOf s) (hs : s.varint.shift.toNat + 7 < 32) :
      CoreMove s (setVarint s
        { acc := accumulate s.varint g, shift := s.varint.shift + 7, count := s.varint.count + 1 })
  /-- The varint ends and the operations start (R127, R223). -/
  | varintLast (hb : busy s = true) (hp : s.phase = .varint) (g : BitVec 7) (h5 : s.varint.count ≠ 5#3)
      (hi : s.varint.count.toNat < inLenOf s) (hg : s.latch.opcode = opDecompress ∨ s.latch.opcode = opValidate)
      (hl : s.latch.opcode = opDecompress → ((accumulate s.varint g).setWidth 32).toNat ≤ outLenOf s) :
      CoreMove s (beginOps (setVarint s { s.varint with
        acc := accumulate s.varint g, count := s.varint.count + 1 }))
  /-- A stream operation of DECOMPRESS goes on (R225, R231). -/
  | decoded (hb : busy s = true) (hp : s.phase = .ops) (ho : s.latch.opcode = opDecompress) (len : Nat) (d : DecRegs)
      (m : Memory) (hd : OpAdvance s len d) (hm : OpMemory s len m) : CoreMove s (setDec (setMem s m) d)
  /-- A stream operation of VALIDATE goes on (R262, R268). -/
  | shadowed (hb : busy s = true) (hp : s.phase = .ops) (ho : s.latch.opcode = opValidate) (len : Nat) (d : DecRegs)
      (hd : OpAdvance s len d) : CoreMove s (setDec s d)
  /-- A fragment starts (R173). -/
  | fragmentStarts (hb : busy s = true) (hp : s.phase = .fragment) (h : s.enc.base.toNat < s.enc.n.toNat) :
      CoreMove s (fragmentInit (min Config.fragSize (s.enc.n.toNat - s.enc.base.toNat)) s)
  /-- COMPRESS completes (R188). -/
  | compressEnds (hb : busy s = true) (hp : s.phase = .fragment) (h : s.enc.n.toNat ≤ s.enc.base.toNat) :
      CoreMove s (complete .none 0#1 s.enc.op s)
  /-- A match (R181 to R183): the literal's `n` bytes and the copy's bytes are written. -/
  | matched (hb : busy s = true) (hp : s.phase = .probe) (hg : probeGoes s = true) (hm : matchOk (probe s) = true)
      (n : Nat) (copy : List Byte) (u v : State) (eu : Wrote (probe s) n u)
      (hn : s.enc.ip.toNat - s.enc.nextEmit.toNat ≤ 65536 → n ≤ literalCost (s.enc.ip.toNat - s.enc.nextEmit.toNat))
      (hc : emitCopyBytes (s.enc.ip.toNat - (probe s).enc.candidate.toNat) (matchLen (probe s)) = some copy)
      (ev : Emitted u copy.length v) : CoreMove s (insertBehind (advance (matchLen (probe s)) v))
  /-- No match (R184). -/
  | skipped (hb : busy s = true) (hp : s.phase = .probe) (hg : probeGoes s = true)
      (hm : matchOk (probe s) = false) : CoreMove s (skipStep (probe s))
  /-- The fragment's tail (R185). -/
  | tail (hb : busy s = true) (hp : s.phase = .probe) (hg : probeGoes s = false) (n : Nat) (u : State)
      (eu : Wrote s n u)
      (hn : s.enc.len.toNat - s.enc.nextEmit.toNat ≤ 65536 → n ≤ literalCost (s.enc.len.toNat - s.enc.nextEmit.toNat)) : CoreMove s (endFragment u)

section

variable {s t : State}

/-- An emission of at least nothing. -/
theorem Emitted.wrote {n : Nat} (h : Emitted s n t) : Wrote s n t :=
  ⟨.inr h.room, h.eq, h.op, h.outside, h.wf, h.map⟩

/-- No emission. -/
theorem Wrote.refl : Wrote s 0 s := ⟨.inl rfl, by simp [emitted, setEnc, setMem], rfl, fun _ _ => rfl, id, rfl⟩

/-- A match changes the encoder, HT and memory alone. -/
theorem matched_keeps {n k mlen : Nat} {u v : State} (eu : Wrote (probe s) n u) (ev : Emitted u k v) :
    insertBehind (advance mlen v) = { s with
      enc := (advance mlen v).enc, ht := (insertBehind (advance mlen v)).ht, mem := v.mem } := by
  rw [insertBehind_eq]
  generalize (insertBehind (advance mlen v)).ht = nht
  have h1 : u = { s with enc := u.enc, ht := u.ht, mem := u.mem } := by
    rw [eu.eq]
    simp only [emitted, setEnc, setMem, probe, setHt]
  have h2 : v = { u with enc := v.enc, mem := v.mem } := by
    rw [ev.eq]
    simp only [emitted, setEnc, setMem]
  have h3 : v = { s with enc := v.enc, ht := v.ht, mem := v.mem } := by
    rw [h2, h1]
  simp only [setHt, advance, setEnc]
  rw [h3]

/-- A skip changes the encoder and HT alone. -/
theorem skipped_keeps : skipStep (probe s) = { s with enc := (skipStep (probe s)).enc, ht := (probe s).ht } := rfl

/-- A tail changes the encoder, the phase and memory alone. -/
theorem tail_keeps {n : Nat} {u : State} (eu : Wrote s n u) :
    endFragment u = { s with enc := (endFragment u).enc, phase := .fragment, mem := u.mem } := by
  have h1 : u = { s with enc := u.enc, mem := u.mem } := by
    rw [eu.eq]
    simp only [emitted, setEnc, setMem]
  simp only [endFragment, setPhase, setEnc]
  rw [h1]

/-- A literal where there is one (R181, R185). -/
theorem emitLiteral_or_none {src a b : Nat}
    (h : (if a < b then emitLiteral src (b - a) s else .ok s) = .ok t) :
    ∃ n, Wrote s n t ∧ (b - a ≤ 65536 → n ≤ literalCost (b - a)) := by
  split at h
  · next hab =>
    obtain ⟨bs, hbs, e⟩ := emitLiteral_ok h
    refine ⟨_, e.wrote, fun hl => ?_⟩
    obtain ⟨bs', hbs', -, hlen⟩ := tagEncLiteral_of_domain (len := b - a) (by omega) hl
    rw [hbs] at hbs'
    cases hbs'
    rw [literalCost, if_neg (by omega)]
    omega
  · cases h
    exact ⟨0, Wrote.refl, fun _ => Nat.zero_le _⟩

/-- The length check leaves room for L ≤ 2^32 bytes. -/
theorem afterOp_toNat {op : Word} {L len : Nat} (hL : L < 2 ^ 32) (hl : 1 ≤ len) (hf : len ≤ L - op.toNat) :
    (op + BitVec.ofNat 64 len).toNat = op.toNat + len := by
  simp only [BitVec.toNat_add, BitVec.toNat_ofNat]
  omega

/-- A literal's shadow that goes on advances both cursors within their bounds. -/
theorem skipLiteral_advance {m len : Nat} (hip : s.dec.ip.toNat < inLenOf s) (hl : 1 ≤ len)
    (ha : available (consumeTag s) m = true) (hb : available (operandTaken (consumeTag s) m) len = true)
    (hf : fitsOutput s len = true) : OpAdvance s len (skipLiteral (operandTaken (consumeTag s) m).dec len) := by
  have h1 := consumeTag_ip_toNat hip
  have hleft : inputLeft (consumeTag s) = inLenOf s - (s.dec.ip.toNat + 1) := by rw [inputLeft, h1]; rfl
  have h2 := available_iff.mp ha
  have h3 := operandTaken_ip_toNat h2
  have h4 := (available_operandTaken h2 hl).mp hb
  have h5 : len ≤ s.dec.L.toNat - s.dec.op.toNat := fitsOutput_iff.mp hf
  have hop := afterOp_toNat s.dec.L.isLt hl h5
  have hlt : inLenOf s < 2 ^ 64 := s.latch.inLen.isLt
  have hip' : ((operandTaken (consumeTag s) m).dec.ip + BitVec.ofNat 64 len).toNat = s.dec.ip.toNat + 1 + m + len := by
    simp only [BitVec.toNat_add, BitVec.toNat_ofNat]
    omega
  refine ⟨hl, rfl, hop, by omega, ?_, ?_⟩
  · show _ < ((operandTaken (consumeTag s) m).dec.ip + BitVec.ofNat 64 len).toNat
    omega
  · show ((operandTaken (consumeTag s) m).dec.ip + BitVec.ofNat 64 len).toNat ≤ _
    omega

/-- A literal that goes on advances them alike. -/
theorem afterLiteral_advance {m len : Nat} (hip : s.dec.ip.toNat < inLenOf s) (hl : 1 ≤ len)
    (ha : available (consumeTag s) m = true) (hb : available (operandTaken (consumeTag s) m) len = true)
    (hf : fitsOutput s len = true) : OpAdvance s len (afterLiteral (operandTaken (consumeTag s) m).dec len) :=
  have h := skipLiteral_advance hip hl ha hb hf
  ⟨h.pos, h.keepsL, h.op, h.fits, h.ipGrows, h.ipBound⟩

/-- A copy's shadow that goes on advances op within its bound, and ip past its offset bytes. -/
theorem skipCopy_advance {m offset len : Nat} (hip : s.dec.ip.toNat < inLenOf s) (hl : 1 ≤ len)
    (ha : available (consumeTag s) m = true) (hf : fitsOutput s len = true) :
    OpAdvance s len (skipCopy (operandTaken (consumeTag s) m).dec offset len) := by
  have h1 := consumeTag_ip_toNat hip
  have hleft : inputLeft (consumeTag s) = inLenOf s - (s.dec.ip.toNat + 1) := by rw [inputLeft, h1]; rfl
  have h2 := available_iff.mp ha
  have h3 := operandTaken_ip_toNat h2
  have h5 : len ≤ s.dec.L.toNat - s.dec.op.toNat := fitsOutput_iff.mp hf
  have hop := afterOp_toNat s.dec.L.isLt hl h5
  refine ⟨hl, rfl, hop, by omega, ?_, ?_⟩
  · show _ < (operandTaken (consumeTag s) m).dec.ip.toNat
    omega
  · show (operandTaken (consumeTag s) m).dec.ip.toNat ≤ _
    omega

/-- A copy that goes on advances them alike. -/
theorem afterCopy_advance {m offset len : Nat} (hip : s.dec.ip.toNat < inLenOf s) (hl : 1 ≤ len)
    (ha : available (consumeTag s) m = true) (hf : fitsOutput s len = true) :
    OpAdvance s len (afterCopy (operandTaken (consumeTag s) m).dec offset len) :=
  have h := skipCopy_advance (offset := offset) hip hl ha hf
  ⟨h.pos, h.keepsL, h.op, h.fits, h.ipGrows, h.ipBound⟩

/-- A move to OUT[op …] leaves the rest of memory. -/
theorem copyBytes_opMemory {len : Nat} (src : Addr) (hr : s.dec.op.toNat + len ≤ outLenOf s) :
    OpMemory s len (copyBytes len src (outAddr s s.dec.op.toNat) s.mem) :=
  ⟨hr, fun a ha => memRead_copyBytes_of_ne _ _ _ _ _ fun k hk => by rw [← outAddr_add]; exact ha k hk,
    fun hm => memWf_copyBytes _ _ _ hm, copyBytes_map _ _ _ _⟩

/-- The operation at ip goes on or ends the command. -/
theorem operation_move {i : Instr} (hb : busy s = true) (hp : s.phase = .ops) (hip : s.dec.ip.toNat < inLenOf s)
    (hc : contextOf i = .stream) (h : exec i (consumeTag s) = .next t) : CoreMove s t := by
  obtain ⟨m, len, hl, he⟩ | ⟨m, offset, len, hl, he⟩ := exec_stream hc
  · rw [he] at h
    obtain ⟨-, ⟨ha, ho, h1, h2, h3, rfl⟩ | ⟨ha, ho, h1, h2, rfl⟩ | ⟨d, err, rfl⟩⟩ := literalOp_next h
    · exact .decoded hb hp ho len _ _ (afterLiteral_advance hip hl ha h1 h2)
        (copyBytes_opMemory _ (of_decide_eq_true h3))
    · exact .shadowed hb hp ho len _ (skipLiteral_advance hip hl ha h1 h2)
    · exact .ends hb err 0#1 0 d s.varint (.inr rfl)
  · rw [he] at h
    obtain ⟨-, ⟨ha, ho, h1, h2, h3, rfl⟩ | ⟨ha, ho, h1, h2, rfl⟩ | ⟨d, err, rfl⟩⟩ := copyOp_next h
    · exact .decoded hb hp ho len _ _ (afterCopy_advance hip hl ha h2) (copyBytes_opMemory _ (of_decide_eq_true h3))
    · exact .shadowed hb hp ho len _ (skipCopy_advance hip hl ha h2)
    · exact .ends hb err 0#1 0 d s.varint (.inr rfl)

/-- The varint's next byte goes on, starts the operations or ends the command. -/
theorem varint_move {b : Byte} (hb : busy s = true) (hp : s.phase = .varint) (he : varintExhausted s = false)
    (h : exec (decodeVarintByte b) (consumeVarintByte s) = .next t) : CoreMove s t := by
  simp only [varintExhausted, Bool.or_eq_false_iff, decide_eq_false_iff_not, Nat.not_le] at he
  obtain ⟨g, e | e⟩ := decodeVarintByte_cases b
  · rw [e] at h
    obtain ⟨-, ⟨-, hs, rfl⟩ | ⟨v, err, rfl⟩⟩ := execVarintMore_next h
    · exact .varintMore hb hp g he.1 he.2 hs
    · exact .ends hb err 0#1 0 s.dec v (.inr rfl)
  · rw [e] at h
    obtain ⟨hr, ⟨-, hg, hl, rfl⟩ | ⟨v, err, valid, r, d, hv, rfl⟩⟩ := execVarintLast_next h
    · refine .varintLast hb hp g he.1 he.2 ?_ hl
      simp only [varintRunning, Bool.and_eq_true, Bool.or_eq_true, decide_eq_true_eq] at hr
      obtain ⟨-, (h1 | h1) | h1⟩ := hr
      · exact absurd h1 hg
      · exact .inl h1
      · exact .inr h1
    · exact .ends hb err valid r d v hv

/-- Every next state of the core's turn is one of its moves. -/
theorem coreOutcome_next (h : coreOutcome s = .next t) : CoreMove s t := by
  obtain ⟨hb, e⟩ | ⟨hb, ⟨hp, e⟩ | ⟨-, -, e⟩ | ⟨hp, he, e⟩ | ⟨hp, hip, i, rest, -, hc, e⟩ | ⟨-, -, e⟩ | ⟨hp, e⟩ |
    ⟨hp, e⟩⟩ := coreOutcome_cases s
  · rw [e] at h; cases h; exact .stays (.inl hb)
  · rw [e] at h; cases h; exact .stays (.inr hp)
  · obtain ⟨err, ef⟩ := varintFail_eq (s := s)
    rw [e, ef] at h; cases h; exact .ends hb err 0#1 0 s.dec s.varint (.inr rfl)
  · rw [e] at h; exact varint_move hb hp he h
  · rw [e] at h; exact operation_move hb hp hip hc h
  · rw [e] at h
    obtain ⟨-, err, valid, r, hv, rfl⟩ := endOfStream_next h
    exact .ends hb err valid r s.dec s.varint hv
  · rw [e] at h
    obtain ⟨hlt, rfl⟩ | ⟨hle, rfl⟩ := fragmentStep_next h
    · exact .fragmentStarts hb hp hlt
    · exact .compressEnds hb hp hle
  · rw [e] at h
    obtain ⟨hg, hm, u, v, hu, hv, rfl⟩ | ⟨hg, hm, rfl⟩ | ⟨hg, u, hu, rfl⟩ := probeStep_next h
    · obtain ⟨n, eu, hn⟩ := emitLiteral_or_none hu
      obtain ⟨copy, hc, ev⟩ := emitCopy_ok hv
      exact .matched hb hp hg hm n copy u v eu hn hc ev
    · exact .skipped hb hp hg hm
    · obtain ⟨n, eu, hn⟩ := emitLiteral_or_none hu
      exact .tail hb hp hg n u eu hn

end

end Sys2Proof.Machine
end

