-- ==== Sys2Proof/Laws/PerInstr.lean ====
section
/-! SUPPORT. Laws/PerInstr.lean: facts of each instruction as syntax, one lemma per constructor. -/

namespace Sys2Proof.Laws.EncodedSize

/-- An instruction's encoding is as many bytes as its form has (R90, R94, R99). -/
def Statement (i : Instr) : Prop := (encode i).length = encodedSize i

theorem litX1 (e : BitVec 8) : Statement (.litX1 e) := by simp [Statement, encode, encodedSize]
theorem litX2 (e : BitVec 16) : Statement (.litX2 e) := by simp [Statement, encode, encodedSize]
theorem litX3 (e : BitVec 24) : Statement (.litX3 e) := by simp [Statement, encode, encodedSize]
theorem litX4 (e : BitVec 32) : Statement (.litX4 e) := by simp [Statement, encode, encodedSize]
theorem litShort (n : BitVec 6) : Statement (.litShort n) := rfl
theorem copy1 (l : BitVec 3) (off : BitVec 11) : Statement (.copy1 l off) := by simp [Statement, encode, encodedSize]
theorem copy2 (l : BitVec 6) (off : BitVec 16) : Statement (.copy2 l off) := by simp [Statement, encode, encodedSize]
theorem copy4 (l : BitVec 6) (off : BitVec 32) : Statement (.copy4 l off) := by simp [Statement, encode, encodedSize]
theorem varintMore (g : BitVec 7) : Statement (.varintMore g) := rfl
theorem varintLast (g : BitVec 7) : Statement (.varintLast g) := rfl
theorem cmdMaxlen (level : BitVec 2) : Statement (.cmdMaxlen level) := by simp [Statement, encode, encodedSize]
theorem cmdCompress (level : BitVec 2) : Statement (.cmdCompress level) := by simp [Statement, encode, encodedSize]
theorem cmdGetlen (level : BitVec 2) : Statement (.cmdGetlen level) := by simp [Statement, encode, encodedSize]
theorem cmdDecompress (level : BitVec 2) : Statement (.cmdDecompress level) := by
  simp [Statement, encode, encodedSize]
theorem cmdValidate (level : BitVec 2) : Statement (.cmdValidate level) := by simp [Statement, encode, encodedSize]

end Sys2Proof.Laws.EncodedSize
end

