-- ==== Sys2Proof/Laws/RoundTrip.lean ====
section
/-! SUPPORT. Laws/RoundTrip.lean: runs joined end to end, and streams of operations that encode a stretch of a text
(42_encoder.md R194). -/

namespace Sys2Proof.Machine

/-- One run after another. -/
theorem Reaches.trans {s u t : State} (h : Reaches s u) (k : Reaches u t) : Reaches s t := by
  induction h with
  | here => exact k
  | next h _ ih => exact .next h (ih k)

/-- A literal's own bytes: its tag, and as many length bytes as the tag asks for. -/
theorem encode_of_literalShape {i : Instr} {m len : Nat} (hw : wellFormed i = true)
    (h : literalShape i = some (m, len)) :
    ∃ tag es, encode i = tag :: es ∧ es.length = operandCount tag ∧ es.length = m ∧ contextOf i = .stream := by
  cases i with
  | litShort n =>
    cases h
    have hc : ∀ n : BitVec 6, shortOk n = true → operandCount (BitVec.ofNat 8 (n.toNat * 4)) = 0 := by decide
    exact ⟨_, [], rfl, (hc n hw).symm, rfl, rfl⟩
  | litX1 e => cases h; exact ⟨_, _, rfl, leBytes_length _ _, leBytes_length _ _, rfl⟩
  | litX2 e => cases h; exact ⟨_, _, rfl, leBytes_length _ _, leBytes_length _ _, rfl⟩
  | litX3 e => cases h; exact ⟨_, _, rfl, leBytes_length _ _, leBytes_length _ _, rfl⟩
  | litX4 e => cases h; exact ⟨_, _, rfl, leBytes_length _ _, leBytes_length _ _, rfl⟩
  | copy1 l off => cases h
  | copy2 l off => cases h
  | copy4 l off => cases h
  | varintMore g => cases h
  | varintLast g => cases h
  | cmdMaxlen level => cases h
  | cmdCompress level => cases h
  | cmdGetlen level => cases h
  | cmdDecompress level => cases h
  | cmdValidate level => cases h

/-- A copy's own bytes: its tag, and as many offset bytes as the tag asks for. -/
theorem encode_of_copyShape {i : Instr} {m offset len : Nat} (h : copyShape i = some (m, offset, len)) :
    wellFormed i = true ∧
      ∃ tag es, encode i = tag :: es ∧ es.length = operandCount tag ∧ es.length = m ∧ contextOf i = .stream := by
  cases i with
  | copy1 l off =>
    cases h
    have hc : ∀ x < 8, ∀ y < 8, operandCount (BitVec.ofNat 8 (1 + x * 4 + y * 32)) = 1 := by decide
    have hy : off.toNat / 256 < 8 := Nat.div_lt_of_lt_mul off.isLt
    exact ⟨rfl, _, _, rfl, (leBytes_length _ _).trans (hc _ l.isLt _ hy).symm, leBytes_length _ _, rfl⟩
  | copy2 l off =>
    cases h
    have hc : ∀ x < 64, operandCount (BitVec.ofNat 8 (2 + x * 4)) = 2 := by decide
    exact ⟨rfl, _, _, rfl, (leBytes_length _ _).trans (hc _ l.isLt).symm, leBytes_length _ _, rfl⟩
  | copy4 l off =>
    cases h
    have hc : ∀ x < 64, operandCount (BitVec.ofNat 8 (3 + x * 4)) = 4 := by decide
    exact ⟨rfl, _, _, rfl, (leBytes_length _ _).trans (hc _ l.isLt).symm, leBytes_length _ _, rfl⟩
  | litShort n => cases h
  | litX1 e => cases h
  | litX2 e => cases h
  | litX3 e => cases h
  | litX4 e => cases h
  | varintMore g => cases h
  | varintLast g => cases h
  | cmdMaxlen level => cases h
  | cmdCompress level => cases h
  | cmdGetlen level => cases h
  | cmdDecompress level => cases h
  | cmdValidate level => cases h

/-- The bytes are a run of literals and copies that produces `text` from position `p` to position `q`. -/
inductive EncodesText (text : Nat → Byte) : List Byte → Nat → Nat → Prop where
  /-- No operation. -/
  | nil (p : Nat) : EncodesText text [] p p
  /-- A literal with its data, then the rest. -/
  | literal {i : Instr} {m len p q : Nat} {data rest : List Byte} (hw : wellFormed i = true)
      (hs : literalShape i = some (m, len)) (hl : data.length = len)
      (hd : ∀ k (h : k < data.length), data[k] = text (p + k)) (hr : EncodesText text rest (p + len) q) :
      EncodesText text (encode i ++ data ++ rest) p q
  /-- A copy, then the rest. -/
  | copy {i : Instr} {m offset len p q : Nat} {rest : List Byte} (hs : copyShape i = some (m, offset, len))
      (h1 : 1 ≤ offset) (h2 : offset ≤ p) (hd : ∀ k < len, text (p + k) = text (p + k - offset))
      (hr : EncodesText text rest (p + len) q) : EncodesText text (encode i ++ rest) p q

section

variable {text : Nat → Byte} {a b : List Byte} {p q r : Nat}

/-- One stretch after another. -/
theorem EncodesText.append (h : EncodesText text a p q) (k : EncodesText text b q r) :
    EncodesText text (a ++ b) p r := by
  induction h with
  | nil => exact k
  | literal hw hs hl hd _ ih => rw [List.append_assoc]; exact .literal hw hs hl hd (ih k)
  | copy hs h1 h2 hd _ ih => rw [List.append_assoc]; exact .copy hs h1 h2 hd (ih k)

/-- Positions rise. -/
theorem EncodesText.le (h : EncodesText text a p q) : p ≤ q := by
  induction h with
  | nil => exact Nat.le_refl _
  | literal _ _ _ _ _ ih => exact Nat.le_trans (Nat.le_add_right _ _) ih
  | copy _ _ _ _ _ ih => exact Nat.le_trans (Nat.le_add_right _ _) ih

end

end Sys2Proof.Machine
end

