-- ==== Sys2Proof/Tests/Slice0.lean ====
section
/-! SUPPORT. Tests/Slice0.lean: small tests, each about one decode or one step, with results from the spec's encodings
and from 95_test_vectors.md (or by hand from the rule named), and a witness for the hypotheses of each obligation. -/

set_option maxRecDepth 8000

open Sys2Proof Sys2Proof.Machine

namespace Sys2Proof.Tests

/-! ### WellFormed: an ill-formed term for each check -/

/-- R85: N = 60 is LIT_X1's, 63 is LIT_X4's; 59 is the last of LIT_SHORT. -/
theorem test_shortOk_refuses : wellFormed (.litShort 60#6) = false ∧ wellFormed (.litShort 63#6) = false ∧
    wellFormed (.litShort 59#6) = true := by decide

/-- R95: LEVEL 0b11 is reserved for every command. -/
theorem test_levelOk_refuses : wellFormed (.cmdMaxlen 3#2) = false ∧ wellFormed (.cmdCompress 3#2) = false ∧
    wellFormed (.cmdGetlen 3#2) = false ∧ wellFormed (.cmdDecompress 3#2) = false ∧
    wellFormed (.cmdValidate 3#2) = false ∧ wellFormed (.cmdCompress 2#2) = true := by decide

/-! ### Decoding: words written out from the spec's encodings, one a constructor -/

/-- R85, T61: tag 0b111011_00, N = 59. -/
theorem test_decode_litShort : decode .stream [0xEC#8] = .ok (.litShort 59#6, []) := by decide
/-- R86, T13: 0xF0, then 0x3C. -/
theorem test_decode_litX1 : decode .stream [0xF0#8, 0x3C#8] = .ok (.litX1 60#8, []) := by decide
/-- R86: 0xF4, then 0xFF 0x00 read little-endian, 255 by hand. -/
theorem test_decode_litX2 : decode .stream [0xF4#8, 0xFF#8, 0x00#8] = .ok (.litX2 255#16, []) := by decide
/-- R86, T18: 0xF8, then three bytes, the last the most significant. -/
theorem test_decode_litX3 : decode .stream [0xF8#8, 0x00#8, 0x00#8, 0x01#8] = .ok (.litX3 65536#24, []) := by decide
/-- R86, T20: 0xFC, then four bytes. -/
theorem test_decode_litX4 :
    decode .stream [0xFC#8, 0x00#8, 0x00#8, 0x00#8, 0x01#8] = .ok (.litX4 16777216#32, []) := by decide
/-- R87, T38: tag 0b111_000_01 and 0xFF: length 4, offset 2047. -/
theorem test_decode_copy1 : decode .stream [0xE1#8, 0xFF#8] = .ok (.copy1 0#3 2047#11, []) := by decide
/-- R88, T43: tag 0b001010_10 and 0x0800: length 11, offset 2048. -/
theorem test_decode_copy2 : decode .stream [0x2A#8, 0x00#8, 0x08#8] = .ok (.copy2 10#6 2048#16, []) := by decide
/-- R89, T49: tag 0b111111_11 and 0x00010000: length 64, offset 65536. -/
theorem test_decode_copy4 :
    decode .stream [0xFF#8, 0x00#8, 0x00#8, 0x01#8, 0x00#8] = .ok (.copy4 63#6 65536#32, []) := by decide
/-- R81: C = 1, G = 0x2C. -/
theorem test_decode_varintMore : decode .varintByte [0xAC#8] = .ok (.varintMore 0x2C#7, []) := by decide
/-- R81: C = 0, G = 0x7F. -/
theorem test_decode_varintLast : decode .varintByte [0x7F#8] = .ok (.varintLast 0x7F#7, []) := by decide
/-- R94: OPCODE 0b001. -/
theorem test_decode_cmdMaxlen : decode .command [0x01#8, 0, 0, 0, 0, 0, 0, 0] = .ok (.cmdMaxlen 0#2, []) := by decide
/-- R94: OPCODE 0b010, LEVEL 0b10 at bits 5:4. -/
theorem test_decode_cmdCompress : decode .command [0x22#8, 0, 0, 0, 0, 0, 0, 0] = .ok (.cmdCompress 2#2, []) := by decide
/-- R94: OPCODE 0b011, LEVEL 0b01. -/
theorem test_decode_cmdGetlen : decode .command [0x13#8, 0, 0, 0, 0, 0, 0, 0] = .ok (.cmdGetlen 1#2, []) := by decide
/-- R94: OPCODE 0b100. -/
theorem test_decode_cmdDecompress :
    decode .command [0x04#8, 0, 0, 0, 0, 0, 0, 0] = .ok (.cmdDecompress 0#2, []) := by decide
/-- R94: OPCODE 0b101. -/
theorem test_decode_cmdValidate : decode .command [0x05#8, 0, 0, 0, 0, 0, 0, 0] = .ok (.cmdValidate 0#2, []) := by decide

/-- R95, vector R6: reserved OPCODEs, LEVEL and bits are rejected, each by its name. -/
theorem test_decode_reserved : decodeCommand 0x00#64 = .error .reservedOpcode ∧
    decodeCommand 0x06#64 = .error .reservedOpcode ∧ decodeCommand 0x07#64 = .error .reservedOpcode ∧
    decodeCommand 0x32#64 = .error .reservedLevel ∧ decodeCommand 0x0A#64 = .error .reservedBits ∧
    decodeCommand 0x42#64 = .error .reservedBits ∧ decodeCommand 0x8000000000000002#64 = .error .reservedBits := by decide

/-- R93: a form with a byte missing is truncated. -/
theorem test_decode_truncated : decode .stream [0xF4#8, 0x00#8] = .error .truncated ∧
    decode .stream [] = .error .truncated ∧ decode .varintByte [] = .error .truncated ∧
    decode .command [0x01#8] = .error .truncated := by decide

/-- The table's words, bit 0 the first byte's bit 0. -/
theorem test_decodeTableWord : decodeTableWord 8 0xF8 = some (.litX3 0#24) ∧ decodeTableWord 8 0x03 = some (.copy4 0#6 0#32) ∧
    decodeTableWord 64 0x15 = some (.cmdValidate 1#2) ∧ decodeTableWord 64 0x08 = none := by decide

/-! ### States for one step -/

/-- IN at 0x1000, OUT at 0x2000, as the window's registers and as latched by a command, on a platform whose MemMap
gives 0x2000 and 0x9000 one byte and 0xA000 none, and whose window stands at 0x8000. -/
def base (opcode : BitVec 3) (inp out : List Byte) (outLen : Nat) : State :=
  { State.reset with
    inBase := 0x1000, inLen := BitVec.ofNat 64 inp.length, outBase := 0x2000, outLen := BitVec.ofNat 64 outLen
    latch := Latch.mk opcode 0 0x1000 (BitVec.ofNat 64 inp.length) 0x2000 (BitVec.ofNat 64 outLen)
    mem := storeBytes out 0x2000 (storeBytes inp 0x1000 { map := [(0x2000, some 0x9000), (0xA000, none)], cells := [] })
    windowBase := 0x8000 }

/-- A stream command in its operation loop. -/
def inOps (opcode : BitVec 3) (inp out : List Byte) (outLen L ip op : Nat) : State :=
  { base opcode inp out outLen with
    status := statusRunning, phase := .ops
    dec := DecRegs.mk (BitVec.ofNat 32 L) (BitVec.ofNat 64 ip) (BitVec.ofNat 64 op) 0 0 0 0 }

/-- A stream command in its varint. -/
def inVarint (opcode : BitVec 3) (inp : List Byte) (outLen acc shift count : Nat) : State :=
  { base opcode inp [] outLen with
    status := statusRunning, phase := .varint
    varint := VarintRegs.mk (BitVec.ofNat 35 acc) (BitVec.ofNat 6 shift) (BitVec.ofNat 3 count) }

/-- COMPRESS of `n` bytes 0x00, which memory that lists nothing holds, in its fragment or probe loop. -/
def inEncoder (phase : Phase) (n base op len bits ip nextEmit skip : Nat) (ht : List (Nat × BitVec 16)) : State :=
  { Tests.base opCompress (List.replicate n 0) [] (Config.maxCompressedLength n) with
    status := statusRunning, phase := phase, ht := ht
    enc := EncRegs.mk (BitVec.ofNat 64 n) (BitVec.ofNat 64 op) (BitVec.ofNat 64 base) (BitVec.ofNat 17 len)
      (BitVec.ofNat 4 bits) (BitVec.ofNat 17 ip) (BitVec.ofNat 17 nextEmit) (BitVec.ofNat 64 skip) 0 0 0 0 }

/-- The system address of a window offset on that platform. -/
def window (off : BitVec 8) : Addr := 0x8000 + off.setWidth 64

/-- No command runs; the host's next action is `a`. -/
def hostIdle (inp : List Byte) (outLen : Nat) (a : HostAction) : State := { base 0 inp [] outLen with host := [a] }

/-- No command runs, on a platform with that MemMap, with those regions. -/
def regions (map : MemMap) (inBase inLen outBase outLen : BitVec 64) : State :=
  { State.reset with
    inBase := inBase, inLen := inLen, outBase := outBase, outLen := outLen, mem := { map := map, cells := [] } }

/-- The next state, where there is one. -/
def nextOf (r : Result) : Option State :=
  match r with
  | .next t => some t
  | .fault _ => none
  | .refused _ => none

/-- STATUS and RESULT of a next state. -/
def ended (r : Result) : Option (BitVec 64 × BitVec 64) := (nextOf r).map fun t => (t.status, t.result)

/-- ip, op and the first `n` bytes of OUT of a next state. -/
def moved (n : Nat) (r : Result) : Option (BitVec 64 × BitVec 64 × List Byte) :=
  (nextOf r).map fun t => (t.dec.ip, t.dec.op, (List.range n).map (outByte t))

/-- The varint unit and STATUS of a next state. -/
def varintOf (r : Result) : Option (VarintRegs × BitVec 64) := (nextOf r).map fun t => (t.varint, t.status)

/-- The encoder's op, base, ip, next_emit and skip, and the first `n` bytes of OUT, of a next state. -/
def encoderOf (n : Nat) (r : Result) : Option (List Nat × List Byte) :=
  (nextOf r).map fun t =>
    ([t.enc.op.toNat, t.enc.base.toNat, t.enc.ip.toNat, t.enc.nextEmit.toNat, t.enc.skip.toNat],
      (List.range n).map (outByte t))

/-- The name of a refusal. -/
def refusalOf (r : Result) : Option Refusal :=
  match r with
  | .next _ => none
  | .fault _ => none
  | .refused e => some e

/-- The step answers a next state. -/
def goesOn (r : Result) : Bool := (nextOf r).isSome

/-! ### Stream operations -/

/-- P1 step 1: LIT_SHORT "abc". -/
theorem test_litShort_moves :
    moved 3 (step (inOps opDecompress [9, 8, 0x61, 0x62, 0x63, 0x16, 3, 0] [] 16 9 1 0)) =
      some (5, 3, [0x61, 0x62, 0x63]) := by decide
/-- D24: `03 0C 61 62 63`, NEED(4) fails. -/
theorem test_litShort_truncated :
    ended (step (inOps opDecompress [3, 0x0C, 0x61, 0x62, 0x63] [] 16 3 1 0)) = some (0x0E, 0) := by decide
/-- D4: `01 F0 00 41`. -/
theorem test_litX1_moves : moved 1 (step (inOps opDecompress [1, 0xF0, 0, 0x41] [] 1 1 1 0)) = some (4, 1, [0x41]) := by
  decide
/-- R228 by hand: LE(01, 00) + 1 = 2. -/
theorem test_litX2_moves :
    moved 3 (step (inOps opDecompress [2, 0xF4, 1, 0, 0x61, 0x62] [] 3 2 1 0)) = some (6, 2, [0x61, 0x62, 0]) := by decide
/-- D26: NEED(2) fails with one length byte. -/
theorem test_litX2_truncated : ended (step (inOps opDecompress [3, 0xF4, 0] [] 3 3 1 0)) = some (0x0E, 0) := by decide
/-- D6: `05 F8 04 00 00 01 02 03 04 05`. -/
theorem test_litX3_moves :
    moved 5 (step (inOps opDecompress [5, 0xF8, 4, 0, 0, 1, 2, 3, 4, 5] [] 5 5 1 0)) =
      some (10, 5, [1, 2, 3, 4, 5]) := by decide
/-- D7: `03 FC 02 00 00 00 61 62 63`. -/
theorem test_litX4_moves :
    moved 3 (step (inOps opDecompress [3, 0xFC, 2, 0, 0, 0, 0x61, 0x62, 0x63] [] 3 3 1 0)) =
      some (9, 3, [0x61, 0x62, 0x63]) := by decide
/-- D27: a length of 2^32, NEED(2^32) fails. -/
theorem test_litX4_longest :
    ended (step (inOps opDecompress [1, 0xFC, 0xFF, 0xFF, 0xFF, 0xFF] [] 1 1 1 0)) = some (0x0E, 0) := by decide
/-- D9: COPY1 offset 3 length 6 after "abc". -/
theorem test_copy1_overlaps :
    moved 9 (step (inOps opDecompress [9, 8, 0x61, 0x62, 0x63, 9, 3] [0x61, 0x62, 0x63] 9 9 5 3)) =
      some (7, 9, [0x61, 0x62, 0x63, 0x61, 0x62, 0x63, 0x61, 0x62, 0x63]) := by decide
/-- P4 step 2: offset 3 > op = 2. -/
theorem test_copy1_offset_past_op :
    ended (step (inOps opDecompress [8, 4, 0x61, 0x62, 0x0D, 3] [0x61, 0x62] 8 8 4 2)) = some (0x0E, 0) := by decide
/-- P1 step 2: COPY2 offset 3 length 6. -/
theorem test_copy2_overlaps :
    moved 10 (step (inOps opDecompress [9, 8, 0x61, 0x62, 0x63, 0x16, 3, 0] [0x61, 0x62, 0x63] 16 9 5 3)) =
      some (8, 9, [0x61, 0x62, 0x63, 0x61, 0x62, 0x63, 0x61, 0x62, 0x63, 0]) := by decide
/-- D33: length 64 > L − op = 6. -/
theorem test_copy2_too_long :
    ended (step (inOps opDecompress [8, 4, 0x61, 0x62, 0xFE, 1, 0] [0x61, 0x62] 8 8 4 2)) = some (0x0E, 0) := by decide
/-- R234 by hand: `0F 01 00 00 00`, length 4 at offset 1: each byte reads the one just written. -/
theorem test_copy4_overlaps :
    moved 5 (step (inOps opDecompress [5, 0, 0x61, 0x0F, 1, 0, 0, 0] [0x61] 5 5 3 1)) =
      some (8, 5, [0x61, 0x61, 0x61, 0x61, 0x61]) := by decide
/-- D32: offset 2^32 − 1 > op. -/
theorem test_copy4_offset_past_op :
    ended (step (inOps opDecompress [2, 0, 0x61, 0xFF, 0xFF, 0xFF, 0xFF, 0xFF] [0x61] 2 2 3 1)) = some (0x0E, 0) := by decide
/-- R268 and 2.7: VALIDATE's shadow of D9 advances and writes nothing; its failures give VALID = 0. -/
theorem test_validate_shadows :
    moved 4 (step (inOps opValidate [9, 8, 0x61, 0x62, 0x63, 9, 3] [] 0 9 5 3)) = some (7, 9, [0, 0, 0, 0]) ∧
      ended (step (inOps opValidate [8, 4, 0x61, 0x62, 0x0D, 3] [] 0 8 4 2)) = some (0x02, 0) := by decide
/-- R268: the shadow of a copy writes no k. -/
theorem test_validate_keeps_k : (nextOf (step (inOps opValidate [9, 8, 0x61, 0x62, 0x63, 9, 3] [] 0 9 5 3))).map (·.dec.k) =
    some 0 := by decide
/-- D1, D34 and 2.7: the ends of the stream. -/
theorem test_end_of_stream :
    ended (step (inOps opDecompress [9, 8, 0x61, 0x62, 0x63, 9, 3] [] 9 9 7 9)) = some (0x02, 9) ∧
      ended (step (inOps opDecompress [0x0B, 4, 0x61, 0x62, 0x16, 1, 0] [] 11 11 7 8)) = some (0x0E, 0) ∧
      ended (step (inOps opValidate [9, 8, 0x61, 0x62, 0x63, 9, 3] [] 0 9 7 9)) = some (0x12, 0) := by decide

/-! ### The varint -/

/-- V5: `AC 02`, the first byte. -/
theorem test_varintMore_adds :
    varintOf (step (inVarint opGetlen [0xAC, 2] 0 0 0 0)) = some (VarintRegs.mk 0x2C 7 1, 0x01) := by decide
/-- V24: `FF FF FF FF 8F`, the fifth byte goes on. -/
theorem test_varintMore_fifth :
    ended (step (inVarint opDecompress [0xFF, 0xFF, 0xFF, 0xFF, 0x8F] 9 0xFFFFFFF 28 4)) = some (0x0E, 0) := by decide
/-- V5: `AC 02`, the last byte, under GETLEN. -/
theorem test_varintLast_getlen : ended (step (inVarint opGetlen [0xAC, 2] 0 0x2C 7 1)) = some (0x12, 300) := by decide
/-- R45, R333: GETLEN leaves ip just past the varint and op 0. -/
theorem test_varintLast_getlen_cursors :
    (nextOf (step { inVarint opGetlen [0xAC, 2] 0 0x2C 7 1 with dec := DecRegs.mk 9 9 9 0 0 0 0 })).map (·.dec) =
      some (DecRegs.mk 300 2 0 0 0 0 0) := by decide
/-- V25, G5: the fifth byte's G[6:4] ≠ 0; G4: FF FF FF FF 0F. -/
theorem test_varintLast_fifth :
    ended (step (inVarint opGetlen [0xFF, 0xFF, 0xFF, 0xFF, 0x10] 0 0xFFFFFFF 28 4)) = some (0x02, 0) ∧
      ended (step (inVarint opGetlen [0xFF, 0xFF, 0xFF, 0xFF, 0x0F] 0 0xFFFFFFF 28 4)) = some (0x12, 4294967295) := by decide
/-- D22: L = 5 with OUT_LEN = 4; D20: no byte at all. -/
theorem test_varint_decompress :
    ended (step (inVarint opDecompress [5, 0, 0x61, 1, 1] 4 0 0 0)) = some (0x0A, 0) ∧
      ended (step (inVarint opDecompress [] 4 0 0 0)) = some (0x0E, 0) := by decide

/-! ### Commands and the window -/

/-- M9 and R2: MAXLEN of 2^64 − 1 and of 0. -/
theorem test_maxlen :
    ended (exec (.cmdMaxlen 0) { State.reset with inLen := 0xFFFFFFFFFFFFFFFF }) = some (0x02, 3074457345618258633) ∧
      ended (step { State.reset with host := [.write 0 .w64 1] }) = some (0x02, 32) := by decide
/-- E30 and E32: the two errors of COMPRESS. -/
theorem test_compress_errors :
    ended (step (hostIdle [0x41] 32 (.write (window 0) .w64 2))) = some (0x0A, 0) ∧
      ended (exec (.cmdCompress 0) { State.reset with inLen := 0x100000000, outBase := 0xF00000000 }) = some (0x06, 0) := by
  decide
/-- R173: COMPRESS of 300 bytes starts with the varint AC 02 (V5). -/
theorem test_compress_starts :
    encoderOf 3 (exec (.cmdCompress 0) { State.reset with inLen := 300, outBase := 0x2000, outLen := 382 }) =
      some ([2, 0, 0, 0, 0], [0xAC, 2, 0]) := by decide
/-- R275, R220, R260: the three stream commands start their varint with BUSY = 1. -/
theorem test_stream_commands_start :
    ended (step (hostIdle [9, 8] 9 (.write (window 0) .w64 3))) = some (0x01, 0) ∧
      ended (step (hostIdle [9, 8] 9 (.write (window 0) .w64 4))) = some (0x01, 0) ∧
      ended (step (hostIdle [9, 8] 9 (.write (window 0) .w64 5))) = some (0x01, 0) := by decide
/-- Vectors R6, R8, R9, R10: accesses that change nothing, and CMD reads 0. -/
theorem test_window_inert :
    nextOf (step (hostIdle [] 0 (.write (window 0) .w64 0x32))) = some (base 0 [] [] 0) ∧
      nextOf (step { inOps opDecompress [0] [] 0 0 1 0 with host := [.write (window 0x18) .w64 7] }) =
        some (inOps opDecompress [0] [] 0 0 1 0) ∧
      nextOf (step (hostIdle [] 0 (.read (window 0) .w64))) = some (base 0 [] [] 0) ∧
      nextOf (step (hostIdle [] 0 (.write (window 0x08) .w64 7))) = some (base 0 [] [] 0) ∧
      nextOf (step (hostIdle [] 0 (.write (window 0x30) .w64 7))) = some (base 0 [] [] 0) := by decide

/-- R7, R61: DECOMPRESS writes OUT's first byte at 0x2000, and the host reads it at 0x9000, which names the same byte. -/
theorem test_memMap_alias :
    (nextOf (step (inOps opDecompress [1, 0, 0x41] [] 1 1 1 0))).map (fun t => memRead t.mem 0x9000) = some 0x41 ∧
      (nextOf (step { base 0 [] [7] 1 with host := [.load 0x9000] })).map (·.hostData) = some 7 := by decide
/-- R61, R64: COMPRESS into an OUT that MemMap makes IN's byte, or whose two bytes it makes one, and GETLEN of an IN without
memory, are refused; GETLEN at an alias is not. -/
theorem test_memMap_refusals :
    refusalOf (exec (.cmdCompress 0) (regions [(0x2000, some 0x1000)] 0x1000 1 0x2000 33)) = some .regionsOverlap ∧
      refusalOf (exec (.cmdDecompress 0) (regions [(0x2000, some 0x2001)] 0x1000 1 0x2000 33)) = some .regionsOverlap ∧
      refusalOf (exec (.cmdGetlen 0) (regions [(0x1000, none)] 0x1000 1 0 0)) = some .notMapped ∧
      goesOn (exec (.cmdGetlen 0) (regions [(0x2000, some 0x1000)] 0x2000 1 0 0)) = true := by decide

/-! ### The encoder -/

/-- H2, H4 and the table sizes of 2.3. -/
theorem test_hash_and_tables : hashOf 8 1#32 = 26 ∧ hashOf 15 0x64636261#32 = 22352 ∧ tableBitsFor 256 = 8 ∧
    tableBitsFor 257 = 9 ∧ tableBitsFor 16385 = 15 ∧ tableBitsFor 65536 = 15 := by decide
/-- Trace E4 with bytes 00 (H1: h = 0): the probe at ip 1 misses by the sentinel, the one at ip 2 matches. -/
theorem test_probe_trace :
    encoderOf 2 (step (inEncoder .probe 20 0 1 20 8 1 0 33 [])) = some ([1, 0, 2, 0, 34], [0, 0]) ∧
      encoderOf 7 (step (inEncoder .probe 20 0 1 20 8 2 0 34 [(0, 1)])) =
        some ([7, 0, 20, 20, 32], [0, 4, 0, 0, 0x46, 1, 0]) := by decide
/-- E5 with bytes 00: a fragment of 15 bytes is one literal. -/
theorem test_tail_literal :
    encoderOf 2 (step (inEncoder .probe 15 0 1 15 8 0 0 32 [])) = some ([17, 15, 0, 0, 32], [0, 0x38]) := by decide
/-- T30, T34, T35, T41, T48: EMIT_COPY's bytes. -/
theorem test_emitCopy : emitCopyBytes 1 4 = some [0x01, 0x01] ∧ emitCopyBytes 1 64 = some [0xFE, 1, 0] ∧
    emitCopyBytes 1 65 = some [0xFE, 1, 0, 0x02, 1, 0] ∧ emitCopyBytes 65536 4 = some [0x0F, 0, 0, 1, 0] ∧
    emitCopyBytes 300 70 = some [0xFE, 0x2C, 1, 0x16, 0x2C, 1] := by decide
/-- T12, T13, T19, T20, and the domain of R142. -/
theorem test_tagEncLiteral : tagEncLiteral 60 = some [0xEC] ∧ tagEncLiteral 61 = some [0xF0, 0x3C] ∧
    tagEncLiteral 16777216 = some [0xF8, 0xFF, 0xFF, 0xFF] ∧ tagEncLiteral 16777217 = some [0xFC, 0, 0, 0, 1] ∧
    tagEncLiteral 0 = none := by decide

/-- The tables' words run as the first instruction after reset: STATUS after the step. -/
theorem test_withFetchWord :
    (ended (step (State.reset.withFetchWord 64 0x01))).map (·.1) = some 0x02 ∧
      (ended (step (State.reset.withFetchWord 64 0x03))).map (·.1) = some 0x01 ∧
      goesOn (step (State.reset.withFetchWord 8 0xF0)) = true ∧
      goesOn (step (State.reset.withFetchWord 8 0x03)) = true := by decide

/-! ### Witnesses: states and operands that meet each obligation's hypotheses, at their boundaries -/

theorem witness_DecodeEncodeAgree : wellFormed (.litShort 59#6) = true ∧ wellFormed (.cmdValidate 2#2) = true ∧
    wellFormed (.copy1 7#3 2047#11) = true ∧ wellFormed (.varintMore 127#7) = true := by decide

theorem witness_EncodeDecodeAgree : decode .stream [0xEC#8, 0xAA#8] = .ok (.litShort 59#6, [0xAA#8]) ∧
    decode .varintByte [0xFF#8] = .ok (.varintMore 127#7, []) ∧
    decode .command [0x25#8, 0, 0, 0, 0, 0, 0, 0] = .ok (.cmdValidate 2#2, []) := by decide

/-- Every clause's tag, at the first and the last of its values. -/
theorem witness_EveryTagSelectsOneOperation : operandCount 0xFC#8 ≤ [0#8, 0#8, 0#8, 0#8].length ∧
    (0xEC#8 &&& 0x03#8 = 0x00#8 ∧ (0xEC#8).toNat ≤ 0xEC) ∧ (0x00#8 &&& 0x03#8 = 0x00#8) ∧
    0xFD#8 &&& 0x03#8 = 0x01#8 ∧ 0x01#8 &&& 0x03#8 = 0x01#8 ∧ 0xFE#8 &&& 0x03#8 = 0x02#8 ∧
    0x02#8 &&& 0x03#8 = 0x02#8 ∧ 0xFF#8 &&& 0x03#8 = 0x03#8 ∧ 0x03#8 &&& 0x03#8 = 0x03#8 := by decide

/-- R143 to R145's corner cases at both ends of the copy domains, and the ends of TAG_ENC_LITERAL's two forms (T12, T21, T61,
T63). -/
theorem witness_TagCodecInverse : tagEncCopy1 2047 11 = some [0xFD#8, 0xFF#8] ∧ tagEncCopy1 0 4 = some [0x01#8, 0x00#8] ∧
    tagEncCopy2 65535 64 = some [0xFE#8, 0xFF#8, 0xFF#8] ∧ tagEncCopy2 0 1 = some [0x02#8, 0x00#8, 0x00#8] ∧
    tagEncCopy4 (2 ^ 32 - 1) 64 = some [0xFF#8, 0xFF#8, 0xFF#8, 0xFF#8, 0xFF#8] ∧
    (1 ≤ 1 ∧ 1 ≤ 2 ^ 32) ∧ tagEncLiteral (2 ^ 32) = some [0xFC#8, 0xFF#8, 0xFF#8, 0xFF#8, 0xFF#8] ∧
    tagEncLiteral 60 = some [0xEC#8] ∧ litShortLen 0xEC#8 = 60 ∧ litShortLen 0xFC#8 = 4 := by decide

/-- m = 1 holds 127 and not 128. -/
theorem witness_VarintRoundTrip : (1 ≤ 1 ∧ (127#32).toNat < 2 ^ (7 * 1)) ∧ ¬(128#32).toNat < 2 ^ (7 * 1) ∧
    varintBytes 4294967295#32 = [0xFF#8, 0xFF#8, 0xFF#8, 0xFF#8, 0x0F#8] := by decide

theorem witness_EmitCopyCoversTheMatch : (1 ≤ 65535 ∧ 65535 ≤ 65535 ∧ 4 ≤ 4) ∧ (1 ≤ 1 ∧ 1 ≤ 65535 ∧ 4 ≤ 65535) := by
  decide

/-- Each window register's offset, and both ends of the reserved offsets. -/
theorem witness_WindowReads : ∀ off ∈ [0x00#8, 0x08#8, 0x10#8, 0x18#8, 0x20#8, 0x28#8, 0x30#8, 0x38#8, 0xF8#8],
    (hostIdle [] 0 (.read (window off) .w64)).host =
        .read ((hostIdle [] 0 (.read (window off) .w64)).windowBase + off.setWidth 64) .w64 :: [] ∧
      off.toNat % 8 = 0 := by decide

theorem witness_WindowWrites : ∀ off ∈ [0x08#8, 0x10#8, 0x18#8, 0x20#8, 0x28#8, 0x30#8],
    (hostIdle [] 0 (.write (window off) .w64 7)).host = .write (window off) .w64 7 :: [] ∧
      busy (hostIdle [] 0 (.write (window off) .w64 7)) = false := by decide

theorem witness_ReservedOffsetsInert : ∀ off ∈ [0x38#8, 0xFF#8], 0x38 ≤ off.toNat ∧
    (hostIdle [] 0 (.read (window off) .w8)).host = .read (window off) .w8 :: [] ∧
    (hostIdle [] 0 (.write (window off) .w64 7)).host = .write (window off) .w64 7 :: [] := by decide

/-- A write while a command runs; a narrow one; an unaligned one; a narrow and an unaligned read; the addresses just above
and just below the window. -/
theorem witness_IgnoredWindowAccesses :
    busy { inOps opDecompress [0] [] 0 0 1 0 with host := [.write (window 0x18) .w64 7] } = true ∧
      (hostIdle [] 0 (.write (window 0x18) .w32 7)).host = .write (window 0x18) .w32 7 :: [] ∧ AccessWidth.w32 ≠ .w64 ∧
      (0x1C#8).toNat % 8 ≠ 0 ∧ (hostIdle [] 0 (.read (window 0x1C) .w64)).host = .read (window 0x1C) .w64 :: [] ∧
      window 0x18 = (hostIdle [] 0 .core).windowBase + (0x18#8).setWidth 64 ∧
      256 ≤ (0x8100#64 - (hostIdle [] 0 .core).windowBase).toNat ∧
      256 ≤ (0x7FFF#64 - (hostIdle [] 0 .core).windowBase).toNat := by decide

/-- Vector R6's values, one for each reserved field. -/
theorem witness_ReservedCommandChangesNothing : (0x32#64).extractLsb' 4 2 = 3#2 ∧ (0x00#64).extractLsb' 0 3 = 0#3 ∧
    (0x06#64).extractLsb' 0 3 = 6#3 ∧ (0x07#64).extractLsb' 0 3 = 7#3 ∧
    (hostIdle [] 0 (.write (window 0) .w64 0x32)).host =
      .write (hostIdle [] 0 .core).windowBase .w64 0x32 :: [] := by decide

/-- The first and last bytes of IN and OUT that a command holds, the bytes just outside, another address of a held byte, and
an address without memory. -/
theorem witness_HostMemoryAccesses :
    HeldAsOut (inOps opDecompress [1, 0, 0x41] [] 1 1 1 0) 0x2000 ∧
      HeldAsOut (inOps opDecompress [1, 0, 0x41] [] 1 1 1 0) 0x9000 ∧
      ¬ HeldAsOut (inOps opDecompress [1, 0, 0x41] [] 1 1 1 0) 0x2001 ∧
      HeldAsIn (inOps opDecompress [1, 0, 0x41] [] 1 1 1 0) 0x1002 ∧
      ¬ HeldAsIn (inOps opDecompress [1, 0, 0x41] [] 1 1 1 0) 0x1003 ∧
      ¬ HeldAsOut (inOps opDecompress [1, 0, 0x41] [] 1 1 1 0) 0x1003 ∧
      memWf (inOps opDecompress [1, 0, 0x41] [] 1 1 1 0).mem = true ∧
      mapAddr (inOps opDecompress [1, 0, 0x41] [] 1 1 1 0).mem.map 0x2000 ≠ none ∧
      mapAddr (inOps opDecompress [1, 0, 0x41] [] 1 1 1 0).mem.map 0x9000 ≠ none ∧
      mapAddr (inOps opDecompress [1, 0, 0x41] [] 1 1 1 0).mem.map 0x2001 ≠ none ∧
      mapAddr (inOps opDecompress [1, 0, 0x41] [] 1 1 1 0).mem.map 0x1002 ≠ none ∧
      mapAddr (inOps opDecompress [1, 0, 0x41] [] 1 1 1 0).mem.map 0x1003 ≠ none ∧
      mapAddr (inOps opDecompress [1, 0, 0x41] [] 1 1 1 0).mem.map 0xA000 = none ∧
      (hostIdle [] 0 (.load 0x2001)).host = .load 0x2001 :: [] ∧
      (hostIdle [] 0 (.store 0x1003 7)).host = .store 0x1003 7 :: [] := by decide

/-- Reset with no command, in COMPRESS, in the operations of DECOMPRESS, in its varint (one that parses and fits, one that
parses and does not, one that fails), and in VALIDATE. -/
theorem witness_ResetSignal : busy (hostIdle [] 0 .reset) = false ∧ (hostIdle [] 0 .reset).host = .reset :: [] ∧
    busy (inEncoder .probe 20 0 1 20 8 0 0 32 []) = true ∧
    (inEncoder .probe 20 0 1 20 8 0 0 32 []).latch.opcode = opCompress ∧
    (busy (inOps opDecompress [1, 0, 0x41] [] 1 1 1 0) = true ∧
      (inOps opDecompress [1, 0, 0x41] [] 1 1 1 0).latch.opcode = opDecompress ∧
      (inOps opDecompress [1, 0, 0x41] [] 1 1 1 0).phase = .ops) ∧
    (busy (inVarint opDecompress [0xAC, 2] 300 0x2C 7 1) = true ∧
      (inVarint opDecompress [0xAC, 2] 300 0x2C 7 1).phase = .varint ∧
      varintDecode (varintWindow (inVarint opDecompress [0xAC, 2] 300 0x2C 7 1)) = some (300, 2) ∧
      varintDecode (varintWindow (inVarint opDecompress [0xAC] 300 0x2C 7 1)) = none ∧
      300 ≤ outLenOf (inVarint opDecompress [0xAC, 2] 300 0x2C 7 1) ∧
      outLenOf (inVarint opDecompress [0xAC, 2] 299 0x2C 7 1) < 300) ∧
    (inOps opValidate [1, 0, 0x41] [] 1 1 1 0).latch.opcode = opValidate := by decide

theorem witness_IdleDoesNothing : State.reset.host = [] ∧ busy State.reset = false := by decide

/-- The last byte of IN is a tag whose operand byte is missing, and one whose operand byte is there; the host has nothing to
do, or leaves the turn to the core. -/
theorem witness_StepRunsStreamOperation :
    opsRunning (inOps opDecompress [1, 0xF0] [] 1 1 1 0) = true ∧
      (inOps opDecompress [1, 0xF0] [] 1 1 1 0).dec.ip.toNat < inLenOf (inOps opDecompress [1, 0xF0] [] 1 1 1 0) ∧
      inByte (inOps opDecompress [1, 0xF0] [] 1 1 1 0) 1 = 0xF0#8 ∧ operandCount 0xF0#8 = 1 ∧
      ¬ 1 + 1 + 0 < inLenOf (inOps opDecompress [1, 0xF0] [] 1 1 1 0) ∧
      decode .stream [0xF0#8, 0#8] = .ok (.litX1 0#8, []) ∧
      1 + 1 + 0 < inLenOf (inOps opDecompress [1, 0xF0, 7] [] 1 1 1 0) ∧
      decode .stream [0xF0#8, 7#8] = .ok (.litX1 7#8, []) ∧
      (inOps opDecompress [1, 0xF0] [] 1 1 1 0).host = [] ∧
      { inOps opDecompress [1, 0xF0] [] 1 1 1 0 with host := [.core] }.host = .core :: [] := by decide

theorem witness_StepRunsVarintByte : busy (inVarint opGetlen [0xAC, 2] 0 0x2C 7 1) = true ∧
    (inVarint opGetlen [0xAC, 2] 0 0x2C 7 1).phase = .varint ∧
    (inVarint opGetlen [0xAC, 2] 0 0x2C 7 1).varint.count ≠ 5#3 ∧
    (inVarint opGetlen [0xAC, 2] 0 0x2C 7 1).varint.count.toNat < inLenOf (inVarint opGetlen [0xAC, 2] 0 0x2C 7 1) ∧
    decode .varintByte [inByte (inVarint opGetlen [0xAC, 2] 0 0x2C 7 1) 1] = .ok (.varintLast 2#7, []) ∧
    (inVarint opGetlen [0xAC, 2] 0 0x2C 7 1).host = [] := by decide

theorem witness_StepRunsCommandWrite :
    (hostIdle [] 0 (.write (window 0) .w64 0x2A)).host =
        .write (hostIdle [] 0 .core).windowBase .w64 0x2A :: [] ∧
      busy (hostIdle [] 0 (.write (window 0) .w64 0x2A)) = false ∧
      decode .command (leBytes 8 (0x2A#64 &&& 0x37#64).toNat) = .ok (.cmdCompress 2#2, []) := by decide

theorem witness_CommandIgnoredWhileBusy : contextOf (.cmdMaxlen 0) = .command ∧
    busy (inOps opDecompress [1, 0] [] 1 1 1 0) = true := by decide

theorem witness_MaxlenCompletes : busy State.reset = false := by decide

/-- IN_LEN on both sides of the first check, OUT_LEN one short of the second and just enough, with OUT just past IN. -/
def compressArguments (inLen outLen : BitVec 64) : State :=
  { State.reset with inLen := inLen, outBase := 0x100000000, outLen := outLen }

theorem witness_CompressArgumentChecks :
    (busy (compressArguments 0x100000000 0) = false ∧
      inOutReady (compressArguments 0x100000000 0) ∧
      2 ^ 32 - 1 < (compressArguments 0x100000000 0).inLen.toNat) ∧
    (busy (compressArguments 0xFFFFFFFF 5010795208) = false ∧
      inOutReady (compressArguments 0xFFFFFFFF 5010795208) ∧
      (compressArguments 0xFFFFFFFF 5010795208).inLen.toNat ≤ 2 ^ 32 - 1 ∧
      (compressArguments 0xFFFFFFFF 5010795208).outLen.toNat <
        32 + (compressArguments 0xFFFFFFFF 5010795208).inLen.toNat +
          (compressArguments 0xFFFFFFFF 5010795208).inLen.toNat / 6) ∧
    32 + (compressArguments 0xFFFFFFFF 5010795209).inLen.toNat +
        (compressArguments 0xFFFFFFFF 5010795209).inLen.toNat / 6 ≤
      (compressArguments 0xFFFFFFFF 5010795209).outLen.toNat := by decide

theorem witness_CompressStarts : busy (base 0 [0x41] [] 33) = false ∧ memWf (base 0 [0x41] [] 33).mem = true ∧
    inOutReady (base 0 [0x41] [] 33) ∧ (base 0 [0x41] [] 33).inLen.toNat ≤ 2 ^ 32 - 1 ∧
    32 + (base 0 [0x41] [] 33).inLen.toNat + (base 0 [0x41] [] 33).inLen.toNat / 6 ≤
      (base 0 [0x41] [] 33).outLen.toNat := by decide

theorem witness_LevelHasNoEffect : busy (base 0 [0x41] [] 33) = false ∧
    goesOn (exec (.cmdCompress 0) (base 0 [0x41] [] 33)) = true ∧
    (inEncoder .probe 20 0 1 20 8 2 0 34 [(0, 1)]).host = [] ∧
    goesOn (step (inEncoder .probe 20 0 1 20 8 2 0 34 [(0, 1)])) = true := by decide

/-- Both regions as the host owes them; and an IN whose two addresses name one byte, which GETLEN and VALIDATE take. -/
theorem witness_StreamCommandsStart : busy (base 0 [9, 8] [] 9) = false ∧ inReady (base 0 [9, 8] [] 9) ∧
    inOutReady (base 0 [9, 8] [] 9) ∧
    inReady { State.reset with inLen := 2, mem := { map := [(0, some 1)], cells := [] } } := by decide

/-- One region past the end of memory, by a byte; the last byte of one without memory; the addresses sharing one byte; the last
byte of IN being the first of OUT by MemMap; two bytes of OUT being one; and none of these, at the top of memory. -/
theorem witness_BadRegionsRefused :
    (busy (regions [] 0xFFFFFFFFFFFFFFFF 2 0 0) = false ∧ ¬ Fits 0xFFFFFFFFFFFFFFFF 2) ∧
    (Fits 0x1000 2 ∧ ¬ Mapped [(0x1001, none)] 0x1000 2) ∧ Mapped [(0x1002, none)] 0x1000 2 ∧
    (Fits 0x100F 0x10 ∧ (0x100F#64).toNat < (0x1000#64).toNat + (0x10#64).toNat ∧
      (0x1000#64).toNat < (0x100F#64).toNat + (0x10#64).toNat) ∧
    (mapAddr [(0x2000, some 0x1001)] (0x1000 + BitVec.ofNat 64 1) =
        mapAddr [(0x2000, some 0x1001)] (0x2000 + BitVec.ofNat 64 0) ∧ Mapped [(0x2000, some 0x1001)] 0x2000 2) ∧
    (mapAddr [(0x2000, some 0x2001)] (0x2000 + BitVec.ofNat 64 1) =
        mapAddr [(0x2000, some 0x2001)] (0x2000 + BitVec.ofNat 64 0) ∧ (0:Nat) < 1) ∧
    (Fits 0xFFFFFFFFFFFFFFFE 2 ∧ Mapped [] 0xFFFFFFFFFFFFFFFE 2 ∧
      (0#64).toNat + (2#64).toNat ≤ (0xFFFFFFFFFFFFFFFE#64).toNat ∧
      (∀ i < 2, ∀ j < 2, mapAddr [] (0 + BitVec.ofNat 64 i) ≠ mapAddr [] (0xFFFFFFFFFFFFFFFE + BitVec.ofNat 64 j)) ∧
      ∀ j < 2, ∀ k < j, mapAddr [] (0xFFFFFFFFFFFFFFFE + BitVec.ofNat 64 j) ≠
        mapAddr [] (0xFFFFFFFFFFFFFFFE + BitVec.ofNat 64 k)) := by decide

/-- Two states that differ in HT and the encoder's registers alone. -/
theorem witness_StartIgnoresHiddenState :
    contextOf (.cmdCompress 0) = .command ∧ busy (base 0 [0x41] [] 33) = false ∧
      { base 0 [0x41] [] 33 with ht := [(3, 7)], enc := { State.reset.enc with op := 9 } } =
        { base 0 [0x41] [] 33 with
          ht := [(3, 7)], varint := State.reset.varint, dec := State.reset.dec,
          enc := { State.reset.enc with op := 9 }, latch := (base 0 [0x41] [] 33).latch, phase := .idle } ∧
      goesOn (exec (.cmdCompress 0) (base 0 [0x41] [] 33)) = true := by decide

/-- The second byte of five and the fourth, the last that may go on. -/
theorem witness_VarintMoreContinues : ∀ k ∈ [1, 4],
    varintRunning (inVarint opDecompress [0x80, 0x80, 0x80, 0x80, 0] 9 0 (7 * (k - 1)) k) = true ∧
      (inVarint opDecompress [0x80, 0x80, 0x80, 0x80, 0] 9 0 (7 * (k - 1)) k).varint.count ≠ 5#3 ∧
      (inVarint opDecompress [0x80, 0x80, 0x80, 0x80, 0] 9 0 (7 * (k - 1)) k).varint.shift.toNat + 7 < 32 := by decide

/-- Each of the three commands, with OUT_LEN just enough and just short of L = 5, and a fifth byte. -/
theorem witness_VarintLastEndsTheVarint :
    (∀ op ∈ [3#3, 4#3, 5#3], varintRunning (inVarint op [5] 5 0 0 1) = true ∧
      ((inVarint op [5] 5 0 0 1).varint.count = 5#3 → (5#7).extractLsb' 4 3 = 0#3)) ∧
      (VarintRegs.mk 0 0 1).acc ||| ((5#7).setWidth 35 <<< 0) = 5#35 ∧
      (5#32).toNat ≤ (inVarint 4#3 [5] 5 0 0 1).latch.outLen.toNat ∧
      (inVarint 4#3 [5] 4 0 0 1).latch.outLen.toNat < (5#32).toNat ∧
      (inVarint opGetlen [0x80, 0x80, 0x80, 0x80, 0x0F] 0 0 28 5).varint.count = 5#3 ∧
      (15#7).extractLsb' 4 3 = 0#3 := by decide

/-- V25's and V24's fifth bytes; V20's and V21's exhausted IN; five bytes consumed. -/
theorem witness_VarintFailures :
    (varintRunning (inVarint opDecompress [0, 0, 0, 0, 0] 9 0 28 5) = true ∧
      (inVarint opDecompress [0, 0, 0, 0, 0] 9 0 28 5).varint.count = 5#3 ∧ (16#7).extractLsb' 4 3 ≠ 0#3 ∧
      32 ≤ (inVarint opDecompress [0, 0, 0, 0, 0] 9 0 28 5).varint.shift.toNat + 7) ∧
    (varintRunning (inVarint opGetlen [0x80] 0 0 7 1) = true ∧ (inVarint opGetlen [0x80] 0 0 7 1).host = [] ∧
      inLenOf (inVarint opGetlen [0x80] 0 0 7 1) ≤ (inVarint opGetlen [0x80] 0 0 7 1).varint.count.toNat) := by decide

/-- Steps that go on, start the operations, complete with a value, and fail each way. -/
theorem witness_VarintUnitFollowsDecode :
    (StreamInv (inVarint opGetlen [0xAC, 2] 0 0 0 0) ∧ busy (inVarint opGetlen [0xAC, 2] 0 0 0 0) = true ∧
      (inVarint opGetlen [0xAC, 2] 0 0 0 0).phase = .varint ∧ (inVarint opGetlen [0xAC, 2] 0 0 0 0).host = [] ∧
      ((nextOf (step (inVarint opGetlen [0xAC, 2] 0 0 0 0))).map (·.phase)) = some .varint) ∧
    (StreamInv (inVarint opDecompress [0xAC, 2] 300 0x2C 7 1) ∧
      ((nextOf (step (inVarint opDecompress [0xAC, 2] 300 0x2C 7 1))).map (·.phase)) = some .ops) ∧
    (StreamInv (inVarint opGetlen [0xAC, 2] 0 0x2C 7 1) ∧
      ended (step (inVarint opGetlen [0xAC, 2] 0 0x2C 7 1)) = some (0x12, 300)) ∧
    (StreamInv (inVarint opGetlen [0x80] 0 0 7 1) ∧
      ended (step (inVarint opGetlen [0x80] 0 0 7 1)) = some (0x02, 0)) ∧
    (StreamInv (inVarint opValidate [0x80] 0 0 7 1) ∧
      ended (step (inVarint opValidate [0x80] 0 0 7 1)) = some (0x02, 0)) ∧
    (StreamInv (inVarint opDecompress [0x80] 0 0 7 1) ∧
      ended (step (inVarint opDecompress [0x80] 0 0 7 1)) = some (0x0E, 0)) ∧
    (StreamInv (inVarint opDecompress [0xAC, 2] 299 0x2C 7 1) ∧
      ended (step (inVarint opDecompress [0xAC, 2] 299 0x2C 7 1)) = some (0x0A, 0)) := by
  repeat' (first | decide | refine ⟨?_, ?_⟩)

/-- A literal that takes the last byte of IN and the last of L. -/
theorem witness_LiteralsDecode : literalShape (.litShort 2#6) = some (0, 3) ∧
    Decompressing (inOps opDecompress [3, 8, 1, 2, 3] [] 3 3 2 0) ∧
    memWf (inOps opDecompress [3, 8, 1, 2, 3] [] 3 3 2 0).mem = true ∧
    0 + 3 ≤ inputLeft (inOps opDecompress [3, 8, 1, 2, 3] [] 3 3 2 0) ∧
    3 ≤ outputLeft (inOps opDecompress [3, 8, 1, 2, 3] [] 3 3 2 0) := by decide

theorem witness_OperationsValidate_literals : literalShape (.litX4 2#32) = some (4, 3) ∧
    Validating (inOps opValidate [3, 0xFC, 2, 0, 0, 0, 1, 2, 3] [] 0 3 2 0) ∧
    4 + 3 ≤ inputLeft (inOps opValidate [3, 0xFC, 2, 0, 0, 0, 1, 2, 3] [] 0 3 2 0) ∧
    3 ≤ outputLeft (inOps opValidate [3, 0xFC, 2, 0, 0, 0, 1, 2, 3] [] 0 3 2 0) := by decide

/-- One byte short in IN, and one too many for L. -/
theorem witness_LiteralsTrap :
    (literalShape (.litShort 2#6) = some (0, 3) ∧ opsRunning (inOps opDecompress [3, 8, 1, 2] [] 3 3 2 0) = true ∧
      inputLeft (inOps opDecompress [3, 8, 1, 2] [] 3 3 2 0) < 0 + 3 ∧
      (inOps opDecompress [3, 8, 1, 2] [] 3 3 2 0).latch.opcode = 4#3) ∧
    (opsRunning (inOps opValidate [2, 8, 1, 2, 3] [] 3 2 2 0) = true ∧
      outputLeft (inOps opValidate [2, 8, 1, 2, 3] [] 3 2 2 0) < 3 ∧
      (inOps opValidate [2, 8, 1, 2, 3] [] 3 2 2 0).latch.opcode = 5#3) := by decide

/-- A copy with offset = op whose length takes op to L, its offset byte the last of IN. -/
theorem witness_CopiesDecode : copyShape (.copy1 2#3 3#11) = some (1, 3, 6) ∧
    Decompressing (inOps opDecompress [9, 8, 1, 2, 3, 9, 3] [1, 2, 3] 9 9 6 3) ∧
    memWf (inOps opDecompress [9, 8, 1, 2, 3, 9, 3] [1, 2, 3] 9 9 6 3).mem = true ∧
    1 ≤ inputLeft (inOps opDecompress [9, 8, 1, 2, 3, 9, 3] [1, 2, 3] 9 9 6 3) ∧ 1 ≤ 3 ∧
    3 ≤ (inOps opDecompress [9, 8, 1, 2, 3, 9, 3] [1, 2, 3] 9 9 6 3).dec.op.toNat ∧
    6 ≤ outputLeft (inOps opDecompress [9, 8, 1, 2, 3, 9, 3] [1, 2, 3] 9 9 6 3) := by decide

theorem witness_OperationsValidate_copies : copyShape (.copy2 5#6 3#16) = some (2, 3, 6) ∧
    Validating (inOps opValidate [9, 8, 1, 2, 3, 0x16, 3, 0] [] 0 9 6 3) ∧
    2 ≤ inputLeft (inOps opValidate [9, 8, 1, 2, 3, 0x16, 3, 0] [] 0 9 6 3) ∧ 1 ≤ 3 ∧
    3 ≤ (inOps opValidate [9, 8, 1, 2, 3, 0x16, 3, 0] [] 0 9 6 3).dec.op.toNat ∧
    6 ≤ outputLeft (inOps opValidate [9, 8, 1, 2, 3, 0x16, 3, 0] [] 0 9 6 3) := by decide

/-- Too few offset bytes; offset 0; offset op + 1; one byte more than L. -/
theorem witness_CopiesTrap :
    (copyShape (.copy2 0#6 1#16) = some (2, 1, 1) ∧ opsRunning (inOps opDecompress [2, 0, 1, 2, 1] [] 2 2 4 1) = true ∧
      inputLeft (inOps opDecompress [2, 0, 1, 2, 1] [] 2 2 4 1) < 2 ∧
      (inOps opDecompress [2, 0, 1, 2, 1] [] 2 2 4 1).latch.opcode = 4#3) ∧
    copyShape (.copy1 0#3 0#11) = some (1, 0, 4) ∧
    (copyShape (.copy1 0#3 2#11) = some (1, 2, 4) ∧
      (inOps opDecompress [2, 0, 1, 1, 2] [] 2 2 4 1).dec.op.toNat < 2) ∧
    (copyShape (.copy1 0#3 1#11) = some (1, 1, 4) ∧ outputLeft (inOps opValidate [4, 0, 1, 1, 1] [] 0 4 4 1) < 4 ∧
      opsRunning (inOps opValidate [4, 0, 1, 1, 1] [] 0 4 4 1) = true ∧
      (inOps opValidate [4, 0, 1, 1, 1] [] 0 4 4 1).latch.opcode = 5#3) := by decide

theorem witness_ShadowAgreesWithDecoder : contextOf (.copy1 2#3 3#11) = .stream ∧
    opsRunning (inOps opDecompress [9, 8, 1, 2, 3, 9, 3] [1, 2, 3] 9 9 6 3) = true ∧
    (inOps opDecompress [9, 8, 1, 2, 3, 9, 3] [1, 2, 3] 9 9 6 3).latch.opcode = opDecompress ∧
    (inOps opDecompress [9, 8, 1, 2, 3, 9, 3] [1, 2, 3] 9 9 6 3).dec.L.toNat ≤
      outLenOf (inOps opDecompress [9, 8, 1, 2, 3, 9, 3] [1, 2, 3] 9 9 6 3) ∧
    inOps opValidate [9, 8, 1, 2, 3, 9, 3] [1, 2, 3] 9 9 6 3 =
      { inOps opDecompress [9, 8, 1, 2, 3, 9, 3] [1, 2, 3] 9 9 6 3 with
        latch := { (inOps opDecompress [9, 8, 1, 2, 3, 9, 3] [1, 2, 3] 9 9 6 3).latch with opcode := opValidate } } := by
  decide

/-- D35: `00 FF`. -/
theorem witness_TrailingBytesRaise : opsRunning (inOps opDecompress [0, 0xFF] [] 0 0 1 0) = true ∧
    (inOps opDecompress [0, 0xFF] [] 0 0 1 0).latch.opcode = opDecompress ∧
    (inOps opDecompress [0, 0xFF] [] 0 0 1 0).host = [] ∧
    (inOps opDecompress [0, 0xFF] [] 0 0 1 0).dec.op.toNat = (inOps opDecompress [0, 0xFF] [] 0 0 1 0).dec.L.toNat ∧
    (inOps opDecompress [0, 0xFF] [] 0 0 1 0).dec.ip.toNat < inLenOf (inOps opDecompress [0, 0xFF] [] 0 0 1 0) := by
  decide

/-- ip = IN_LEN with op = L and with op ≠ L, under both commands. -/
theorem witness_EndOfStreamAnswers : ∀ op ∈ [4#3, 5#3], ∀ o ∈ [8, 9],
    opsRunning (inOps op [9, 8] [] 9 9 2 o) = true ∧ (inOps op [9, 8] [] 9 9 2 o).host = [] ∧
      inLenOf (inOps op [9, 8] [] 9 9 2 o) ≤ (inOps op [9, 8] [] 9 9 2 o).dec.ip.toNat ∧
      (inOps op [9, 8] [] 9 9 2 o).latch.opcode = op ∧
      ((inOps op [9, 8] [] 9 9 2 o).dec.op.toNat = (inOps op [9, 8] [] 9 9 2 o).dec.L.toNat ↔ o = 9) := by decide

theorem witness_OperationsAdvance : StreamInv (inOps opDecompress [1, 0, 0x41] [] 1 1 1 0) ∧
    busy (inOps opDecompress [1, 0, 0x41] [] 1 1 1 0) = true ∧ (inOps opDecompress [1, 0, 0x41] [] 1 1 1 0).phase = .ops ∧
    (inOps opDecompress [1, 0, 0x41] [] 1 1 1 0).host = [] ∧
    ((nextOf (step (inOps opDecompress [1, 0, 0x41] [] 1 1 1 0))).map busy) = some true := by decide

/-- The loop's head with one byte left, and with none. -/
theorem witness_FragmentStarts : busy (inEncoder .fragment 1 0 1 0 0 0 0 0 []) = true ∧
    (inEncoder .fragment 1 0 1 0 0 0 0 0 []).phase = .fragment ∧ (inEncoder .fragment 1 0 1 0 0 0 0 0 []).host = [] ∧
    (inEncoder .fragment 1 0 1 0 0 0 0 0 []).enc.base.toNat < (inEncoder .fragment 1 0 1 0 0 0 0 0 []).enc.n.toNat := by
  decide

theorem witness_FragmentTableCleared : busy (inEncoder .fragment 1 0 1 0 0 0 0 0 [(255, 9), (256, 9)]) = true ∧
    (inEncoder .fragment 1 0 1 0 0 0 0 0 [(255, 9), (256, 9)]).enc.base.toNat <
      (inEncoder .fragment 1 0 1 0 0 0 0 0 [(255, 9), (256, 9)]).enc.n.toNat ∧
    goesOn (step (inEncoder .fragment 1 0 1 0 0 0 0 0 [(255, 9), (256, 9)])) = true ∧ 255 < 2 ^ 8 ∧ 2 ^ 8 ≤ 256 := by
  decide

theorem witness_CompressCompletes : busy (inEncoder .fragment 1 1 3 0 0 0 0 0 []) = true ∧
    (inEncoder .fragment 1 1 3 0 0 0 0 0 []).phase = .fragment ∧ (inEncoder .fragment 1 1 3 0 0 0 0 0 []).host = [] ∧
    (inEncoder .fragment 1 1 3 0 0 0 0 0 []).enc.n.toNat ≤ (inEncoder .fragment 1 1 3 0 0 0 0 0 []).enc.base.toNat := by
  decide

/-- E6's one probe: ip + 15 = len − 1. -/
theorem witness_ProbeMissSkips : busy (inEncoder .probe 16 0 1 16 8 0 0 32 []) = true ∧
    (inEncoder .probe 16 0 1 16 8 0 0 32 []).phase = .probe ∧ (inEncoder .probe 16 0 1 16 8 0 0 32 []).host = [] ∧
    htWf (inEncoder .probe 16 0 1 16 8 0 0 32 []).ht = true ∧
    (inEncoder .probe 16 0 1 16 8 0 0 32 []).enc.ip.toNat + 15 < (inEncoder .probe 16 0 1 16 8 0 0 32 []).enc.len.toNat ∧
    htRead (inEncoder .probe 16 0 1 16 8 0 0 32 []).ht
      ((load32 (inEncoder .probe 16 0 1 16 8 0 0 32 []) 0 * 0x1E35A7BD#32).toNat / 2 ^ 17 % 2 ^ 8) = 0 := by decide

/-- The invariant in the middle of trace E4. -/
theorem witness_MachineInv : MachineInv (inEncoder .probe 20 0 1 20 8 2 0 34 [(0, 1)]) := by
  repeat' (first | decide | refine ⟨?_, ?_⟩)

theorem witness_ProbeMatchEmits : MachineInv (inEncoder .probe 20 0 1 20 8 2 0 34 [(0, 1)]) ∧
    busy (inEncoder .probe 20 0 1 20 8 2 0 34 [(0, 1)]) = true ∧
    (inEncoder .probe 20 0 1 20 8 2 0 34 [(0, 1)]).phase = .probe ∧
    (inEncoder .probe 20 0 1 20 8 2 0 34 [(0, 1)]).host = [] ∧
    (inEncoder .probe 20 0 1 20 8 2 0 34 [(0, 1)]).enc.ip.toNat + 15 <
      (inEncoder .probe 20 0 1 20 8 2 0 34 [(0, 1)]).enc.len.toNat ∧
    (load32 (inEncoder .probe 20 0 1 20 8 2 0 34 [(0, 1)]) (0 + 2) * 0x1E35A7BD#32).toNat / 2 ^ 17 % 2 ^ 8 = 0 ∧
    htRead (inEncoder .probe 20 0 1 20 8 2 0 34 [(0, 1)]).ht 0 = 1 ∧ 2 - 1 ≤ 65535 ∧
    load32 (inEncoder .probe 20 0 1 20 8 2 0 34 [(0, 1)]) (0 + 1) =
      load32 (inEncoder .probe 20 0 1 20 8 2 0 34 [(0, 1)]) (0 + 2) :=
  ⟨witness_MachineInv, by decide⟩

/-- E5's fragment, all of it a tail; and E4's end, with no tail. -/
theorem witness_TailEmits : MachineInv (inEncoder .probe 15 0 1 15 8 0 0 32 []) ∧
    (inEncoder .probe 15 0 1 15 8 0 0 32 []).enc.len.toNat ≤
      (inEncoder .probe 15 0 1 15 8 0 0 32 []).enc.ip.toNat + 15 ∧
    MachineInv (inEncoder .probe 20 0 7 20 8 20 20 32 [(0, 2)]) ∧
    (inEncoder .probe 20 0 7 20 8 20 20 32 [(0, 2)]).enc.len.toNat =
      (inEncoder .probe 20 0 7 20 8 20 20 32 [(0, 2)]).enc.nextEmit.toNat := by
  repeat' (first | decide | refine ⟨?_, ?_⟩)

/-- A pass that stays in the fragment, and one that ends it. -/
theorem witness_EncoderAdvances : CanonicalInv (inEncoder .probe 16 0 1 16 8 0 0 32 []) ∧
    EncoderInv (inEncoder .probe 16 0 1 16 8 0 0 32 []) ∧ goesOn (step (inEncoder .probe 16 0 1 16 8 0 0 32 [])) = true ∧
    EncoderInv (inEncoder .probe 15 0 1 15 8 0 0 32 []) ∧
    goesOn (step (inEncoder .probe 15 0 1 15 8 0 0 32 [])) = true := by
  repeat' (first | decide | refine ⟨?_, ?_⟩)

theorem witness_CompressedSizeBound : EncoderInv (inEncoder .fragment 1 1 3 0 0 0 0 0 []) ∧
    busy (inEncoder .fragment 1 1 3 0 0 0 0 0 []) = true ∧
    ended (step (inEncoder .fragment 1 1 3 0 0 0 0 0 [])) = some (0x02, 3) := by decide

/-- A step from a state that meets each invariant (CanonicalFormKept, StatusStaysLegal, LatchedArgumentsHold,
StreamRegistersInBounds, EncoderRegistersInBounds): in the operations, and in the probes. -/
theorem witness_invariants_kept : MachineInv (inOps opDecompress [1, 0, 0x41] [] 1 1 1 0) ∧
    goesOn (step (inOps opDecompress [1, 0, 0x41] [] 1 1 1 0)) = true ∧
    MachineInv (inVarint opGetlen [0xAC, 2] 0 0x2C 7 1) ∧
    goesOn (step (inVarint opGetlen [0xAC, 2] 0 0x2C 7 1)) = true ∧
    goesOn (step (inEncoder .probe 20 0 1 20 8 2 0 34 [(0, 1)])) = true := by
  repeat' (first | decide | refine ⟨?_, ?_⟩)

/-- NoStepFaults, CoreAlwaysSteps and CoreWritesOnlyOut: the invariant, the core's turn, and each clause: a byte outside
OUT, a byte of IN, a command that writes nothing. -/
theorem witness_CoreWritesOnlyOut : MachineInv (inOps opDecompress [1, 0, 0x41] [] 1 1 1 0) ∧
    (inOps opDecompress [1, 0, 0x41] [] 1 1 1 0).host = [] ∧
    goesOn (step (inOps opDecompress [1, 0, 0x41] [] 1 1 1 0)) = true ∧
    (∀ j < outLenOf (inOps opDecompress [1, 0, 0x41] [] 1 1 1 0),
      mapAddr (inOps opDecompress [1, 0, 0x41] [] 1 1 1 0).mem.map 0x2001 ≠
        mapAddr (inOps opDecompress [1, 0, 0x41] [] 1 1 1 0).mem.map
          (outAddr (inOps opDecompress [1, 0, 0x41] [] 1 1 1 0) j)) ∧
    2 < inLenOf (inOps opDecompress [1, 0, 0x41] [] 1 1 1 0) ∧
    writesOut (inVarint opGetlen [0xAC, 2] 0 0x2C 7 1) = false := by
  repeat' (first | decide | refine ⟨?_, ?_⟩)

/-- DecompressRestoresCompressed: a byte to compress, and the stream of it to read again with room for it. -/
theorem witness_DecompressRestoresCompressed :
    (busy (base 0 [0x41] [] 33) = false ∧ (base 0 [0x41] [] 33).host = [] ∧ CanonicalInv (base 0 [0x41] [] 33) ∧
      inOutReady (base 0 [0x41] [] 33) ∧ (base 0 [0x41] [] 33).inLen.toNat ≤ 2 ^ 32 - 1 ∧
      32 + (base 0 [0x41] [] 33).inLen.toNat + (base 0 [0x41] [] 33).inLen.toNat / 6 ≤
        (base 0 [0x41] [] 33).outLen.toNat) ∧
    (busy (base 0 [1, 0, 0x41] [] 1) = false ∧ (base 0 [1, 0, 0x41] [] 1).host = [] ∧
      memWf (base 0 [1, 0, 0x41] [] 1).mem = true ∧ (base 0 [1, 0, 0x41] [] 1).inLen = 3 ∧
      inReady (base 0 [1, 0, 0x41] [] 1) ∧ inOutReady (base 0 [1, 0, 0x41] [] 1) ∧ (base 0 [1, 0, 0x41] [] 1).outLen.toNat = 1) := by decide

end Sys2Proof.Tests
end

/-! PROOF. Every step keeps memory and HT in canonical form, and the platform's parameters
(R7, R40, R61). -/

namespace Sys2Proof.Machine

/-- What the second state keeps of the first: the canonical form of memory (R61) and of HT (R40), MemMap and
REG_WINDOW_BASE (R7). It is a preorder, so the parts of a step are shown one at a time. -/
structure KeepsCanonical (s t : State) : Prop where
  mem : memWf s.mem → memWf t.mem
  ht : htWf s.ht → htWf t.ht
  map : t.mem.map = s.mem.map
  windowBase : t.windowBase = s.windowBase

section

variable {s t u : State}

/-- An update of other fields. -/
theorem KeepsCanonical.of_eq (hm : t.mem = s.mem) (hh : t.ht = s.ht) (hw : t.windowBase = s.windowBase) :
    KeepsCanonical s t :=
  ⟨by rw [hm]; exact id, by rw [hh]; exact id, by rw [hm], hw⟩

theorem KeepsCanonical.refl (s : State) : KeepsCanonical s s := .of_eq rfl rfl rfl

theorem KeepsCanonical.trans (h : KeepsCanonical s t) (h' : KeepsCanonical t u) : KeepsCanonical s u :=
  ⟨h'.mem ∘ h.mem, h'.ht ∘ h.ht, h'.map.trans h.map, h'.windowBase.trans h.windowBase⟩

/-! ### The encoder -/

/-- An emission changes memory by writes, and not HT. -/
theorem Wrote.keepsCanonical {n : Nat} (h : Wrote s n t) : KeepsCanonical s t :=
  ⟨h.wf, by rw [h.eq]; exact id, h.map, by rw [h.eq]; rfl⟩

/-- HASH stays within HT's 32768 indices, since `table_bits` is a 4-bit register (R34, R40, R176). -/
theorem hashOf_lt_htSize (bits : BitVec 4) (w : BitVec 32) : hashOf bits.toNat w < 2 ^ Config.htMaxBits :=
  calc hashOf bits.toNat w < 2 ^ bits.toNat := Nat.mod_lt _ (Nat.two_pow_pos _)
    _ ≤ 2 ^ Config.htMaxBits := Nat.pow_le_pow_right Nat.two_pos (Nat.le_of_lt_succ bits.isLt)

/-- PROBE writes one entry of HT (R179). -/
theorem probe_keepsCanonical (s : State) : KeepsCanonical s (probe s) :=
  ⟨id, fun h => htWf_htWrite h (hashOf_lt_htSize s.enc.tableBits _) _, rfl, rfl⟩

/-- R183's insertion writes one entry of HT, or none. -/
theorem insertBehind_keepsCanonical (s : State) : KeepsCanonical s (insertBehind s) := by
  unfold insertBehind
  split
  · exact ⟨id, fun h => htWf_htWrite h (hashOf_lt_htSize s.enc.tableBits _) _, rfl, rfl⟩
  · exact .refl s

/-- FRAGMENT_INIT clears entries of HT (R177). -/
theorem fragmentInit_keepsCanonical (n : Nat) (s : State) : KeepsCanonical s (fragmentInit n s) :=
  ⟨id, fun h => htWf_htClear h _, rfl, rfl⟩

/-! ### The core's turn -/

/-- Every move of the core: memory changes by an operation's or an emission's writes, HT in the encoder's passes. -/
theorem CoreMove.keepsCanonical (h : CoreMove s t) : KeepsCanonical s t := by
  cases h with
  | stays _ => exact .refl s
  | ends | varintMore | varintLast | shadowed | compressEnds => exact .of_eq rfl rfl rfl
  | decoded _ _ _ _ _ _ _ hm => exact ⟨hm.wf, id, hm.map, rfl⟩
  | fragmentStarts => exact fragmentInit_keepsCanonical _ s
  | matched _ _ _ _ _ _ u v eu _ _ ev =>
    have hadvance : KeepsCanonical v (advance (matchLen (probe s)) v) := .of_eq rfl rfl rfl
    exact (probe_keepsCanonical s).trans <| eu.keepsCanonical.trans <| ev.wrote.keepsCanonical.trans <|
      hadvance.trans (insertBehind_keepsCanonical _)
  | skipped => exact (probe_keepsCanonical s).trans (.of_eq rfl rfl rfl)
  | tail _ _ _ _ u eu => exact eu.keepsCanonical.trans (.of_eq rfl rfl rfl)

/-! ### Command starts -/

/-- COMPRESS's rule after its start writes at most the varint (R172, R173). -/
theorem runCompress_keepsCanonical (h : runCompress s = .next t) : KeepsCanonical s t := by
  obtain ⟨-, rfl⟩ | ⟨-, -, rfl⟩ | ⟨-, -, e⟩ := runCompress_next h
  · exact .of_eq rfl rfl rfl
  · exact .of_eq rfl rfl rfl
  · have hstart : KeepsCanonical s (encoderStart s) := .of_eq rfl rfl rfl
    exact hstart.trans e.wrote.keepsCanonical

/-- A command's start (R281): only COMPRESS's writes memory, and none writes HT. -/
theorem command_keepsCanonical {i : Instr} (hc : contextOf i = .command) (h : exec i s = .next t) :
    KeepsCanonical s t := by
  obtain ⟨-, rfl⟩ | ⟨-, ⟨_, _, rfl⟩ | ⟨level, -, -, -, -, -, h⟩ | ⟨_, _, -, -, -, rfl⟩ | ⟨_, -, -, -, -, -, rfl⟩⟩ :=
    exec_command hc h
  · exact .refl _
  · exact .of_eq rfl rfl rfl
  · have hbegin : KeepsCanonical s (beginCommand opCompress level s) := .of_eq rfl rfl rfl
    exact hbegin.trans (runCompress_keepsCanonical h)
  · exact .of_eq rfl rfl rfl
  · exact .of_eq rfl rfl rfl

/-! ### The host's actions -/

/-- A host write of the window changes registers (R21, R30). -/
theorem hostWrite_keepsCanonical (addr : Addr) (width : AccessWidth) (v : BitVec 64) (s : State) :
    KeepsCanonical s (hostWrite addr width v s) := by
  obtain e | ⟨-, _, _, _, _, e⟩ := hostWrite_cases addr width v s <;> rw [e] <;> exact .of_eq rfl rfl rfl

/-- A host read of the window changes what the host got (R72). -/
theorem hostRead_keepsCanonical (addr : Addr) (width : AccessWidth) (s : State) :
    KeepsCanonical s (hostRead addr width s) := by
  obtain ⟨_, e⟩ := hostRead_cases addr width s
  rw [e]
  exact .of_eq rfl rfl rfl

/-- A host read of a byte changes what the host got, and the count of free values (R75, U1). -/
theorem hostLoad_keepsCanonical {addr : Addr} (h : hostLoad addr s = .next t) : KeepsCanonical s t := by
  obtain ⟨-, h⟩ := atMemory_next h
  cases h
  unfold loaded
  split <;> exact .of_eq rfl rfl rfl

/-- A host write of a byte writes memory (R75). -/
theorem hostStore_keepsCanonical {addr : Addr} {b : Byte} (h : hostStore addr b s = .next t) : KeepsCanonical s t := by
  obtain ⟨-, h⟩ := atMemory_next h
  split at h
  · cases h
  · cases h
    exact ⟨fun hm => memWf_memWrite hm addr b, id, memWrite_map s.mem addr b, rfl⟩

/-- The reset signal frees bytes of OUT and empties HT; the platform's parameters stand (R330, R331). -/
theorem resetBlock_keepsCanonical (s : State) : KeepsCanonical s (resetBlock s) :=
  ⟨fun hm => memWf_freeBytes _ _ _ hm, fun _ => rfl, freeBytes_map _ _ _ _, rfl⟩

/-- Every action of the host. -/
theorem hostOutcome_keepsCanonical {a : HostAction} (h : hostOutcome a s = .next t) : KeepsCanonical s t := by
  obtain ⟨-, e⟩ | ⟨i, hc, -, e⟩ | ⟨addr, width, v, -, e⟩ | ⟨addr, width, -, e⟩ | ⟨addr, -, e⟩ | ⟨addr, b, -, e⟩ |
    ⟨-, e⟩ := hostOutcome_cases a s <;> rw [e] at h
  · exact (coreOutcome_next h).keepsCanonical
  · exact command_keepsCanonical hc h
  · cases h; exact hostWrite_keepsCanonical addr width v s
  · cases h; exact hostRead_keepsCanonical addr width s
  · exact hostLoad_keepsCanonical h
  · exact hostStore_keepsCanonical h
  · cases h; exact resetBlock_keepsCanonical s

/-- Every step. -/
theorem step_keepsCanonical (h : step s = .next t) : KeepsCanonical s t := by
  obtain ⟨-, e⟩ | ⟨a, rest, -, e⟩ := step_cases s <;> rw [e] at h
  · exact (coreOutcome_next h).keepsCanonical
  · have htaken : KeepsCanonical s (setHost s rest) := .of_eq rfl rfl rfl
    exact htaken.trans (hostOutcome_keepsCanonical h)

end

/-- Settles O52: it holds, since every move of the core and every action of the host keeps what KeepsCanonical names. -/
theorem canonicalFormKept : Obligations.CanonicalFormKept := by
  unfold Obligations.CanonicalFormKept
  rintro s t ⟨hm, hh⟩ h
  have hk := step_keepsCanonical h
  exact ⟨⟨hk.mem hm, hk.ht hh⟩, hk.map, hk.windowBase⟩

end Sys2Proof.Machine

/-! PROOF. What a command's start, a move of the core and an action of the host leave as it was, and every step in these
parts, so that an invariant is shown once for each part (R18, R281, R282). -/

namespace Sys2Proof.Machine

/-! ### The parts of a step -/

/-- The next states of a command's start with no command running (R281). -/
inductive CommandMove (s : State) : State → Prop where
  /-- MAXLEN, and COMPRESS where a check fails, complete at once (R170, R172). -/
  | ends (op : BitVec 3) (level : BitVec 2) (e : EncRegs) (err : ErrKind) (r : Word) :
      CommandMove s (complete err 0#1 r (setEnc (beginCommand op level s) e))
  /-- COMPRESS, its checks passed, writes its varint (R172, R173). -/
  | encodes (level : BitVec 2) (hr : inOutReady s) (hi : s.inLen.toNat ≤ Config.maxInput)
      (ho : Config.maxCompressedLength s.inLen.toNat ≤ s.outLen.toNat) (t : State)
      (he : Emitted (encoderStart (beginCommand opCompress level s)) (varintBytes (s.inLen.setWidth 32)).length t) :
      CommandMove s t
  /-- GETLEN, DECOMPRESS and VALIDATE start their varint (R275, R220, R260). -/
  | reads (op : BitVec 3) (level : BitVec 2) (hop : op = opGetlen ∨ op = opDecompress ∨ op = opValidate) (hr : inReady s)
      (hd : op = opDecompress → inOutReady s) : CommandMove s (beginVarint (beginCommand op level s))

/-- What a host access that starts no command leaves: the host's own record, bytes of memory and, with no command running,
the four read-write registers apart, the state is as before (R30, R72, R75). -/
structure HostAccess (s t : State) : Prop where
  eq : t = { s with
    inBase := t.inBase, inLen := t.inLen, outBase := t.outBase, outLen := t.outLen, mem := t.mem, host := t.host,
    hostData := t.hostData, fresh := t.fresh }
  window : busy s = true → t.inBase = s.inBase ∧ t.inLen = s.inLen ∧ t.outBase = s.outBase ∧ t.outLen = s.outLen
  map : t.mem.map = s.mem.map

/-- A command has just completed, VALID = 1 never with an error (R282, R302). -/
def Completed (t : State) : Prop := ∃ err valid r u, (err = .none ∨ valid = 0#1) ∧ t = complete err valid r u

/-- What a command that goes on leaves: the window's registers, the latched arguments, MemMap and the host's record. -/
structure GoesOn (s t : State) : Prop where
  eq : t = { s with
    phase := t.phase, varint := t.varint, dec := t.dec, enc := t.enc, ht := t.ht, mem := t.mem }
  map : t.mem.map = s.mem.map

section

variable {s t u : State}

/-! ### Command starts -/

/-- Every next state of a command's start. -/
theorem exec_commandMove {i : Instr} (hc : contextOf i = .command) (hb : busy s = false) (h : exec i s = .next t) :
    CommandMove s t := by
  obtain ⟨hb', -⟩ | ⟨-, ⟨level, r, rfl⟩ | ⟨level, fi, fo, mi, mo, hd, h⟩ | ⟨op, level, hop, fi, mi, rfl⟩ |
    ⟨level, fi, fo, mi, mo, hd, rfl⟩⟩ := exec_command hc h
  · simp [hb] at hb'
  · exact .ends opMaxlen level s.enc .none r
  · obtain ⟨-, rfl⟩ | ⟨-, -, rfl⟩ | ⟨hi, ho, he⟩ := runCompress_next h
    · exact .ends _ _ _ _ _
    · exact .ends _ _ _ _ _
    · exact .encodes level ⟨⟨of_decide_eq_true fi, mi⟩, of_decide_eq_true fo, mo, hd⟩ hi ho t he
  · have hr : inReady s := ⟨of_decide_eq_true fi, mi⟩
    obtain rfl | rfl := hop
    · exact .reads _ level (.inl rfl) hr nofun
    · exact .reads _ level (.inr (.inr rfl)) hr nofun
  · have hr : inOutReady s := ⟨⟨of_decide_eq_true fi, mi⟩, of_decide_eq_true fo, mo, hd⟩
    exact .reads _ level (.inr (.inl rfl)) hr.1 fun _ => hr

/-- A start completes its command, or goes on from R281's effect with the regions it uses as the host owes them. -/
theorem CommandMove.completed_or_goesOn (h : CommandMove s t) :
    Completed t ∨ ∃ op level, GoesOn (beginCommand op level s) t ∧ t.phase ≠ .idle ∧ inReady s ∧
      (op = opCompress ∨ op = opDecompress → inOutReady s) := by
  cases h with
  | ends op level e err r => exact .inl ⟨err, 0#1, r, _, .inr rfl, rfl⟩
  | encodes level hr _ _ t he =>
    have hgo : GoesOn (beginCommand opCompress level s) t := ⟨by rw [he.eq]; rfl, he.map⟩
    exact .inr ⟨_, level, hgo, by rw [he.eq]; exact nofun, hr.1, fun _ => hr⟩
  | reads op level hop hr hd =>
    refine .inr ⟨op, level, ⟨rfl, rfl⟩, nofun, hr, ?_⟩
    rintro (rfl | hop')
    · obtain h | h | h := hop <;> exact absurd h (by decide)
    · exact hd hop'

/-! ### The core's turn -/

/-- A move of the core completes the command, or leaves it running with its arguments. -/
theorem CoreMove.completed_or_goesOn (h : CoreMove s t) :
    Completed t ∨ (GoesOn s t ∧ (t.phase = .idle ↔ s.phase = .idle)) := by
  have hmap := h.keepsCanonical.map
  cases h with
  | stays => exact .inr ⟨⟨rfl, rfl⟩, Iff.rfl⟩
  | ends _ err valid r _ _ hv => exact .inl ⟨err, valid, r, _, hv, rfl⟩
  | compressEnds => exact .inl ⟨_, _, _, _, .inl rfl, rfl⟩
  | varintMore | decoded | shadowed => exact .inr ⟨⟨rfl, hmap⟩, Iff.rfl⟩
  | varintLast _ hp => exact .inr ⟨⟨rfl, hmap⟩, by simp [hp]⟩
  | fragmentStarts _ hp => exact .inr ⟨⟨rfl, hmap⟩, by simp [hp]⟩
  | matched _ _ _ _ _ _ u v eu _ _ ev =>
    have e := matched_keeps (mlen := matchLen (probe s)) eu ev
    exact .inr ⟨⟨by rw [e], hmap⟩, by rw [e]⟩
  | skipped => exact .inr ⟨⟨rfl, hmap⟩, Iff.rfl⟩
  | tail _ hp _ _ u eu =>
    have e := tail_keeps eu
    exact .inr ⟨⟨by rw [e], hmap⟩, by rw [e]; simp [hp]⟩

/-! ### The host's accesses -/

/-- No host access writes STATUS. -/
theorem HostAccess.status (h : HostAccess s t) : t.status = s.status := by rw [h.eq]

/-- One access after another. -/
theorem HostAccess.trans (h : HostAccess s t) (h' : HostAccess t u) : HostAccess s u := by
  refine ⟨?_, fun hb => ?_, h'.map.trans h.map⟩
  · conv_lhs => rw [h'.eq, h.eq]
  · have hb' : busy t = true := by rwa [busy_congr h.status]
    obtain ⟨h1, h2, h3, h4⟩ := h.window hb
    obtain ⟨h1', h2', h3', h4'⟩ := h'.window hb'
    exact ⟨h1'.trans h1, h2'.trans h2, h3'.trans h3, h4'.trans h4⟩

/-- The host's action is taken from its list. -/
theorem setHost_access (s : State) (acts : List HostAction) : HostAccess s (setHost s acts) :=
  ⟨rfl, fun _ => ⟨rfl, rfl, rfl, rfl⟩, rfl⟩

/-- A read of the window (R72). -/
theorem hostRead_access (addr : Addr) (width : AccessWidth) (s : State) : HostAccess s (hostRead addr width s) := by
  obtain ⟨_, e⟩ := hostRead_cases addr width s
  rw [e]
  exact ⟨rfl, fun _ => ⟨rfl, rfl, rfl, rfl⟩, rfl⟩

/-- A write of the window that starts no command: none is taken while a command runs (R30). -/
theorem hostWrite_access (addr : Addr) (width : AccessWidth) (v : BitVec 64) (s : State) :
    HostAccess s (hostWrite addr width v s) := by
  obtain e | ⟨hb, _, _, _, _, e⟩ := hostWrite_cases addr width v s <;> rw [e]
  · exact ⟨rfl, fun _ => ⟨rfl, rfl, rfl, rfl⟩, rfl⟩
  · exact ⟨rfl, fun hb' => absurd (hb.symm.trans hb') (by decide), rfl⟩

/-- A read of a byte (R75). -/
theorem hostLoad_access {addr : Addr} (h : hostLoad addr s = .next t) : HostAccess s t := by
  obtain ⟨-, h⟩ := atMemory_next h
  cases h
  unfold loaded
  split <;> exact ⟨rfl, fun _ => ⟨rfl, rfl, rfl, rfl⟩, rfl⟩

/-- A write of a byte (R75). -/
theorem hostStore_access {addr : Addr} {b : Byte} (h : hostStore addr b s = .next t) : HostAccess s t := by
  obtain ⟨-, h⟩ := atMemory_next h
  split at h
  · cases h
  · cases h
    exact ⟨rfl, fun _ => ⟨rfl, rfl, rfl, rfl⟩, memWrite_map s.mem addr b⟩

/-! ### Every step -/

/-- The next states of a step: a host access, the core's turn, a command's start or the reset signal, the last three after
the host's action was taken from its list. -/
inductive StepMove (s : State) : State → Prop where
  | access {t : State} (h : HostAccess s t) : StepMove s t
  | core {u t : State} (hu : HostAccess s u) (h : CoreMove u t) : StepMove s t
  | command {u t : State} (hu : HostAccess s u) (hb : busy u = false) (h : CommandMove u t) : StepMove s t
  | reset (u : State) : StepMove s (resetBlock u)

/-- Every next state of a step is one of these. -/
theorem step_next (h : step s = .next t) : StepMove s t := by
  obtain ⟨-, e⟩ | ⟨a, rest, -, e⟩ := step_cases s <;> rw [e] at h
  · exact .core ⟨rfl, fun _ => ⟨rfl, rfl, rfl, rfl⟩, rfl⟩ (coreOutcome_next h)
  have hu := setHost_access s rest
  obtain ⟨-, e⟩ | ⟨i, hc, hb, e⟩ | ⟨addr, width, v, -, e⟩ | ⟨addr, width, -, e⟩ | ⟨addr, -, e⟩ | ⟨addr, b, -, e⟩ |
    ⟨-, e⟩ := hostOutcome_cases a (setHost s rest) <;> rw [e] at h
  · exact .core hu (coreOutcome_next h)
  · exact .command hu hb (exec_commandMove hc hb h)
  · cases h; exact .access (hu.trans (hostWrite_access addr width v _))
  · cases h; exact .access (hu.trans (hostRead_access addr width _))
  · exact .access (hu.trans (hostLoad_access h))
  · exact .access (hu.trans (hostStore_access h))
  · cases h; exact .reset _

/-- A predicate that host accesses and the core's moves keep, and that starts and reset bring about, is kept by every
step. -/
theorem step_keeps {P : State → Prop} (access : ∀ {s t}, HostAccess s t → P s → P t)
    (core : ∀ {s t}, CoreMove s t → P s → P t) (command : ∀ {s t}, busy s = false → CommandMove s t → P t)
    (reset : ∀ s, P (resetBlock s)) (hs : P s) (h : step s = .next t) : P t := by
  cases step_next h with
  | access h => exact access h hs
  | core hu h => exact core h (access hu hs)
  | command _ hb h => exact command hb h
  | reset u => exact reset u

end

end Sys2Proof.Machine

/-! PROOF. STATUS stays legal, the latched arguments hold and the stream's registers stay in their bounds (R23, R28, R30 to
R35, R222, R281). -/

namespace Sys2Proof.Machine

section

variable {s t : State}

/-! ### STATUS -/

/-- BUSY is 0 once a command has completed (R282). -/
theorem Completed.not_busy (h : Completed t) : busy t = false := by
  obtain ⟨err, valid, r, u, -, rfl⟩ := h
  exact busy_complete u err valid r

/-- The words STATUS holds at a completion (R23, R301). -/
theorem statusDone_mem_legalStatus (err : ErrKind) (valid : BitVec 1) (h : err = .none ∨ valid = 0#1) :
    statusDone err valid ∈ legalStatus := by
  revert valid
  cases err <;> decide

theorem Completed.statusInv (h : Completed t) : StatusInv t := by
  have hb := h.not_busy
  obtain ⟨err, valid, r, u, hv, rfl⟩ := h
  exact ⟨statusDone_mem_legalStatus err valid hv, by simp⟩

/-- StatusInv depends on STATUS, and on whether a command stands in its rule. -/
theorem StatusInv.congr (hs : t.status = s.status) (hp : t.phase = .idle ↔ s.phase = .idle) (h : StatusInv s) :
    StatusInv t := by
  refine ⟨hs ▸ h.1, ?_⟩
  rw [busy_congr hs, h.2]
  exact not_congr hp.symm

theorem HostAccess.statusInv (h : HostAccess s t) : StatusInv s → StatusInv t :=
  StatusInv.congr h.status (by rw [h.eq])

theorem CoreMove.statusInv (h : CoreMove s t) (hs : StatusInv s) : StatusInv t := by
  obtain hc | ⟨hg, hp⟩ := h.completed_or_goesOn
  · exact hc.statusInv
  · exact hs.congr (by rw [hg.eq]) hp

theorem CommandMove.statusInv (h : CommandMove s t) : StatusInv t := by
  obtain hc | ⟨op, level, hg, hp, -, -⟩ := h.completed_or_goesOn
  · exact hc.statusInv
  · have hs : t.status = statusRunning := by rw [hg.eq]; rfl
    refine ⟨by rw [hs]; decide, ?_⟩
    rw [busy_congr (t := beginCommand op level s) hs, busy_beginCommand]
    exact ⟨fun _ => hp, fun _ => rfl⟩

/-- After reset no command runs (R330). -/
theorem reset_not_busy : busy State.reset = false := by decide

/-- After the reset signal no command runs either. -/
theorem resetBlock_not_busy (s : State) : busy (resetBlock s) = false := (busy_congr rfl).trans reset_not_busy

/-- After reset STATUS is 0 and no command stands in its rule (R44, R330). -/
theorem resetBlock_statusInv (s : State) : StatusInv (resetBlock s) :=
  ⟨List.mem_cons_self .., by simp [resetBlock_not_busy, show (resetBlock s).phase = .idle from rfl]⟩

/-! ### The latched arguments -/

/-- LatchInv depends on these registers and on MemMap; with no command running it says nothing. -/
theorem LatchInv.congr (hs : t.status = s.status) (hl : t.latch = s.latch) (hr : t.result = s.result)
    (hm : t.mem.map = s.mem.map)
    (hw : busy s = true → t.inBase = s.inBase ∧ t.inLen = s.inLen ∧ t.outBase = s.outBase ∧ t.outLen = s.outLen)
    (h : LatchInv s) : LatchInv t := by
  intro hb
  rw [busy_congr hs] at hb
  obtain ⟨hmatch, hi, ho, hres⟩ := h hb
  obtain ⟨w1, w2, w3, w4⟩ := hw hb
  obtain ⟨ei, eo⟩ := held_congr hl hm
  have ew : writesOut t = writesOut s := by simp only [writesOut, hl]
  rw [latchMatches, hl, w1, w2, w3, w4, ei, eo, ew, hr]
  exact ⟨hmatch, hi, ho, hres⟩

theorem GoesOn.latchInv (h : GoesOn s t) : LatchInv s → LatchInv t :=
  LatchInv.congr (by rw [h.eq]) (by rw [h.eq]) (by rw [h.eq]) h.map fun _ => by rw [h.eq]; exact ⟨rfl, rfl, rfl, rfl⟩

theorem LatchInv.of_not_busy (h : busy t = false) : LatchInv t := fun hb => absurd (h.symm.trans hb) nofun

/-- The commands that write OUT (R60). -/
theorem writesOut_iff : writesOut s = true ↔ s.latch.opcode = opCompress ∨ s.latch.opcode = opDecompress := by
  simp only [writesOut, Bool.or_eq_true, decide_eq_true_eq]

/-- R281's effect latches the window's registers, and R61 and R64 hold of the regions where the host owed them. -/
theorem beginCommand_latchInv {op : BitVec 3} {level : BitVec 2} (hi : inReady s)
    (ho : op = opCompress ∨ op = opDecompress → inOutReady s) : LatchInv (beginCommand op level s) := by
  obtain ⟨fi, mi⟩ := hi
  have hin : inHeld (beginCommand op level s) = true := Bool.and_eq_true_iff.mpr ⟨decide_eq_true fi, mi⟩
  refine fun _ => ⟨⟨rfl, rfl, rfl, rfl⟩, hin, fun hw => ?_, rfl⟩
  obtain ⟨-, fo, mo, hd⟩ := ho (writesOut_iff.mp hw)
  exact Bool.and_eq_true_iff.mpr ⟨Bool.and_eq_true_iff.mpr ⟨decide_eq_true fo, mo⟩, hd⟩

theorem HostAccess.latchInv (h : HostAccess s t) : LatchInv s → LatchInv t :=
  LatchInv.congr h.status (by rw [h.eq]) (by rw [h.eq]) h.map h.window

theorem CoreMove.latchInv (h : CoreMove s t) (hs : LatchInv s) : LatchInv t := by
  obtain hc | ⟨hg, -⟩ := h.completed_or_goesOn
  · exact .of_not_busy hc.not_busy
  · exact hg.latchInv hs

theorem CommandMove.latchInv (h : CommandMove s t) : LatchInv t := by
  obtain hc | ⟨op, level, hg, -, hi, ho⟩ := h.completed_or_goesOn
  · exact .of_not_busy hc.not_busy
  · exact hg.latchInv (beginCommand_latchInv hi ho)

theorem resetBlock_latchInv (s : State) : LatchInv (resetBlock s) := .of_not_busy (resetBlock_not_busy s)

/-! ### The stream's registers -/

theorem StreamInv.of_not_busy (h : busy t = false) : StreamInv t := fun hb => absurd (h.symm.trans hb) nofun

/-- Outside the varint and the operations StreamInv says nothing. -/
theorem StreamInv.of_phase (hv : t.phase ≠ .varint) (ho : t.phase ≠ .ops) : StreamInv t :=
  fun _ => ⟨fun h => absurd h hv, fun h => absurd h ho⟩

theorem HostAccess.streamInv (h : HostAccess s t) (hs : StreamInv s) : StreamInv t := by
  intro hb
  rw [busy_congr h.status] at hb
  rw [h.eq]
  exact hs hb

/-- A group added at its shift keeps the accumulated value within the groups read (R35, R122). -/
theorem accumulate_lt {v : VarintRegs} {n : Nat} (g : BitVec 7) (hs : v.shift.toNat = 7 * n)
    (ha : v.acc.toNat < 2 ^ (7 * n)) : (accumulate v g).toNat < 2 ^ (7 * (n + 1)) := by
  have hg : g.toNat <<< (7 * n) < 2 ^ (7 * (n + 1)) := by
    rw [Nat.shiftLeft_eq, Nat.mul_succ, Nat.pow_add, Nat.mul_comm]
    exact Nat.mul_lt_mul_of_pos_left g.isLt (Nat.two_pow_pos _)
  have ha' : v.acc.toNat < 2 ^ (7 * (n + 1)) := ha.trans_le (Nat.pow_le_pow_right Nat.two_pos (by omega))
  rw [accumulate, BitVec.toNat_or, BitVec.toNat_shiftLeft, BitVec.toNat_setWidth, hs]
  exact Nat.or_lt_two_pow ha' ((Nat.mod_le _ _).trans_lt (by rwa [Nat.mod_eq_of_lt (g.isLt.trans (by decide))]))

/-- The byte count after one more of at most five bytes (R122). -/
theorem count_succ_toNat {c : BitVec 3} (h : c.toNat ≤ 4) : (c + 1).toNat = c.toNat + 1 := by bv_omega

/-- The varint goes on: one more group, of at most four (R122). -/
theorem VarintInv.more {g : BitVec 7} (h : VarintInv s) (hs : s.varint.shift.toNat + 7 < 32)
    (hi : s.varint.count.toNat < inLenOf s) :
    VarintInv (setVarint s
      { acc := accumulate s.varint g, shift := s.varint.shift + 7, count := s.varint.count + 1 }) := by
  obtain ⟨hop, hc, hsh, hacc, -⟩ := h
  have hcount := count_succ_toNat hc
  have hshift : (s.varint.shift + 7).toNat = s.varint.shift.toNat + 7 := by bv_omega
  have hlt := accumulate_lt g hsh hacc
  rw [← hcount] at hlt
  refine ⟨hop, ?_, ?_, hlt, ?_⟩
  · show (s.varint.count + 1).toNat ≤ 4
    omega
  · show (s.varint.shift + 7).toNat = 7 * (s.varint.count + 1).toNat
    omega
  · show (s.varint.count + 1).toNat ≤ inLenOf s
    omega

/-- The varint ends: ip is the count of its bytes, op is 0, and DECOMPRESS has checked its buffer (R127, R222, R223). -/
theorem VarintInv.beginOps {g : BitVec 7} (h : VarintInv s) (hi : s.varint.count.toNat < inLenOf s)
    (hg : s.latch.opcode = opDecompress ∨ s.latch.opcode = opValidate)
    (hl : s.latch.opcode = opDecompress → ((accumulate s.varint g).setWidth 32).toNat ≤ outLenOf s) :
    OpsInv (beginOps (setVarint s { s.varint with acc := accumulate s.varint g, count := s.varint.count + 1 })) := by
  obtain ⟨-, hc, -, -, -⟩ := h
  refine ⟨hg, ?_, Nat.zero_le _, hl⟩
  show ((s.varint.count + 1).setWidth 64).toNat ≤ inLenOf s
  have hcount := count_succ_toNat hc
  rw [BitVec.toNat_setWidth]
  omega

/-- An operation that goes on keeps both cursors within their bounds (R225, R231). -/
theorem OpsInv.advance {len : Nat} {d : DecRegs} (h : OpsInv s) (hd : OpAdvance s len d) : OpsInv (setDec s d) := by
  obtain ⟨hop, -, -, hl⟩ := h
  refine ⟨hop, hd.ipBound, ?_, fun ho => ?_⟩
  · rw [setDec_dec, hd.op, hd.keepsL]
    exact hd.fits
  · rw [setDec_dec, hd.keepsL]
    exact hl ho

theorem CoreMove.streamInv (h : CoreMove s t) (hs : StreamInv s) : StreamInv t := by
  cases h with
  | stays => exact hs
  | ends | compressEnds => exact .of_not_busy (busy_complete _ _ _ _)
  | varintMore hb hp g _ hi hsh =>
    have hv := (hs hb).1 hp
    exact fun _ => ⟨fun _ => hv.more hsh hi, fun ho => absurd (hp.symm.trans ho) nofun⟩
  | varintLast hb hp g _ hi hg hl =>
    have hv := (hs hb).1 hp
    exact fun _ => ⟨nofun, fun _ => hv.beginOps hi hg hl⟩
  | decoded hb hp _ len d m hd | shadowed hb hp _ len d hd =>
    have ho := (hs hb).2 hp
    exact fun _ => ⟨fun hv => absurd (hp.symm.trans hv) nofun, fun _ => ho.advance hd⟩
  | fragmentStarts => exact .of_phase nofun nofun
  | matched _ hp _ _ _ _ u v eu _ _ ev =>
    have e := matched_keeps (mlen := matchLen (probe s)) eu ev
    rw [e]
    exact .of_phase (by simp [hp]) (by simp [hp])
  | skipped _ hp => exact .of_phase (by simp [hp]) (by simp [hp])
  | tail => exact .of_phase nofun nofun

theorem CommandMove.streamInv (h : CommandMove s t) : StreamInv t := by
  cases h with
  | ends => exact .of_not_busy (busy_complete _ _ _ _)
  | encodes level _ _ _ t he => rw [he.eq]; exact .of_phase nofun nofun
  | reads op level hop =>
    exact fun _ => ⟨fun _ => ⟨hop, Nat.zero_le _, rfl, Nat.zero_lt_one, Nat.zero_le _⟩, nofun⟩

theorem resetBlock_streamInv (s : State) : StreamInv (resetBlock s) := .of_not_busy (resetBlock_not_busy s)

end

/-- Settles O53: it holds. Only a completion, a start and reset write STATUS, and the phase with it. -/
theorem statusStaysLegal : Obligations.StatusStaysLegal := by
  unfold Obligations.StatusStaysLegal
  exact fun s t => step_keeps (P := StatusInv) HostAccess.statusInv CoreMove.statusInv (fun _ h => h.statusInv)
    resetBlock_statusInv

/-- Settles O54: it holds. A start latches the window and tests the regions, and no write is taken while BUSY = 1. -/
theorem latchedArgumentsHold : Obligations.LatchedArgumentsHold := by
  unfold Obligations.LatchedArgumentsHold
  exact fun s t => step_keeps (P := LatchInv) HostAccess.latchInv CoreMove.latchInv (fun _ h => h.latchInv)
    resetBlock_latchInv

/-- Settles O55: it holds. The varint unit's and the operations' moves are the only ones that write these registers of a
command that reads the stream. -/
theorem streamRegistersInBounds : Obligations.StreamRegistersInBounds := by
  unfold Obligations.StreamRegistersInBounds
  exact fun s t => step_keeps (P := StreamInv) HostAccess.streamInv CoreMove.streamInv (fun _ h => h.streamInv)
    resetBlock_streamInv

end Sys2Proof.Machine

/-! PROOF. The operation loop's progress, the clearing of a fragment's table and the end of the varint (R32, R41, R122). -/

namespace Sys2Proof.Machine

section

variable {s t : State}

/-! ### The table of a fragment -/

/-- At the fragment loop's head the core's turn is R173's pass. -/
theorem step_of_fragment (hh : s.host = []) (hb : busy s = true) (hp : s.phase = .fragment) : step s = fragmentStep s := by
  rw [step_of_coreTurn hh, coreOutcome, coreWork, if_pos hb, hp]
  rfl

/-- `ceil_log2` is the least such exponent (R9). -/
theorem ceilLog2_le {x k : Nat} (hx : x ≤ 2 ^ k) (hk : k < 64) : ceilLog2 x ≤ k := by
  unfold ceilLog2
  cases h : (List.range 64).find? (fun k => decide (x ≤ 2 ^ k)) with
  | none => simpa [hx] using List.find?_range_eq_none.mp h k hk
  | some i =>
    obtain ⟨-, -, hleast⟩ := List.find?_range_eq_some.mp h
    by_contra hlt
    simpa [hx] using hleast k (by simpa using hlt)

/-- A table has at most 32768 entries (R175). -/
theorem tableBitsFor_le (len : Nat) : tableBitsFor len ≤ 15 := ceilLog2_le (Nat.min_le_right _ _) (by decide)

/-- The 4-bit register holds `table_bits` (R34, R177). -/
theorem fragmentInit_tableBits (n : Nat) (s : State) : (fragmentInit n s).enc.tableBits.toNat = tableBitsFor n :=
  (BitVec.toNat_ofNat ..).trans (Nat.mod_eq_of_lt (Nat.lt_succ_of_le (tableBitsFor_le n)))

/-! ### The varint's last byte -/

/-- A last byte that is not a bad fifth one adds its group, and VARINT_DECODE returns (R122). -/
theorem exec_varintLast {g : BitVec 7} {v : VarintRegs} (hr : varintRunning s = true)
    (h5 : s.varint.count = 5#3 → g.extractLsb' 4 3 = 0#3)
    (hv : v = { s.varint with acc := accumulate s.varint g }) : exec (.varintLast g) s = varintOk (setVarint s v) := by
  have hgood : ¬ fifthByteBad s g = true := by simpa [fifthByteBad] using h5
  show execVarintLast g s = _
  rw [execVarintLast, if_pos hr, if_neg hgood, hv]

/-- GETLEN completes with L (R275). -/
theorem varintOk_getlen (h : s.latch.opcode = opGetlen) :
    varintOk s = .next (complete .none 1#1 ((s.varint.acc.setWidth 32).setWidth 64) (beginOps s)) := if_pos h

/-- DECOMPRESS starts its operations where OUT holds L (R222, R223). -/
theorem varintOk_decompress (h : s.latch.opcode = opDecompress) (hl : (s.varint.acc.setWidth 32).toNat ≤ outLenOf s) :
    varintOk s = .next (beginOps s) := by
  have hg : s.latch.opcode ≠ opGetlen := by rw [h]; decide
  rw [varintOk, if_neg hg, if_pos h, if_neg (Nat.not_lt.mpr hl)]

/-- DECOMPRESS raises InsufficientBuffer where it does not (R222). -/
theorem varintOk_insufficient (h : s.latch.opcode = opDecompress) (hl : outLenOf s < (s.varint.acc.setWidth 32).toNat) :
    varintOk s = raise .insufficientBuffer (setDec s { s.dec with L := s.varint.acc.setWidth 32 }) := by
  have hg : s.latch.opcode ≠ opGetlen := by rw [h]; decide
  rw [varintOk, if_neg hg, if_pos h, if_pos hl]

/-- VALIDATE starts its operations (R260). -/
theorem varintOk_validate (h : s.latch.opcode = opValidate) : varintOk s = .next (beginOps s) := by
  have hg : s.latch.opcode ≠ opGetlen := by rw [h]; decide
  have hd : s.latch.opcode ≠ opDecompress := by rw [h]; decide
  rw [varintOk, if_neg hg, if_neg hd]

end

/-- Settles O42: it holds, since a move of the operation loop that leaves BUSY set is an operation that goes on. -/
theorem operationsAdvance : Obligations.OperationsAdvance := by
  unfold Obligations.OperationsAdvance
  intro s t _ hb hp hh h hbt
  rw [step_of_coreTurn hh] at h
  cases coreOutcome_next h with
  | stays hs => simp [hb, hp] at hs
  | ends | compressEnds => simp at hbt
  | decoded _ _ _ len d m hd | shadowed _ _ _ len d hd =>
    have hop := hd.op
    have hpos := hd.pos
    have hfits := hd.fits
    exact ⟨hp, hd.ipGrows, hd.ipBound, by rw [setDec_dec]; omega, by rw [setDec_dec]; omega, hd.keepsL⟩
  | varintMore _ hp' | varintLast _ hp' | fragmentStarts _ hp' | matched _ hp' | skipped _ hp' | tail _ hp' =>
    exact absurd (hp.symm.trans hp') nofun

/-- Settles O44: it holds. FRAGMENT_INIT clears the entries below `2 ^ table_bits`, and HASH is taken modulo that. -/
theorem fragmentTableCleared : Obligations.FragmentTableCleared := by
  unfold Obligations.FragmentTableCleared
  intro s t hb hp hh hlt h
  rw [step_of_fragment hh hb hp] at h
  obtain ⟨-, rfl⟩ | ⟨hle, -⟩ := fragmentStep_next h
  · rw [fragmentInit_tableBits, fragmentInit_ht]
    exact ⟨fun h hlt => htRead_htClear_of_lt hlt _, fun h hle => htRead_htClear_of_le hle _,
      fun w => Nat.mod_lt _ (Nat.two_pow_pos _)⟩
  · omega

/-- Settles O30: it holds, by VARINT_DECODE's return in each of the three commands. -/
theorem varintLastEndsTheVarint : Obligations.VarintLastEndsTheVarint := by
  unfold Obligations.VarintLastEndsTheVarint
  rintro g s v L hr h5 hv rfl
  have hcount : s.varint.count = v.count := by rw [hv]
  rw [exec_varintLast hr h5 hv, hcount]
  exact ⟨varintOk_getlen (s := setVarint s v), varintOk_decompress (s := setVarint s v),
    varintOk_insufficient (s := setVarint s v), varintOk_validate (s := setVarint s v)⟩

end Sys2Proof.Machine

/-! PROOF. The commands' starts (R30, R42, R170, R281, R287). -/

namespace Sys2Proof.Machine

section

variable {s t u : State} {op : BitVec 3} {level : BitVec 2} {run : State → Result}

/-- MAXLEN's start with no command running. -/
theorem startPlain_of_idle (hb : busy s = false) : startPlain op level run s = run (beginCommand op level s) := by
  rw [startPlain, hb, if_neg Bool.false_ne_true]

/-- A command while another runs is ignored (R30, R281). -/
theorem exec_command_of_busy {i : Instr} (hc : contextOf i = .command) (hb : busy s = true) : exec i s = .next s := by
  cases i with
  | cmdMaxlen level | cmdCompress level | cmdGetlen level | cmdDecompress level | cmdValidate level => exact if_pos hb
  | litX1 e | litX2 e | litX3 e | litX4 e | litShort n => cases hc
  | copy1 l off | copy2 l off | copy4 l off => cases hc
  | varintMore g | varintLast g => cases hc

/-- The state with everything an earlier command may have left that no register of the window shows taken from another:
HT, the datapath registers, the latched arguments and the phase (R42, R287). -/
def withHiddenOf (u s : State) : State :=
  { s with ht := u.ht, varint := u.varint, dec := u.dec, enc := u.enc, latch := u.latch, phase := u.phase }

/-- Two starts agree in the window, memory, the latched arguments, the phase and the registers the command goes on with. -/
structure StartsAlike (t t' : State) : Prop where
  status : t'.status = t.status
  result : t'.result = t.result
  mem : t'.mem = t.mem
  phase : t'.phase = t.phase
  latch : t'.latch = t.latch
  varint : t.phase = .varint → t'.varint = t.varint
  fragment : t.phase = .fragment → t'.enc.n = t.enc.n ∧ t'.enc.op = t.enc.op ∧ t'.enc.base = t.enc.base

/-- The varint unit starts from 0 (R45). -/
theorem beginVarint_alike :
    StartsAlike (beginVarint (beginCommand op level s)) (beginVarint (beginCommand op level (withHiddenOf u s))) :=
  ⟨rfl, rfl, rfl, rfl, rfl, fun _ => rfl, nofun⟩

/-- R172's checks and R173's start read the latched arguments only, which the start has just written. -/
theorem runCompress_alike (h : runCompress (beginCommand op level s) = .next t) :
    ∃ t', runCompress (beginCommand op level (withHiddenOf u s)) = .next t' ∧ StartsAlike t t' := by
  obtain ⟨hl, rfl⟩ | ⟨hl, ho, rfl⟩ | ⟨hl, ho, -⟩ := runCompress_next h
  · exact ⟨_, runCompress_tooLarge hl, rfl, rfl, rfl, rfl, rfl, nofun, nofun⟩
  · exact ⟨_, runCompress_insufficient hl ho, rfl, rfl, rfl, rfl, rfl, nofun, nofun⟩
  · rw [runCompress_starts hl ho] at h
    cases h
    exact ⟨_, runCompress_starts hl ho, rfl, rfl, rfl, rfl, rfl, nofun, fun _ => ⟨rfl, rfl, rfl⟩⟩

/-- GETLEN's and VALIDATE's start. -/
theorem startIn_varint_alike (h : startIn op level (fun s => .next (beginVarint s)) s = .next t) (hb : busy s = false) :
    ∃ t', startIn op level (fun s => .next (beginVarint s)) (withHiddenOf u s) = .next t' ∧ StartsAlike t t' := by
  obtain ⟨hb', -⟩ | ⟨-, hf, hm, h⟩ := startIn_next h
  · simp [hb] at hb'
  · cases h
    exact ⟨_, startIn_of_ready (s := withHiddenOf u s) hb ⟨of_decide_eq_true hf, hm⟩, beginVarint_alike⟩

/-- COMPRESS's and DECOMPRESS's start, where the command's rule after it starts alike. -/
theorem startInOut_alike (h : startInOut op level run s = .next t) (hb : busy s = false)
    (hrun : run (beginCommand op level s) = .next t →
      ∃ t', run (beginCommand op level (withHiddenOf u s)) = .next t' ∧ StartsAlike t t') :
    ∃ t', startInOut op level run (withHiddenOf u s) = .next t' ∧ StartsAlike t t' := by
  obtain ⟨hb', -⟩ | ⟨-, fi, fo, mi, mo, hd, h⟩ := startInOut_next h
  · simp [hb] at hb'
  · rw [startInOut_of_ready (s := withHiddenOf u s) hb ⟨⟨of_decide_eq_true fi, mi⟩, of_decide_eq_true fo, mo, hd⟩]
    exact hrun h

/-- Every command starts alike whatever an earlier one left (R42, R287). -/
theorem exec_command_alike {i : Instr} (hc : contextOf i = .command) (hb : busy s = false) (h : exec i s = .next t) :
    ∃ t', exec i (withHiddenOf u s) = .next t' ∧ StartsAlike t t' := by
  cases i with
  | cmdMaxlen level =>
    have e := (startPlain_of_idle (op := opMaxlen) (level := level) (run := runMaxlen) hb).symm.trans h
    cases e
    exact ⟨_, startPlain_of_idle (s := withHiddenOf u s) hb, rfl, rfl, rfl, rfl, rfl, nofun, nofun⟩
  | cmdCompress level => exact startInOut_alike h hb runCompress_alike
  | cmdGetlen level => exact startIn_varint_alike h hb
  | cmdValidate level => exact startIn_varint_alike h hb
  | cmdDecompress level =>
    refine startInOut_alike (run := fun s => .next (beginVarint s)) h hb fun h => ?_
    cases h
    exact ⟨_, rfl, beginVarint_alike⟩
  | litX1 e | litX2 e | litX3 e | litX4 e | litShort n => cases hc
  | copy1 l off | copy2 l off | copy4 l off => cases hc
  | varintMore g | varintLast g => cases hc

end

/-- Settles O28: it holds. R281 latches the arguments anew, and each rule writes the registers it goes on with. -/
theorem startIgnoresHiddenState : Obligations.StartIgnoresHiddenState := by
  unfold Obligations.StartIgnoresHiddenState
  intro i s s' t hc hb hs' h
  obtain ⟨t', ht', ha⟩ := exec_command_alike (u := s') hc hb h
  have e : withHiddenOf s' s = s' := hs'.symm
  rw [e] at ht'
  exact ⟨t', ht', ha.status, ha.result, ha.mem, ha.phase, ha.latch, ha.varint, ha.fragment⟩

/-- Settles O21: it holds, since each of the five starts tests BUSY first. -/
theorem commandIgnoredWhileBusy : Obligations.CommandIgnoredWhileBusy := by
  unfold Obligations.CommandIgnoredWhileBusy
  exact fun _ _ hc hb => exec_command_of_busy hc hb

/-- Settles O22: it holds, by R170's rule after the start. -/
theorem maxlenCompletes : Obligations.MaxlenCompletes := by
  unfold Obligations.MaxlenCompletes
  intro level s hb
  have hstart : exec (.cmdMaxlen level) s = runMaxlen (beginCommand opMaxlen level s) := startPlain_of_idle hb
  have hmod (n : Nat) : BitVec.ofNat 64 (n % 2 ^ 64) = BitVec.ofNat 64 n := BitVec.eq_of_toNat_eq (by simp)
  rw [hstart, hmod]
  rfl

/-- Settles O26: it holds, by the three starts where the regions are as the host owes them. -/
theorem streamCommandsStart : Obligations.StreamCommandsStart := by
  unfold Obligations.StreamCommandsStart
  exact fun level s hb hr =>
    ⟨startIn_of_ready (op := opGetlen) (run := fun s => .next (beginVarint s)) hb hr,
      startIn_of_ready (op := opValidate) (run := fun s => .next (beginVarint s)) hb hr,
      startInOut_of_ready (op := opDecompress) (run := fun s => .next (beginVarint s)) hb⟩

end Sys2Proof.Machine

/-! PROOF. The register window and the state after reset (R21 to R30, R44, R95, R330). -/

namespace Sys2Proof.Machine

section

variable {s : State} {a : Addr} {off : BitVec 8} {width : AccessWidth} {v : BitVec 64} {rest : List HostAction}

/-! ### Reads -/

/-- The window's offset 0 is at REG_WINDOW_BASE. -/
theorem windowOffset_base (s : State) : windowOffset s.windowBase s = some 0 := by
  simpa using windowOffset_at s 0

/-- Outside the 256 bytes there is no offset. -/
theorem windowOffset_outside (h : 256 ≤ (a - s.windowBase).toNat) : windowOffset a s = none :=
  if_neg (Nat.not_lt.mpr h)

/-- A step that reads the window. -/
theorem step_read (h : s.host = .read a width :: rest) (ho : windowOffset a s = some off) :
    step s = .next { s with host := rest, hostData := windowRead off width s } := by
  have ho' : windowOffset a (setHost s rest) = some off := ho
  rw [step_of_action h]
  show Host.Outcome.next (hostRead a width (setHost s rest)) = _
  rw [hostRead, ho']
  rfl

/-- A read of 64 bits at a multiple of 8 returns the register (R30). -/
theorem windowRead_of_aligned (h : off.toNat % 8 = 0) : windowRead off .w64 s = windowRegister off s :=
  if_pos (by simp [accessDefined, h])

/-- A read of another width or offset returns 0 (R30; log entry 7). -/
theorem windowRead_of_undefined (h : width ≠ .w64 ∨ off.toNat % 8 ≠ 0) : windowRead off width s = 0 := by
  refine if_neg ?_
  rw [accessDefined, Bool.and_eq_true, decide_eq_true_eq, decide_eq_true_eq]
  exact fun ⟨hw, ho⟩ => h.elim (· hw) (· ho)

/-- A reserved offset is none of the registers'. -/
theorem ne_of_reserved {k : BitVec 8} (h : 0x38 ≤ off.toNat) (hk : k.toNat < 0x38) : off ≠ k := by
  rintro rfl
  omega

/-- The reserved offsets read 0 (R29). -/
theorem windowRead_of_reserved (h : 0x38 ≤ off.toNat) : windowRead off width s = 0 := by
  have hreg : windowRegister off s = 0 := by simp [windowRegister, ne_of_reserved h]
  rw [windowRead, hreg, ite_self]

/-! ### Writes -/

/-- A step that writes a command to CMD. -/
theorem step_write_command {i : Instr} (h : s.host = .write a width v :: rest) (hc : commandWritten a width v s = some i) :
    step s = exec i (setHost s rest) := by
  have hc' : commandWritten a width v (setHost s rest) = some i := hc
  rw [step_of_action h, hostOutcome, hostWork, hc']
  rfl

/-- A step whose write starts no command. -/
theorem step_write (h : s.host = .write a width v :: rest) (hc : commandWritten a width v s = none) :
    step s = .next (hostWrite a width v (setHost s rest)) := by
  have hc' : commandWritten a width v (setHost s rest) = none := hc
  rw [step_of_action h, hostOutcome, hostWork, hc']
  rfl

/-- A step whose write of the window is not taken changes nothing (R30). -/
theorem step_write_ignored (h : s.host = .write a width v :: rest) (ho : windowOffset a s = some off)
    (hw : writeTaken off width s = false) : step s = .next (setHost s rest) := by
  have ho' : windowOffset a (setHost s rest) = some off := ho
  have hw' : ¬ writeTaken off width (setHost s rest) = true := fun h => absurd (hw.symm.trans h) nofun
  have hc : commandWritten a width v s = none := by
    rw [commandWritten, ho]
    exact if_neg (by simp [hw])
  rw [step_write h hc, hostWrite, ho']
  exact congrArg _ (if_neg hw')

/-- A step whose write is taken and starts no command writes the register at the offset. -/
theorem step_write_taken (h : s.host = .write a width v :: rest) (ho : windowOffset a s = some off)
    (hw : writeTaken off width s = true) (hc : off = 0 → commandOf v = none) :
    step s = .next (windowWritten off v (setHost s rest)) := by
  have ho' : windowOffset a (setHost s rest) = some off := ho
  have hc' : commandWritten a width v s = none := by
    rw [commandWritten, ho]
    exact ite_eq_right_iff.mpr fun h0 => hc h0.2
  rw [step_write h hc', hostWrite, ho']
  exact congrArg _ (if_pos hw)

/-- A step that reads or writes outside the window changes nothing (log entry 20). -/
theorem step_outside (h : s.host = .write a width v :: rest ∨ s.host = .read a width :: rest)
    (ho : windowOffset a s = none) : step s = .next (setHost s rest) := by
  have ho' : windowOffset a (setHost s rest) = none := ho
  obtain h | h := h
  · have hc : commandWritten a width v s = none := by rw [commandWritten, ho]
    rw [step_write h hc, hostWrite, ho']
  · rw [step_of_action h]
    show Host.Outcome.next (hostRead a width (setHost s rest)) = _
    rw [hostRead, ho']

/-- A defined write with no command running is taken (R30). -/
theorem writeTaken_of_idle (hb : busy s = false) (ho : off.toNat % 8 = 0) : writeTaken off .w64 s = true := by
  simp [writeTaken, accessDefined, hb, ho]

/-- A write while a command runs, of another width or at another offset is not taken (R30). -/
theorem writeTaken_of_undefined (h : busy s = true ∨ width ≠ .w64 ∨ off.toNat % 8 ≠ 0) :
    writeTaken off width s = false := by
  rw [writeTaken, accessDefined]
  obtain h | h | h := h <;> simp [h]

/-- The reserved offsets ignore writes (R29). -/
theorem windowWritten_of_reserved (h : 0x38 ≤ off.toNat) : windowWritten off v s = s := by
  simp [windowWritten, ne_of_reserved h]

/-! ### CMD -/

/-- A CMD value decodes from its eight bytes as itself (R68, R94). -/
theorem decode_command_leBytes (w : BitVec 64) :
    decode .command (leBytes 8 w.toNat) = (decodeCommand w).map (fun i => (i, [])) := by
  have hw : takeLE 8 (leBytes 8 w.toNat) = .ok (w.toNat, []) := by
    have e := takeLE_leBytes 8 w.toNat []
    rwa [List.append_nil, Nat.mod_eq_of_lt (show w.toNat < 256 ^ 8 from w.isLt)] at e
  simp only [decode, hw, BitVec.ofNat_toNat, BitVec.setWidth_eq]
  cases decodeCommand w <;> rfl

/-- A reserved LEVEL or OPCODE is no command (R95). -/
theorem decodeCommand_of_reserved {w : BitVec 64} (h : w.extractLsb' 4 2 = 3#2 ∨ w.extractLsb' 0 3 = 0#3 ∨
    w.extractLsb' 0 3 = 6#3 ∨ w.extractLsb' 0 3 = 7#3) : ∃ r, decodeCommand w = .error r := by
  unfold decodeCommand
  split
  · exact ⟨_, rfl⟩
  split
  · exact ⟨_, rfl⟩
  · next hl =>
    obtain h | h | h | h := h
    · exact absurd h hl
    all_goals rw [h]; exact ⟨_, rfl⟩

/-- The mask keeps LEVEL and OPCODE (R22). -/
theorem extractLsb'_commandMask (v : BitVec 64) :
    (v &&& commandMask).extractLsb' 4 2 = v.extractLsb' 4 2 ∧ (v &&& commandMask).extractLsb' 0 3 = v.extractLsb' 0 3 := by
  have hl : commandMask.extractLsb' 4 2 = BitVec.allOnes 2 := by decide
  have ho : commandMask.extractLsb' 0 3 = BitVec.allOnes 3 := by decide
  rw [BitVec.extractLsb'_and, BitVec.extractLsb'_and, hl, ho, BitVec.and_allOnes, BitVec.and_allOnes]
  exact ⟨rfl, rfl⟩

/-- A CMD value with a reserved field starts no command (R95; log entry 7). -/
theorem commandOf_of_reserved (h : v.extractLsb' 4 2 = 3#2 ∨ v.extractLsb' 0 3 = 0#3 ∨
    v.extractLsb' 0 3 = 6#3 ∨ v.extractLsb' 0 3 = 7#3) : commandOf v = none := by
  obtain ⟨hl, ho⟩ := extractLsb'_commandMask v
  rw [← hl, ← ho] at h
  obtain ⟨r, hr⟩ := decodeCommand_of_reserved h
  rw [commandOf, decode_command_leBytes, hr]
  rfl

end

/-- Settles O8: it holds, as State.reset gives the registers. -/
theorem resetRegisters : Obligations.ResetRegisters := by
  unfold Obligations.ResetRegisters
  exact ⟨rfl, rfl, rfl, rfl, rfl, rfl, reset_not_busy⟩

/-- Settles O57: it holds, since the invariants of a running command say nothing with BUSY = 0. -/
theorem resetMeetsInvariants : Obligations.ResetMeetsInvariants := by
  unfold Obligations.ResetMeetsInvariants
  exact ⟨⟨rfl, rfl⟩, resetBlock_statusInv State.reset, .of_not_busy reset_not_busy, .of_not_busy reset_not_busy,
    fun hb => absurd (reset_not_busy.symm.trans hb) nofun⟩

/-- Settles O10: it holds, by the window's table of registers. -/
theorem windowReads : Obligations.WindowReads := by
  unfold Obligations.WindowReads
  intro s rest off h ha
  refine ⟨_, step_read h (windowOffset_at s off), ?_⟩
  have hreserved : 0x38 ≤ off.toNat → windowRead off .w64 s = 0 := windowRead_of_reserved
  rw [windowRead_of_aligned ha] at hreserved ⊢
  refine ⟨?_, ?_, ?_, ?_, ?_, ?_, ?_, hreserved⟩ <;> rintro rfl <;> rfl

/-- Settles O11: it holds, since such a write is taken. -/
theorem windowWrites : Obligations.WindowWrites := by
  unfold Obligations.WindowWrites
  intro s rest off v h hb
  have htaken (ha : off.toNat % 8 = 0) (h0 : off ≠ 0) : step s = .next (windowWritten off v (setHost s rest)) :=
    step_write_taken h (windowOffset_at s off) (writeTaken_of_idle hb ha) (absurd · h0)
  refine ⟨?_, ?_, ?_, ?_, ?_⟩
  · rintro rfl; exact htaken rfl nofun
  · rintro rfl; exact htaken rfl nofun
  · rintro rfl; exact htaken rfl nofun
  · rintro rfl; exact htaken rfl nofun
  · rintro (rfl | rfl) <;> exact htaken rfl nofun

/-- Settles O12: it holds, since no register stands at a reserved offset, whether the write is taken or not. -/
theorem reservedOffsetsInert : Obligations.ReservedOffsetsInert := by
  unfold Obligations.ReservedOffsetsInert
  refine fun s rest off hr => ⟨fun width h => ?_, fun width v h => ?_⟩
  · rw [step_read h (windowOffset_at s off), windowRead_of_reserved hr]
  · cases hw : writeTaken off width s with
    | false => exact step_write_ignored h (windowOffset_at s off) hw
    | true =>
      rw [step_write_taken h (windowOffset_at s off) hw (absurd · (ne_of_reserved hr (by decide))),
        windowWritten_of_reserved hr]
      rfl

/-- Settles O13: it holds. Such a write is not taken, such a read is not defined, and outside the window there is no
offset. -/
theorem ignoredWindowAccesses : Obligations.IgnoredWindowAccesses := by
  unfold Obligations.IgnoredWindowAccesses
  refine ⟨fun s rest off width v h hi => ?_, fun s rest off width h hi => ?_, fun s rest a width v ho h => ?_⟩
  · exact step_write_ignored h (windowOffset_at s off) (writeTaken_of_undefined hi)
  · rw [step_read h (windowOffset_at s off), windowRead_of_undefined hi]
  · exact step_outside h (windowOffset_outside ho)

/-- Settles O14: it holds. Where the write is taken it starts no command, and CMD holds nothing. -/
theorem reservedCommandChangesNothing : Obligations.ReservedCommandChangesNothing := by
  unfold Obligations.ReservedCommandChangesNothing
  intro s rest v h hr
  cases hw : writeTaken 0 .w64 s with
  | false => exact step_write_ignored h (windowOffset_base s) hw
  | true =>
    rw [step_write_taken h (windowOffset_base s) hw fun _ => commandOf_of_reserved hr]
    rfl

/-- Settles O20: it holds, since such a write is taken and its masked value decodes. -/
theorem stepRunsCommandWrite : Obligations.StepRunsCommandWrite := by
  unfold Obligations.StepRunsCommandWrite
  intro s rest v i left h hb hd
  have hcommand : commandOf v = some i := by rw [commandOf, commandMask, hd]
  refine step_write_command h ?_
  rw [commandWritten, windowOffset_base]
  exact (if_pos ⟨writeTaken_of_idle hb rfl, rfl⟩).trans hcommand

end Sys2Proof.Machine

/-! PROOF. The host's accesses to memory (R61, R75, R284, R340). -/

namespace Sys2Proof.Machine

section

variable {s : State} {a : Addr} {b : Byte} {rest : List HostAction}

/-- A step that reads a byte of memory. -/
theorem step_load (h : s.host = .load a :: rest) : step s = hostLoad a (setHost s rest) := step_of_action h

/-- A step that writes a byte of memory. -/
theorem step_store (h : s.host = .store a b :: rest) : step s = hostStore a b (setHost s rest) := step_of_action h

/-- A host read of a byte that no command holds as OUT (R75). -/
theorem hostLoad_of_free (hm : mapAddr s.mem.map a ≠ none) (ho : ¬ HeldAsOut s a) :
    hostLoad a s = .next { s with hostData := (memRead s.mem a).setWidth 64 } := by
  have hfree : ¬ holdsOut s a = true := fun h => ho (holdsOut_iff.mp h).2
  rw [hostLoad, atMemory_of_mapped hm, loaded, if_neg hfree]

/-- A host read that races with the command that holds the byte as OUT (R75, U1). -/
theorem hostLoad_of_heldAsOut (hm : mapAddr s.mem.map a ≠ none) (ho : HeldAsOut s a) :
    hostLoad a s = .next { s with hostData := (Config.freeByte s.fresh).setWidth 64, fresh := s.fresh + 1 } := by
  rw [hostLoad, atMemory_of_mapped hm, loaded, if_pos (holdsOut_iff.mpr ⟨hm, ho⟩)]

/-- A host write of a byte that no command holds (R75). -/
theorem hostStore_of_free (hm : mapAddr s.mem.map a ≠ none) (hi : ¬ HeldAsIn s a) (ho : ¬ HeldAsOut s a) :
    hostStore a b s = .next (setMem s (memWrite s.mem a b)) := by
  have hfree : ¬ (holdsIn s a || holdsOut s a) = true := by
    rw [Bool.or_eq_true, holdsIn_iff, holdsOut_iff]
    exact fun h => h.elim (fun h => hi h.2) (fun h => ho h.2)
  rw [hostStore, atMemory_of_mapped hm, if_neg hfree]

/-- A host write of a byte that the running command holds (R284, U2). -/
theorem hostStore_of_held (hm : mapAddr s.mem.map a ≠ none) (h : HeldAsIn s a ∨ HeldAsOut s a) :
    hostStore a b s = .refused .hostTouchedRegion := by
  have hheld : (holdsIn s a || holdsOut s a) = true := by
    rw [Bool.or_eq_true, holdsIn_iff, holdsOut_iff]
    exact h.imp (⟨hm, ·⟩) (⟨hm, ·⟩)
  rw [hostStore, atMemory_of_mapped hm, if_pos hheld]

/-- What every address reads as after a write to an address that names a byte (R61). -/
theorem memRead_memWrite {m : Memory} (hw : memWf m) (ha : mapAddr m.map a ≠ none) (c : Addr) :
    memRead (memWrite m a b) c = if mapAddr m.map c = mapAddr m.map a then b else memRead m c := by
  split
  · next h => exact memRead_memWrite_of_eq hw h ha b
  · next h => exact memRead_memWrite_ne h b

end

/-- Settles O15: it holds, by what each of the two accesses does with the byte free, held, and without memory. -/
theorem hostMemoryAccesses : Obligations.HostMemoryAccesses := by
  unfold Obligations.HostMemoryAccesses
  refine ⟨?_, ?_, ?_, ?_, ?_⟩
  · intro s rest a h hm ho
    rw [step_load h]
    exact hostLoad_of_free (s := setHost s rest) hm ho
  · intro s rest a h hm ho
    rw [step_load h]
    exact ⟨_, hostLoad_of_heldAsOut (s := setHost s rest) hm ho⟩
  · intro s rest a b h hw hm hi ho
    rw [step_store h]
    exact ⟨_, hostStore_of_free (s := setHost s rest) hm hi ho, rfl, rfl, memRead_memWrite hw hm⟩
  · intro s rest a b h hm hheld
    rw [step_store h]
    exact hostStore_of_held (s := setHost s rest) hm hheld
  · rintro s rest a b (h | h) hm
    · rw [step_load h]
      exact atMemory_of_unmapped (s := setHost s rest) hm _
    · rw [step_store h]
      exact atMemory_of_unmapped (s := setHost s rest) hm _

end Sys2Proof.Machine

/-! PROOF. The regions a command may be started with (R61, R64). -/

namespace Sys2Proof.Machine

section

variable {s : State} {op : BitVec 3} {level : BitVec 2} {run : State → Result}

/-! ### The meanings as starts -/

theorem exec_cmdGetlen : exec (.cmdGetlen level) s = startIn opGetlen level (fun s => .next (beginVarint s)) s := rfl

theorem exec_cmdValidate : exec (.cmdValidate level) s = startIn opValidate level (fun s => .next (beginVarint s)) s := rfl

theorem exec_cmdCompress : exec (.cmdCompress level) s = startInOut opCompress level runCompress s := rfl

theorem exec_cmdDecompress :
    exec (.cmdDecompress level) s = startInOut opDecompress level (fun s => .next (beginVarint s)) s := rfl

/-! ### Refusals -/

/-- `regionFits` tests R61's `BASE + LEN ≤ 2^64`. -/
theorem regionFits_iff {base len : BitVec 64} : regionFits base len = true ↔ Fits base len := decide_eq_true_iff

/-- A command that reads IN, where IN runs past 2^64. -/
theorem startIn_of_wraps (hb : busy s = false) (h : ¬ Fits s.inBase s.inLen) :
    startIn op level run s = .refused .regionWraps := by
  rw [← regionFits_iff] at h
  rw [startIn, hb, if_neg Bool.false_ne_true, if_neg h]

/-- A command that reads IN, where IN lacks memory. -/
theorem startIn_of_unmapped (hb : busy s = false) (hf : Fits s.inBase s.inLen) (h : ¬ Mapped s.mem.map s.inBase s.inLen) :
    startIn op level run s = .refused .notMapped := by
  rw [← regionFits_iff] at hf
  rw [Mapped, ← regionMapped_iff] at h
  rw [startIn, hb, if_neg Bool.false_ne_true, if_pos hf, if_neg h]

/-- A command that reads IN and writes OUT, where one of them runs past 2^64. -/
theorem startInOut_of_wraps (hb : busy s = false) (h : ¬ (Fits s.inBase s.inLen ∧ Fits s.outBase s.outLen)) :
    startInOut op level run s = .refused .regionWraps := by
  rw [← regionFits_iff, ← regionFits_iff, ← Bool.and_eq_true] at h
  rw [startInOut, hb, if_neg Bool.false_ne_true, if_neg h]

section

variable (hb : busy s = false) (hf : Fits s.inBase s.inLen ∧ Fits s.outBase s.outLen)
include hb hf

/-- A command that reads IN and writes OUT, where one of them lacks memory. -/
theorem startInOut_of_unmapped (h : ¬ (Mapped s.mem.map s.inBase s.inLen ∧ Mapped s.mem.map s.outBase s.outLen)) :
    startInOut op level run s = .refused .notMapped := by
  rw [← regionFits_iff, ← regionFits_iff, ← Bool.and_eq_true] at hf
  rw [Mapped, Mapped, ← regionMapped_iff, ← regionMapped_iff, ← Bool.and_eq_true] at h
  rw [startInOut, hb, if_neg Bool.false_ne_true, if_pos hf, if_neg h]

/-- A command that reads IN and writes OUT, where the two are not disjoint. -/
theorem startInOut_of_overlap (hm : Mapped s.mem.map s.inBase s.inLen ∧ Mapped s.mem.map s.outBase s.outLen)
    (h : ¬ regionsDisjoint s = true) : startInOut op level run s = .refused .regionsOverlap := by
  rw [← regionFits_iff, ← regionFits_iff, ← Bool.and_eq_true] at hf
  rw [Mapped, Mapped, ← regionMapped_iff, ← regionMapped_iff, ← Bool.and_eq_true] at hm
  rw [startInOut, hb, if_neg Bool.false_ne_true, if_pos hf, if_pos hm, if_neg h]

end

/-! ### Disjoint regions -/

/-- R64's condition in the terms of the claims: the addresses disjoint, no byte of both, none twice in OUT. -/
theorem regionsDisjoint_iff (hf : Fits s.inBase s.inLen ∧ Fits s.outBase s.outLen)
    (hm : Mapped s.mem.map s.inBase s.inLen ∧ Mapped s.mem.map s.outBase s.outLen) :
    regionsDisjoint s = true ↔
      (s.inBase.toNat + s.inLen.toNat ≤ s.outBase.toNat ∨ s.outBase.toNat + s.outLen.toNat ≤ s.inBase.toNat) ∧
        (∀ i < s.inLen.toNat, ∀ j < s.outLen.toNat,
          mapAddr s.mem.map (s.inBase + BitVec.ofNat 64 i) ≠ mapAddr s.mem.map (s.outBase + BitVec.ofNat 64 j)) ∧
        ∀ j < s.outLen.toNat, ∀ k < j,
          mapAddr s.mem.map (s.outBase + BitVec.ofNat 64 j) ≠ mapAddr s.mem.map (s.outBase + BitVec.ofNat 64 k) := by
  rw [regionsDisjoint, regionsApart_iff hf.1 hf.2 (regionMapped_iff.mpr hm.1) (regionMapped_iff.mpr hm.2)]
  refine and_congr_right fun _ => and_congr_right fun _ =>
    ⟨fun ho j hj k hk => ?_, fun h => ⟨hm.2, fun j hj k hk e => ?_⟩⟩
  · exact ho.ne hj (by omega) (by omega)
  · obtain hlt | rfl | hlt := Nat.lt_trichotomy j k
    · exact absurd e.symm (h k hk j hlt)
    · rfl
    · exact absurd e (h j hj k hlt)

/-- COMPRESS's rule after its start always answers a next state (R172, R173). -/
theorem runCompress_total (s : State) : ∃ t, runCompress s = .next t := by
  by_cases hi : Config.maxInput < inLenOf s
  · exact ⟨_, runCompress_tooLarge hi⟩
  by_cases ho : outLenOf s < Config.maxCompressedLength (inLenOf s)
  · exact ⟨_, runCompress_insufficient (Nat.not_lt.mp hi) ho⟩
  · exact ⟨_, runCompress_starts (Nat.not_lt.mp hi) (Nat.not_lt.mp ho)⟩

end

/-- Settles O27: it holds, since the starts' tests are R61's and R64's conditions, in their order. -/
theorem badRegionsRefused : Obligations.BadRegionsRefused := by
  unfold Obligations.BadRegionsRefused
  intro level s hb
  rw [exec_cmdGetlen, exec_cmdValidate, exec_cmdCompress, exec_cmdDecompress]
  refine ⟨?_, ?_, ?_, ?_, ?_, ?_, ?_⟩
  · exact fun h => ⟨startIn_of_wraps hb h, startIn_of_wraps hb h⟩
  · exact fun hf h => ⟨startIn_of_unmapped hb hf h, startIn_of_unmapped hb hf h⟩
  · intro hf hm
    have hr : inReady s := ⟨hf, regionMapped_iff.mpr hm⟩
    exact ⟨⟨_, startIn_of_ready hb hr⟩, ⟨_, startIn_of_ready hb hr⟩⟩
  · exact fun h => ⟨startInOut_of_wraps hb h, startInOut_of_wraps hb h⟩
  · exact fun fi fo h => ⟨startInOut_of_unmapped hb ⟨fi, fo⟩ h, startInOut_of_unmapped hb ⟨fi, fo⟩ h⟩
  · intro fi fo mi mo h
    have hd : ¬ regionsDisjoint s = true := by
      rw [regionsDisjoint_iff ⟨fi, fo⟩ ⟨mi, mo⟩]
      rintro ⟨ha, hio, hoo⟩
      obtain ⟨h1, h2⟩ | ⟨i, hi, j, hj, e⟩ | ⟨j, hj, k, hk, e⟩ := h
      · omega
      · exact hio i hi j hj e
      · exact hoo j hj k hk e
    exact ⟨startInOut_of_overlap hb ⟨fi, fo⟩ ⟨mi, mo⟩ hd, startInOut_of_overlap hb ⟨fi, fo⟩ ⟨mi, mo⟩ hd⟩
  · intro fi fo mi mo ha hio hoo
    have hd : regionsDisjoint s = true := (regionsDisjoint_iff ⟨fi, fo⟩ ⟨mi, mo⟩).mpr ⟨ha, hio, hoo⟩
    have hr : inOutReady s := ⟨⟨fi, regionMapped_iff.mpr mi⟩, fo, regionMapped_iff.mpr mo, hd⟩
    obtain ⟨t, ht⟩ := runCompress_total (beginCommand opCompress level s)
    exact ⟨⟨t, (startInOut_of_ready hb hr).trans ht⟩, ⟨_, startInOut_of_ready hb hr⟩⟩

end Sys2Proof.Machine

/-! PROOF. What an emission leaves of IN, of OUT and of the rest of memory, and that the core writes only OUT (R62, R63,
R191, R238). -/

namespace Sys2Proof.Machine

section

variable {s t u : State} {n j k : Nat}

/-! ### Bytes of OUT alone -/

/-- Which bytes are OUT's depends on the latched arguments, and whether they changed on memory. -/
theorem outOnly.congr {s' t' : State} (h : outOnly s t j k) (hl : s.latch = s'.latch) (hm : s.mem = s'.mem)
    (ht : t'.mem = t.mem) : outOnly s' t' j k := by
  have ho := (region_congr hl).2.2.2
  simpa only [outOnly, ht, hm, ho] using h

/-- A byte that is none of OUT's is as before. -/
theorem memRead_of_outOnly {a : Addr} (h : outOnly s t j k) (hr : j + k ≤ outLenOf s)
    (ha : ∀ i < outLenOf s, mapAddr s.mem.map a ≠ mapAddr s.mem.map (outAddr s i)) : memRead t.mem a = memRead s.mem a :=
  h.2 a fun i hi => ha _ (by omega)

/-! ### Emissions -/

/-- An emission changes OUT's bytes from op alone. -/
theorem Emitted.outOnly (h : Emitted s n t) : outOnly s t s.enc.op.toNat n := ⟨h.map, h.outside⟩

/-- What wrote within OUT is an emission. -/
theorem Wrote.emitted (h : Wrote s n t) (hr : s.enc.op.toNat + n ≤ outLenOf s) : Emitted s n t :=
  ⟨hr, h.eq, h.outside, h.wf, h.map⟩

/-- What may write nothing changes OUT's bytes alone. -/
theorem Wrote.outOnly (h : Wrote s n t) : ∃ j k, j + k ≤ outLenOf s ∧ outOnly s t j k := by
  obtain rfl | hr := h.room
  · exact ⟨0, 0, Nat.zero_le _, h.map, fun a _ => h.outside a (by omega)⟩
  · exact ⟨_, n, hr, (h.emitted hr).outOnly⟩

/-- Something written and then an emission are one emission. -/
theorem Wrote.trans_emitted {m : Nat} (h : Wrote s n t) (h' : Emitted t m u) : Emitted s (n + m) u := by
  have hlen : outLenOf t = outLenOf s := by rw [h.eq]; rfl
  have hop := h.op
  have hr := h'.room
  exact (h.emitted (by omega)).trans h'

/-! ### The core's turn -/

@[simp] theorem insertBehind_enc (s : State) : (insertBehind s).enc = s.enc := by rw [insertBehind_eq, setHt_enc]
@[simp] theorem insertBehind_mem (s : State) : (insertBehind s).mem = s.mem := by rw [insertBehind_eq, setHt_mem]
@[simp] theorem insertBehind_latch (s : State) : (insertBehind s).latch = s.latch := by rw [insertBehind_eq, setHt_latch]

/-- A match changes OUT's bytes from op alone (R181, R182). -/
theorem matched_outOnly {m : Nat} (e : Emitted (probe s) n u) :
    s.enc.op.toNat + n ≤ outLenOf s ∧ outOnly s (insertBehind (advance m u)) s.enc.op.toNat n := by
  have hr := e.room
  rw [(region_congr (probe_latch s)).2.1, probe_enc_op] at hr
  exact ⟨hr, e.outOnly.congr (probe_latch s) (probe_mem s) (insertBehind_mem _)⟩

/-- A move of the core leaves memory as it was, or changes OUT's bytes under a command that writes OUT. -/
theorem CoreMove.mem_eq_or_outOnly (h : CoreMove s t) (he : EncoderInv s) :
    t.mem = s.mem ∨ (busy s = true ∧ writesOut s = true ∧ ∃ j k, j + k ≤ outLenOf s ∧ outOnly s t j k) := by
  have compressing (hb : busy s = true) (hp : s.phase = .probe) : writesOut s = true :=
    writesOut_iff.mpr (.inl ((he hb).2 hp).1.1)
  cases h with
  | stays | ends | varintMore | varintLast | shadowed | fragmentStarts | compressEnds => exact .inl rfl
  | skipped => exact .inl (probe_mem s)
  | decoded hb _ ho len d m _ hm =>
    exact .inr ⟨hb, writesOut_iff.mpr (.inr ho), _, len, hm.room, hm.map, hm.outside⟩
  | matched hb hp _ _ n copy u v eu _ _ ev =>
    obtain ⟨hr, ho⟩ := matched_outOnly (m := matchLen (probe s)) (eu.trans_emitted ev)
    exact .inr ⟨hb, compressing hb hp, _, _, hr, ho⟩
  | tail hb hp _ n u eu => exact .inr ⟨hb, compressing hb hp, eu.outOnly⟩

/-- The core's turn leaves the latched arguments. -/
theorem CoreMove.latch (h : CoreMove s t) : t.latch = s.latch := by
  cases h with
  | stays | ends | varintMore | varintLast | decoded | shadowed | fragmentStarts | compressEnds => rfl
  | matched _ _ _ _ _ _ u v eu _ _ ev =>
    exact (insertBehind_latch _).trans ((eu.trans_emitted ev).latch.trans (probe_latch s))
  | skipped => exact probe_latch s
  | tail _ _ _ _ u eu => rw [endFragment_latch, eu.eq, emitted_latch]

end

/-- Settles O60: it holds. Every move that writes memory writes OUT's bytes, of which IN has none (R64). -/
theorem coreWritesOnlyOut : Obligations.CoreWritesOnlyOut := by
  unfold Obligations.CoreWritesOnlyOut
  rintro s t ⟨-, -, hl, -, he⟩ hh h
  rw [step_of_coreTurn hh] at h
  have hmove := coreOutcome_next h
  have hin (j : Nat) : inAddr t j = inAddr s j := (region_congr hmove.latch).2.2.1 j
  obtain hm | ⟨hb, hw, j, k, hr, ho⟩ := hmove.mem_eq_or_outOnly he
  · exact ⟨fun a _ => by rw [hm], fun i _ _ => by rw [inByte, inByte, hin, hm], fun _ => hm⟩
  · obtain ⟨-, hi, hout, -⟩ := hl hb
    obtain ⟨-, hapart⟩ := outHeld_own hi (hout hw)
    refine ⟨fun a ha => memRead_of_outOnly ho hr ha, fun i hi _ => ?_, fun h => ?_⟩
    · rw [inByte, hin]
      exact memRead_of_outOnly ho hr (hapart i hi)
    · simp [hb, hw] at h

end Sys2Proof.Machine

/-! PROOF. The probes of COMPRESS: what the probe itself does, and a pass without a match (R67, R176, R178 to R180, R184). -/

namespace Sys2Proof.Machine

section

variable {s : State}

/-- At the probe loop's head the core's turn is one of its passes. -/
theorem step_of_probe (hh : s.host = []) (hb : busy s = true) (hp : s.phase = .probe) : step s = probeStep s := by
  rw [step_of_coreTurn hh, coreOutcome, coreWork, if_pos hb, hp]
  rfl

/-- The loop test (R178). -/
theorem probeGoes_iff : probeGoes s = true ↔ s.enc.ip.toNat + 15 < s.enc.len.toNat := decide_eq_true_iff

/-- MATCH_OK's three conditions (R180). -/
theorem matchOk_iff : matchOk s = true ↔
    s.enc.candidate ≠ 0 ∧ s.enc.ip.toNat - s.enc.candidate.toNat ≤ 65535 ∧
      load32 s (fragPos s s.enc.candidate.toNat) = s.enc.w := by
  rw [matchOk, Bool.and_eq_true, Bool.and_eq_true, decide_eq_true_eq, decide_eq_true_eq, decide_eq_true_eq, and_assoc]

/-- HASH's index with R7's constants written out (R176). -/
theorem hashOf_eq (bits : Nat) (w : BitVec 32) : hashOf bits w = (w * 0x1E35A7BD#32).toNat / 2 ^ 17 % 2 ^ bits := rfl

/-- An entry of HT after a write (R40). -/
theorem htRead_htWrite {t : List (Nat × BitVec 16)} (ht : htWf t) (h : Nat) (v : BitVec 16) (g : Nat) :
    htRead (htWrite t h v) g = if g = h then v else htRead t g := by
  split
  · next e => rw [e, htRead_htWrite_self ht]
  · next e => exact htRead_htWrite_ne e t v

/-! ### What reads through a probe -/

@[simp] theorem probe_fragPos (i : Nat) : fragPos (probe s) i = s.enc.base.toNat + i := by rw [fragPos, probe_enc_base]
@[simp] theorem probe_inByte (i : Nat) : inByte (probe s) i = inByte s i := (byte_congr (probe_latch s) (probe_mem s)).1 i
@[simp] theorem probe_load32 (i : Nat) : load32 (probe s) i = load32 s i :=
  (byte_congr (probe_latch s) (probe_mem s)).2.2 i

section

variable {w : BitVec 32} {h : Nat} {cand : BitVec 16} (hw : w = load32 s (s.enc.base.toNat + s.enc.ip.toNat))
  (hh : h = (w * 0x1E35A7BD#32).toNat / 2 ^ 17 % 2 ^ s.enc.tableBits.toNat) (hc : cand = htRead s.ht h)
include hw hh hc

/-- A probe: the load, the hash, the candidate and the write (R179). -/
theorem probe_eq : probe s = { s with
    ht := htWrite s.ht h (BitVec.ofNat 16 s.enc.ip.toNat)
    enc := { s.enc with w := w, h := BitVec.ofNat 15 h, candidate := cand } } := by
  rw [← hashOf_eq] at hh
  subst hc hh hw
  rfl

/-- MATCH_OK after the probe (R180). -/
theorem matchOk_probe_iff : matchOk (probe s) = true ↔
    cand ≠ 0 ∧ s.enc.ip.toNat - cand.toNat ≤ 65535 ∧ load32 s (s.enc.base.toNat + cand.toNat) = w := by
  have hp := probe_eq hw hh hc
  have hcand : (probe s).enc.candidate = cand := by rw [hp]
  have hload : (probe s).enc.w = w := by rw [hp]
  rw [matchOk_iff, hcand, hload, probe_enc_ip, probe_load32, probe_fragPos]

end

end

/-- Settles O47: it holds. PROBE writes its entry whatever the candidate, and SKIP_STEP follows where MATCH_OK fails. -/
theorem probeMissSkips : Obligations.ProbeMissSkips := by
  unfold Obligations.ProbeMissSkips
  intro s w h cand hb hp hh hwf hgoes hw hhash hcand hmiss
  rw [← matchOk_probe_iff hw hhash hcand] at hmiss
  have hstep : step s = .next (skipStep (probe s)) := by
    rw [step_of_probe hh hb hp, probeStep, if_pos (probeGoes_iff.mpr hgoes), if_neg hmiss]
  rw [probe_eq hw hhash hcand] at hstep
  exact ⟨_, hstep, rfl, htRead_htWrite_self hwf h _, fun g hg => htRead_htWrite_ne hg s.ht _⟩

end Sys2Proof.Machine

/-! PROOF. A probe with a match: the literal and the copy it writes, and where it leaves the encoder (R180 to R183, R186,
R187, R189). -/

namespace Sys2Proof.Machine

section

variable {s t u v : State} {n : Nat}

/-! ### What an emission keeps -/

theorem Emitted.keepsOwn (h : Emitted s n t) (ho : ownsOut s) : ownsOut t := by
  rw [ownsOut, h.map, outLenOf, h.latch]
  exact ho

/-- op stays within OUT. -/
theorem Emitted.op_le (h : Emitted s n t) : t.enc.op.toNat ≤ outLenOf t := by
  rw [h.op, (region_congr h.latch).2.1]
  exact h.room

/-- A byte of OUT before op is as before. -/
theorem Emitted.outByte_before (h : Emitted s n t) (ho : ownsOut s) {j : Nat} (hj : j < s.enc.op.toNat) :
    outByte t j = outByte s j := by
  have hr := h.room
  rw [outByte, outByte, (region_congr h.latch).2.2.2]
  exact h.outside _ fun k hk => ho.ne (by omega) (by omega) (by omega)

/-- No byte of IN is one of OUT's (R64). -/
abbrev inApartOut (s : State) : Prop :=
  ∀ i < inLenOf s, ∀ j < outLenOf s, mapAddr s.mem.map (inAddr s i) ≠ mapAddr s.mem.map (outAddr s j)

theorem ownsOut_probe : ownsOut (probe s) ↔ ownsOut s := by
  rw [ownsOut, probe_mem, probe_latch, (region_congr (probe_latch s)).2.1]

theorem inApartOut_probe : inApartOut (probe s) ↔ inApartOut s := by
  obtain ⟨hin, hout, hi, ho⟩ := region_congr (probe_latch s)
  simp only [inApartOut, hin, hout, hi, ho, probe_mem]

/-- IN is as before (R62). -/
theorem Emitted.inByte_eq (h : Emitted s n t) (hd : inApartOut s) {i : Nat} (hi : i < inLenOf s) :
    inByte t i = inByte s i := by
  rw [inByte, inByte, (region_congr h.latch).2.2.1]
  exact memRead_of_outOnly h.outOnly h.room (hd i hi)

/-- A load of four bytes of IN gives what it gave (R67). -/
theorem Emitted.load32_eq (h : Emitted s n t) (hd : inApartOut s) {i : Nat} (hi : i + 3 < inLenOf s) :
    load32 t i = load32 s i := by
  rw [load32, load32, h.inByte_eq hd (by omega), h.inByte_eq hd (by omega), h.inByte_eq hd (by omega), h.inByte_eq hd hi]

/-- OUT holds these bytes from OUT[j]. -/
abbrev outHolds (t : State) (j : Nat) (bs : List Byte) : Prop := ∀ k (h : k < bs.length), outByte t (j + k) = bs[k]

/-! ### The pending literal -/

/-- A literal of `lit` bytes of IN from `src`, or nothing where `lit` is 0, was written at OUT[op …] (R181, R185, R187). -/
structure LiteralWritten (s : State) (src lit : Nat) (header : List Byte) (t : State) : Prop where
  header_eq : if lit = 0 then header = [] else tagEncLiteral lit = some header
  emitted : Emitted s (header.length + lit) t
  header_bytes : outHolds t s.enc.op.toNat header
  literal_bytes : ∀ k < lit, outByte t (s.enc.op.toNat + header.length + k) = inByte s (src + k)

/-- A literal's header and bytes are no more than its cost (R189). -/
theorem LiteralWritten.length_le {src lit : Nat} {header : List Byte} (h : LiteralWritten s src lit header t)
    (hl : lit ≤ 65536) : header.length + lit ≤ literalCost lit := by
  have hh := h.header_eq
  unfold literalCost
  split at hh
  · next h0 => simp [hh, h0]
  · next h0 =>
    obtain ⟨bs, hbs, -, hlen⟩ := tagEncLiteral_of_domain (by omega) hl
    rw [hh] at hbs
    cases hbs
    rw [if_neg h0]
    omega

/-- A literal where there is one is written, with room for its cost. -/
theorem emitLiteral_or_none_of_room {src a b : Nat} (hl : b - a ≤ 65536)
    (hr : s.enc.op.toNat + literalCost (b - a) ≤ outLenOf s) (hm : memWf s.mem) (ho : ownsOut s)
    (hd : inApartOut s) (hsrc : src + (b - a) ≤ inLenOf s) :
    ∃ u header, (if a < b then emitLiteral src (b - a) s else .ok s) = .ok u ∧
      LiteralWritten s src (b - a) header u := by
  split
  · next hab =>
    have hne : b - a ≠ 0 := by omega
    rw [literalCost, if_neg hne] at hr
    obtain ⟨u, hu⟩ := emitLiteral_of_room (s := s) (src := src) (Nat.pos_of_ne_zero hne) hl (by omega)
    obtain ⟨header, hh, e, hhead, hlit⟩ := emitLiteral_bytes hu hm ho fun i hi => hd (src + i) (by omega)
    exact ⟨u, header, hu, by rwa [if_neg hne], e, hhead, hlit⟩
  · next hab =>
    rw [show b - a = 0 by omega]
    exact ⟨s, [], rfl, by rw [if_pos rfl], .refl (by omega), nofun, nofun⟩

/-! ### The copy after it -/

/-- EMIT_COPY in its domain, with room for the bytes it covers (R189). -/
theorem emitCopy_of_room {offset length : Nat} (ho : offset ≤ 65535) (hl : 4 ≤ length)
    (hr : s.enc.op.toNat + length ≤ outLenOf s) : ∃ t, emitCopy offset length s = .ok t := by
  obtain ⟨bs, hbs, hlen⟩ := emitCopyBytes_of_domain ho hl
  rw [emitCopy, hbs]
  exact emitBytes_of_room (by omega)

/-- EMIT_COPY's bytes. -/
theorem emitCopy_bytes {offset length : Nat} (h : emitCopy offset length s = .ok t) (hm : memWf s.mem) (ho : ownsOut s) :
    ∃ bs, emitCopyBytes offset length = some bs ∧ Emitted s bs.length t ∧ outHolds t s.enc.op.toNat bs := by
  obtain ⟨bs, hbs, e⟩ := emitCopy_ok h
  rw [emitCopy, hbs] at h
  exact ⟨bs, hbs, e, fun k hk => emitBytes_bytes h hm ho hk⟩

/-- A literal, or nothing, and a copy after it were written at OUT[op …] (R181, R182). -/
structure MatchWritten (s : State) (src lit offset mlen : Nat) (header copy : List Byte) (t : State) : Prop where
  header_eq : if lit = 0 then header = [] else tagEncLiteral lit = some header
  copy_eq : emitCopyBytes offset mlen = some copy
  emitted : Emitted s (header.length + lit + copy.length) t
  header_bytes : outHolds t s.enc.op.toNat header
  literal_bytes : ∀ k < lit, outByte t (s.enc.op.toNat + header.length + k) = inByte s (src + k)
  copy_bytes : outHolds t (s.enc.op.toNat + header.length + lit) copy

/-- The copy leaves the literal's bytes. -/
theorem LiteralWritten.then_copy {src lit offset mlen : Nat} {header : List Byte} (h : LiteralWritten s src lit header u)
    (hm : memWf s.mem) (ho : ownsOut s) (hc : emitCopy offset mlen u = .ok v) :
    ∃ copy, MatchWritten s src lit offset mlen header copy v := by
  have hop := h.emitted.op
  have hown := h.emitted.keepsOwn ho
  obtain ⟨copy, hcopy, e, hbytes⟩ := emitCopy_bytes hc (h.emitted.wf hm) hown
  rw [hop, ← Nat.add_assoc] at hbytes
  refine ⟨copy, h.header_eq, hcopy, h.emitted.trans e, fun k hk => ?_, fun k hk => ?_, hbytes⟩
  · rw [e.outByte_before hown (by omega)]
    exact h.header_bytes k hk
  · rw [e.outByte_before hown (by omega)]
    exact h.literal_bytes k hk

/-! ### R189's account -/

/-- In the probe loop OUT has room for the pending literal and the bytes of IN after it in the fragment (R189). -/
theorem ProbeInv.room (h : ProbeInv s) {lit k : Nat} (hl : s.enc.nextEmit.toNat + lit + k ≤ s.enc.len.toNat) :
    s.enc.op.toNat + literalCost lit + k ≤ outLenOf s := by
  obtain ⟨⟨-, -, hin, hout⟩, hb, hmod, hlen, -, -, hne, -, -, -, hop⟩ := h
  have hcost : literalCost lit ≤ lit + 1 + 2 * (lit / 61) := by unfold literalCost; split <;> omega
  simp only [Config.maxCompressedLength, Config.fragSize, writtenBound] at hout hlen hop
  omega

/-- The fragment lies in IN (R174). -/
theorem ProbeInv.fragment_le (h : ProbeInv s) :
    s.enc.base.toNat + s.enc.len.toNat ≤ inLenOf s ∧ s.enc.len.toNat ≤ 65536 := by
  obtain ⟨-, hb, -, hlen, -⟩ := h
  simp only [Config.fragSize] at hlen
  omega

/-- The pending literal ends at ip (R181). -/
theorem ProbeInv.nextEmit_le (h : ProbeInv s) : s.enc.nextEmit.toNat ≤ s.enc.ip.toNat := by
  obtain ⟨-, -, -, -, -, hne, -⟩ := h
  exact hne

/-- A candidate lies before ip (R180). -/
theorem ProbeInv.candidate_lt (h : ProbeInv s) (w : BitVec 32) (hc : htRead s.ht (hashOf s.enc.tableBits.toNat w) ≠ 0) :
    (htRead s.ht (hashOf s.enc.tableBits.toNat w)).toNat < s.enc.ip.toNat := by
  obtain ⟨-, -, -, -, -, -, -, -, -, hbehind, -⟩ := h
  exact hbehind _ (Nat.mod_lt _ (Nat.two_pow_pos _)) hc

/-! ### The match -/

/-- The match of a probe whose candidate's load is ip's: its bytes are the candidate's, and it ends at the fragment's end
or where they are not (R182). -/
theorem matchLen_spec (h : load32 s (fragPos s s.enc.ip.toNat) = load32 s (fragPos s s.enc.candidate.toNat)) :
    (∀ j < matchLen s, inByte s (fragPos s s.enc.ip.toNat + j) = inByte s (fragPos s s.enc.candidate.toNat + j)) ∧
      (s.enc.ip.toNat + matchLen s < s.enc.len.toNat →
        inByte s (fragPos s s.enc.ip.toNat + matchLen s) ≠ inByte s (fragPos s s.enc.candidate.toNat + matchLen s)) := by
  have hpos (i j : Nat) : fragPos s (i + 4 + j) = fragPos s i + (4 + j) := by simp only [fragPos]; omega
  obtain ⟨hsame, hstop⟩ := extendMatch_spec (s := s) s.enc.len.toNat 0 (by omega)
  simp only [hpos] at hsame hstop
  refine ⟨fun j hj => ?_, fun hlt => hstop (by rw [matchLen] at hlt; omega)⟩
  by_cases h4 : j < 4
  · exact load32_inj h j h4
  · obtain ⟨i, rfl⟩ := Nat.exists_eq_add_of_le (Nat.not_lt.mp h4)
    exact hsame i (Nat.zero_le _) (by rw [matchLen] at hj; omega)

/-- A pass of the probe loop with a match writes the pending literal and the copy, and moves on (R181 to R183). -/
theorem probeStep_of_match (hi : ProbeInv s) (hm : memWf s.mem) (ho : ownsOut s) (hd : inApartOut s)
    (hg : probeGoes s = true) (hok : matchOk (probe s) = true) :
    ∃ v header copy, probeStep s = .next (insertBehind (advance (matchLen (probe s)) v)) ∧
      MatchWritten (probe s) (s.enc.base.toNat + s.enc.nextEmit.toNat) (s.enc.ip.toNat - s.enc.nextEmit.toNat)
        (s.enc.ip.toNat - (probe s).enc.candidate.toNat) (matchLen (probe s)) header copy v := by
  obtain ⟨h4, hle⟩ := matchLen_le (s := probe s) hg
  obtain ⟨-, hoff, -⟩ := matchOk_iff.mp hok
  obtain ⟨hin, hout, -, -⟩ := region_congr (probe_latch s)
  rw [probe_enc_ip, probe_enc_len] at hle
  rw [probe_enc_ip] at hoff
  have hfrag := hi.fragment_le
  have hne := hi.nextEmit_le
  have hroom := hi.room (lit := s.enc.ip.toNat - s.enc.nextEmit.toNat) (k := matchLen (probe s)) (by omega)
  obtain ⟨u, header, hu, hlit⟩ := emitLiteral_or_none_of_room (s := probe s)
    (src := s.enc.base.toNat + s.enc.nextEmit.toNat) (a := s.enc.nextEmit.toNat) (b := s.enc.ip.toNat) (by omega)
    (by rw [probe_enc_op, hout]; omega) (by rwa [probe_mem]) (ownsOut_probe.mpr ho) (inApartOut_probe.mpr hd)
    (by rw [hin]; omega)
  have hpending : emitPending (probe s) = .ok u := by
    rw [emitPending, probe_enc_ip, probe_enc_nextEmit, probe_fragPos]
    exact hu
  have hcost := hlit.length_le (by omega)
  have hop := hlit.emitted.op
  rw [probe_enc_op] at hop
  obtain ⟨v, hv⟩ := emitCopy_of_room (s := u) hoff h4 (by rw [(region_congr hlit.emitted.latch).2.1, hout]; omega)
  obtain ⟨copy, hw⟩ := hlit.then_copy (by rwa [probe_mem]) (ownsOut_probe.mpr ho) hv
  refine ⟨v, header, copy, ?_, hw⟩
  rw [probeStep, if_pos hg, if_pos hok, matchStep, hpending, andThen, probe_enc_ip, hv, afterEmit]

/-! ### The encoder after it -/

/-- HT after R183's insertion. -/
theorem htRead_insertBehind (h : htWf s.ht) (g : Nat) :
    htRead (insertBehind s).ht g =
      if s.enc.ip.toNat + 15 < s.enc.len.toNat ∧
          g = hashOf s.enc.tableBits.toNat (load32 s (fragPos s (s.enc.ip.toNat - 1))) then
        BitVec.ofNat 16 (s.enc.ip.toNat - 1)
      else htRead s.ht g := by
  unfold insertBehind
  split
  · next hg => simp only [setHt_ht, htRead_htWrite h, probeGoes_iff.mp hg, true_and]
  · next hg => rw [if_neg fun h => hg (probeGoes_iff.mpr h.1)]

/-- The registers after a match (R182). -/
theorem advance_enc_of_emitted {m : Nat} (h : Emitted s n v) :
    (advance m v).enc = { s.enc with
      op := v.enc.op, ip := s.enc.ip + BitVec.ofNat 17 m, nextEmit := s.enc.ip + BitVec.ofNat 17 m, skip := 32,
      mlen := BitVec.ofNat 17 m } := by
  rw [h.eq]
  rfl

/-- ip after a match within the fragment. -/
theorem advance_ip_toNat {m : Nat} (h : Emitted s n v) (hm : s.enc.ip.toNat + m ≤ s.enc.len.toNat) :
    (advance m v).enc.ip.toNat = s.enc.ip.toNat + m := by
  have hlt := s.enc.len.isLt
  rw [advance_enc_of_emitted h, BitVec.toNat_add, BitVec.toNat_ofNat]
  omega

/-- Where a match of `m` bytes that wrote `n` leaves the state: the cursors moved on, and nothing but the encoder, HT and
OUT[op …] different (R181 to R183). -/
structure MatchMoved (s : State) (m n : Nat) (t : State) : Prop where
  eq : t = { s with mem := t.mem, ht := t.ht, enc := t.enc }
  ip : t.enc.ip.toNat = s.enc.ip.toNat + m
  nextEmit : t.enc.nextEmit = t.enc.ip
  skip : t.enc.skip = 32
  keeps : t.enc.n = s.enc.n ∧ t.enc.base = s.enc.base ∧ t.enc.len = s.enc.len ∧ t.enc.tableBits = s.enc.tableBits
  op : t.enc.op.toNat = s.enc.op.toNat + n
  outOnly : outOnly s t s.enc.op.toNat n

/-- The advance and the insertion after a match's emission. -/
theorem Emitted.matchMoved {m : Nat} (e : Emitted (probe s) n v) (hm : s.enc.ip.toNat + m ≤ s.enc.len.toNat) :
    MatchMoved s m n (insertBehind (advance m v)) := by
  have hregs := (insertBehind_enc (advance m v)).trans (advance_enc_of_emitted e)
  have hop := e.op
  have hip := advance_ip_toNat (m := m) e (by rwa [probe_enc_ip, probe_enc_len])
  rw [probe_enc_op] at hop
  rw [probe_enc_ip] at hip
  refine ⟨?_, ?_, ?_, ?_, ⟨?_, ?_, ?_, ?_⟩, ?_, (matched_outOnly e).2⟩
  · rw [insertBehind_enc, insertBehind_mem]
    exact matched_keeps e.wrote (.refl e.op_le)
  · rw [insertBehind_enc, hip]
  · rw [hregs]
  · rw [hregs]
  · rw [hregs, probe_enc_n]
  · rw [hregs, probe_enc_base]
  · rw [hregs, probe_enc_len]
  · rw [hregs, probe_enc_tableBits]
  · rw [insertBehind_enc, advance_enc_op, hop]

/-- HT after a match: the entry for ip − 1 where the loop will probe again, by the bytes IN had (R183). -/
theorem htRead_matched {m : Nat} (h : Emitted s n v) (hht : htWf s.ht) (hd : inApartOut s)
    (hfrag : s.enc.base.toNat + s.enc.len.toNat ≤ inLenOf s) (hm : s.enc.ip.toNat + m ≤ s.enc.len.toNat) (g : Nat) :
    htRead (insertBehind (advance m v)).ht g =
      if s.enc.ip.toNat + m + 15 < s.enc.len.toNat ∧
          g = hashOf s.enc.tableBits.toNat (load32 s (s.enc.base.toNat + (s.enc.ip.toNat + m - 1))) then
        BitVec.ofNat 16 (s.enc.ip.toNat + m - 1)
      else htRead s.ht g := by
  have hv : v.ht = s.ht := by rw [h.eq, emitted_ht]
  have hregs := advance_enc_of_emitted (m := m) h
  have hlen : (advance m v).enc.len = s.enc.len := by rw [hregs]
  have hbits : (advance m v).enc.tableBits = s.enc.tableBits := by rw [hregs]
  have hbase : (advance m v).enc.base = s.enc.base := by rw [hregs]
  have hload (i : Nat) : load32 (advance m v) i = load32 v i := (byte_congr (advance_latch m v) (advance_mem m v)).2.2 i
  rw [htRead_insertBehind (by rwa [advance_ht, hv]), fragPos, advance_ip_toNat h hm, hlen, hbits, hbase, hload,
    advance_ht, hv]
  by_cases hgo : s.enc.ip.toNat + m + 15 < s.enc.len.toNat
  · rw [h.load32_eq hd (by omega)]
  · rw [if_neg (hgo ·.1), if_neg (hgo ·.1)]

end

/-- Settles O48: it holds. R189's account leaves room for the literal and the copy, and the extension loop finds the
longest match. -/
theorem probeMatchEmits : Obligations.ProbeMatchEmits := by
  unfold Obligations.ProbeMatchEmits
  rintro s w h cand ⟨⟨hmem, hht⟩, -, hlatch, -, henc⟩ hb hp hh hgoes hw hhash hcand hc0 hfar hload
  have hi := (henc hb).2 hp
  obtain ⟨-, hin, hout, -⟩ := hlatch hb
  obtain ⟨hown, hapart⟩ := outHeld_own hin (hout (writesOut_iff.mpr (.inl hi.1.1)))
  have hbehind : cand.toNat < s.enc.ip.toNat := by
    rw [← hashOf_eq] at hhash
    subst hcand hhash
    exact hi.candidate_lt w hc0
  have hprobe := probe_eq hw hhash hcand
  have hcand' : (probe s).enc.candidate = cand := by rw [hprobe]
  have hentry (g : Nat) : htRead (probe s).ht g = if g = h then BitVec.ofNat 16 s.enc.ip.toNat else htRead s.ht g := by
    rw [hprobe]
    exact htRead_htWrite hht h _ g
  have hg : probeGoes s = true := probeGoes_iff.mpr hgoes
  have hok : matchOk (probe s) = true := (matchOk_probe_iff hw hhash hcand).mpr ⟨hc0, hfar, hload⟩
  obtain ⟨v, header, copy, hstep, hheader, hcopy, e, hheads, hlits, hcopies⟩ :=
    probeStep_of_match hi hmem hown hapart hg hok
  obtain ⟨h4, hle⟩ := matchLen_le (s := probe s) hg
  obtain ⟨hsame, hstop⟩ := matchLen_spec (s := probe s) (by
    rw [hcand', probe_load32, probe_load32, probe_fragPos, probe_fragPos, probe_enc_ip, hload, hw])
  generalize matchLen (probe s) = mlen at *
  have hread := htRead_matched e ((probe_keepsCanonical s).ht hht) (inApartOut_probe.mpr hapart)
    (by rw [(region_congr (probe_latch s)).1]; exact hi.fragment_le.1) hle
  have hbytes := (byte_congr (s := v) (t := insertBehind (advance mlen v)) (insertBehind_latch _) (insertBehind_mem _)).2.1
  simp only [hcand', hentry, probe_fragPos, probe_inByte, probe_load32, probe_enc_ip, probe_enc_len, probe_enc_op,
    probe_enc_base, probe_enc_tableBits] at hcopy hheads hlits hcopies hle hsame hstop hread
  have hmoved := e.matchMoved hle
  obtain ⟨hn, hbase, hlen, hbits⟩ := hmoved.keeps
  exact ⟨_, mlen, _, header, copy, (step_of_probe hh hb hp).trans hstep, hbehind, h4, hle, hsame, hstop, rfl, hheader,
    hcopy, hmoved.eq, hmoved.ip, hmoved.nextEmit, hmoved.skip, hn, hbase, hlen, hbits,
    by rw [hmoved.op, ← Nat.add_assoc, ← Nat.add_assoc], fun k hk => (hbytes _).trans (hheads k hk),
    fun k hk => (hbytes _).trans (hlits k hk), fun k hk => (hbytes _).trans (hcopies k hk), hmoved.outOnly, hread⟩

end Sys2Proof.Machine

/-! PROOF. The three decoders and the encoder are inverse, and the opcode map of the tags (R81, R85 to R95). -/

namespace Sys2Proof

section

variable {tag : Byte} {i : Instr} {bs rest : List Byte}

/-! ### A tag's fields -/

/-- A tag is its type and the six bits above it (R80). -/
theorem tag_of_type_upper (tag : Byte) :
    BitVec.ofNat 8 ((tag.extractLsb' 0 2).toNat + (tag.extractLsb' 2 6).toNat * 4) = tag := by
  apply BitVec.eq_of_toNat_eq
  simp only [BitVec.toNat_ofNat, BitVec.extractLsb'_toNat, Nat.shiftRight_eq_div_pow]
  omega

/-- A copy-1 tag's six upper bits are its length and the high bits of its offset (R87). -/
theorem tag_upper_of_copy1 (tag : Byte) :
    (tag.extractLsb' 2 6).toNat = (tag.extractLsb' 2 3).toNat + (tag.extractLsb' 5 3).toNat * 8 := by
  simp only [BitVec.extractLsb'_toNat, Nat.shiftRight_eq_div_pow]
  omega

/-- The fields of a tag put together from its type and its six upper bits (R80). -/
theorem tag_fields {k : Nat} (hk : k < 4) (n : Nat) :
    (BitVec.ofNat 8 (k + n * 4)).extractLsb' 0 2 = BitVec.ofNat 2 k ∧
      (BitVec.ofNat 8 (k + n * 4)).extractLsb' 2 6 = BitVec.ofNat 6 n := by
  constructor <;> apply BitVec.eq_of_toNat_eq <;>
    simp only [BitVec.toNat_ofNat, BitVec.extractLsb'_toNat, Nat.shiftRight_eq_div_pow] <;> omega

/-- The fields of a copy-1 tag put together from a length and the high bits of an offset (R87). -/
theorem tag_fields_copy1 (x : BitVec 3) {y : Nat} (hy : y < 8) :
    (BitVec.ofNat 8 (1 + (x.toNat + y * 8) * 4)).extractLsb' 2 3 = x ∧
      ((BitVec.ofNat 8 (1 + (x.toNat + y * 8) * 4)).extractLsb' 5 3).toNat = y := by
  have hx : x.toNat < 8 := x.isLt
  refine ⟨BitVec.eq_of_toNat_eq ?_, ?_⟩ <;>
    simp only [BitVec.toNat_ofNat, BitVec.extractLsb'_toNat, Nat.shiftRight_eq_div_pow] <;> omega

/-- COPY1's encoding from its length and its offset's high and low bits (R87). -/
theorem encode_copy1 (x : BitVec 3) {y v : Nat} (hy : y < 8) (hv : v < 256) :
    encode (.copy1 x (BitVec.ofNat 11 (y * 256 + v))) = BitVec.ofNat 8 (1 + (x.toNat + y * 8) * 4) :: leBytes 1 v := by
  have hoff : (y * 256 + v) % 2 ^ 11 = y * 256 + v := Nat.mod_eq_of_lt (by omega)
  have hhigh : 1 + x.toNat * 4 + (y * 256 + v) / 256 * 32 = 1 + (x.toNat + y * 8) * 4 := by omega
  have hlow : BitVec.ofNat 8 (y * 256 + v) = BitVec.ofNat 8 v := by
    apply BitVec.eq_of_toNat_eq
    simp only [BitVec.toNat_ofNat]
    omega
  simp only [encode, leBytes, BitVec.toNat_ofNat, hoff, hhigh, hlow]

/-- Up to 0xEC a tag's six upper bits are below the LIT_X rows' (R85). -/
theorem tag_upper_lt_of_le (h : tag.toNat ≤ 0xEC) : (tag.extractLsb' 2 6).toNat < 60 := by
  simp only [BitVec.extractLsb'_toNat, Nat.shiftRight_eq_div_pow]
  omega

/-- The mask 0x03 of the opcode map reads the tag's type (R91). -/
theorem tag_type_of_mask {k : BitVec 2} (h : tag &&& 0x03#8 = k.setWidth 8) : tag.extractLsb' 0 2 = k := by
  have hm : (0x03#8).extractLsb' 0 2 = BitVec.allOnes 2 := rfl
  have hk : (k.setWidth 8).extractLsb' 0 2 = k := by decide +revert
  rw [← hk, ← h, BitVec.extractLsb'_and, hm, BitVec.and_allOnes]

/-! ### The opcode map (R91) -/

/-- The operation a tag selects, with the value its operand bytes hold. -/
def tagInstr (tag : Byte) (v : Nat) : Instr :=
  if tag = 0xF0#8 then .litX1 (BitVec.ofNat 8 v)
  else if tag = 0xF4#8 then .litX2 (BitVec.ofNat 16 v)
  else if tag = 0xF8#8 then .litX3 (BitVec.ofNat 24 v)
  else if tag = 0xFC#8 then .litX4 (BitVec.ofNat 32 v)
  else if tag.extractLsb' 0 2 = 0#2 then .litShort (tag.extractLsb' 2 6)
  else if tag.extractLsb' 0 2 = 1#2 then
    .copy1 (tag.extractLsb' 2 3) (BitVec.ofNat 11 ((tag.extractLsb' 5 3).toNat * 256 + v))
  else if tag.extractLsb' 0 2 = 2#2 then .copy2 (tag.extractLsb' 2 6) (BitVec.ofNat 16 v)
  else .copy4 (tag.extractLsb' 2 6) (BitVec.ofNat 32 v)

/-- Decoding a tag is reading its operand bytes. -/
theorem decodeTag_eq (tag : Byte) (bs : List Byte) :
    decodeTag tag bs = withOperand (operandCount tag) (tagInstr tag) bs := by
  unfold decodeTag operandCount tagInstr
  split_ifs <;> rfl

/-- The rows of the opcode map cover every tag. -/
theorem tag_rows (tag : Byte) :
    tag = 0xF0#8 ∨ tag = 0xF4#8 ∨ tag = 0xF8#8 ∨ tag = 0xFC#8 ∨
      (tag.extractLsb' 0 2 = 0#2 ∧ (tag.extractLsb' 2 6).toNat < 60) ∨
      tag.extractLsb' 0 2 = 1#2 ∨ tag.extractLsb' 0 2 = 2#2 ∨ tag.extractLsb' 0 2 = 3#2 := by
  decide +revert

/-- No tag of a LIT_X row has the type or the upper bits of another row. -/
theorem ne_litX_of_fields (h : tag.extractLsb' 0 2 ≠ 0#2 ∨ (tag.extractLsb' 2 6).toNat < 60) :
    tag ≠ 0xF0#8 ∧ tag ≠ 0xF4#8 ∧ tag ≠ 0xF8#8 ∧ tag ≠ 0xFC#8 := by
  refine ⟨?_, ?_, ?_, ?_⟩ <;> rintro rfl <;> exact absurd h (by decide)

/-- LIT_SHORT's row (R85). -/
theorem tagInstr_litShort (h : tag.extractLsb' 0 2 = 0#2) (hn : (tag.extractLsb' 2 6).toNat < 60) :
    operandCount tag = 0 ∧ ∀ v, tagInstr tag v = .litShort (tag.extractLsb' 2 6) := by
  simp [operandCount, tagInstr, ne_litX_of_fields (.inr hn), h]

/-- COPY1's row (R87). -/
theorem tagInstr_copy1 (h : tag.extractLsb' 0 2 = 1#2) :
    operandCount tag = 1 ∧ ∀ v, tagInstr tag v =
      .copy1 (tag.extractLsb' 2 3) (BitVec.ofNat 11 ((tag.extractLsb' 5 3).toNat * 256 + v)) := by
  simp [operandCount, tagInstr, ne_litX_of_fields (tag := tag) (.inl (by simp [h])), h]

/-- COPY2's row (R88). -/
theorem tagInstr_copy2 (h : tag.extractLsb' 0 2 = 2#2) :
    operandCount tag = 2 ∧ ∀ v, tagInstr tag v = .copy2 (tag.extractLsb' 2 6) (BitVec.ofNat 16 v) := by
  simp [operandCount, tagInstr, ne_litX_of_fields (tag := tag) (.inl (by simp [h])), h]

/-- COPY4's row (R89). -/
theorem tagInstr_copy4 (h : tag.extractLsb' 0 2 = 3#2) :
    operandCount tag = 4 ∧ ∀ v, tagInstr tag v = .copy4 (tag.extractLsb' 2 6) (BitVec.ofNat 32 v) := by
  simp [operandCount, tagInstr, ne_litX_of_fields (tag := tag) (.inl (by simp [h])), h]

/-! ### Stream operations and their bytes -/

/-- What a tag selects is well-formed, and its encoding is the tag and the operand's bytes. -/
theorem tagInstr_encoding (tag : Byte) {v : Nat} (hv : v < 256 ^ operandCount tag) :
    contextOf (tagInstr tag v) = .stream ∧ wellFormed (tagInstr tag v) = true ∧
      encode (tagInstr tag v) = tag :: leBytes (operandCount tag) v := by
  have htag := tag_of_type_upper tag
  have hval {w : Nat} (h : v < 2 ^ w) : (BitVec.ofNat w v).toNat = v :=
    (BitVec.toNat_ofNat v w).trans (Nat.mod_eq_of_lt h)
  obtain rfl | rfl | rfl | rfl | ⟨h, hn⟩ | h | h | h := tag_rows tag
  · exact ⟨rfl, rfl, congrArg (0xF0#8 :: leBytes 1 ·) (hval hv)⟩
  · exact ⟨rfl, rfl, congrArg (0xF4#8 :: leBytes 2 ·) (hval hv)⟩
  · exact ⟨rfl, rfl, congrArg (0xF8#8 :: leBytes 3 ·) (hval hv)⟩
  · exact ⟨rfl, rfl, congrArg (0xFC#8 :: leBytes 4 ·) (hval hv)⟩
  · obtain ⟨hc, hi⟩ := tagInstr_litShort h hn
    rw [h] at htag
    rw [hi, hc]
    refine ⟨rfl, decide_eq_true hn, congrArg (· :: []) ?_⟩
    rwa [BitVec.toNat_zero, Nat.zero_add] at htag
  · obtain ⟨hc, hi⟩ := tagInstr_copy1 h
    rw [hc] at hv
    rw [h, tag_upper_of_copy1] at htag
    rw [hi, hc]
    exact ⟨rfl, rfl, (encode_copy1 _ (tag.extractLsb' 5 3).isLt hv).trans (congrArg (· :: leBytes 1 v) htag)⟩
  · obtain ⟨hc, hi⟩ := tagInstr_copy2 h
    rw [hc] at hv
    rw [h] at htag
    rw [hi, hc]
    exact ⟨rfl, rfl, congrArg₂ (· :: leBytes 2 ·) htag (hval hv)⟩
  · obtain ⟨hc, hi⟩ := tagInstr_copy4 h
    rw [hc] at hv
    rw [h] at htag
    rw [hi, hc]
    exact ⟨rfl, rfl, congrArg₂ (· :: leBytes 4 ·) htag (hval hv)⟩

/-- Every well-formed stream operation is what some tag selects. -/
theorem exists_tagInstr (hc : contextOf i = .stream) (hw : wellFormed i = true) :
    ∃ tag v, v < 256 ^ operandCount tag ∧ tagInstr tag v = i := by
  cases i with
  | litX1 e => exact ⟨0xF0#8, e.toNat, e.isLt, congrArg Instr.litX1 (by simp)⟩
  | litX2 e => exact ⟨0xF4#8, e.toNat, e.isLt, congrArg Instr.litX2 (by simp)⟩
  | litX3 e => exact ⟨0xF8#8, e.toNat, e.isLt, congrArg Instr.litX3 (by simp)⟩
  | litX4 e => exact ⟨0xFC#8, e.toNat, e.isLt, congrArg Instr.litX4 (by simp)⟩
  | litShort n =>
    obtain ⟨h, hu⟩ := tag_fields (k := 0) (by decide) n.toNat
    rw [BitVec.ofNat_toNat, BitVec.setWidth_eq] at hu
    obtain ⟨hc, hi⟩ := tagInstr_litShort h (by rw [hu]; exact of_decide_eq_true hw)
    exact ⟨_, 0, by simp, by rw [hi, hu]⟩
  | copy1 l off =>
    have hoff : off.toNat < 2048 := off.isLt
    obtain ⟨h, -⟩ := tag_fields (k := 1) (by decide) (l.toNat + off.toNat / 256 * 8)
    obtain ⟨hlen, hhigh⟩ := tag_fields_copy1 l (y := off.toNat / 256) (by omega)
    obtain ⟨hc, hi⟩ := tagInstr_copy1 h
    refine ⟨_, off.toNat % 256, by rw [hc]; omega, ?_⟩
    rw [hi, hlen, hhigh, Nat.div_add_mod', BitVec.ofNat_toNat, BitVec.setWidth_eq]
  | copy2 l off =>
    obtain ⟨h, hu⟩ := tag_fields (k := 2) (by decide) l.toNat
    obtain ⟨hc, hi⟩ := tagInstr_copy2 h
    exact ⟨_, off.toNat, by rw [hc]; exact off.isLt, by rw [hi, hu]; simp⟩
  | copy4 l off =>
    obtain ⟨h, hu⟩ := tag_fields (k := 3) (by decide) l.toNat
    obtain ⟨hc, hi⟩ := tagInstr_copy4 h
    exact ⟨_, off.toNat, by rw [hc]; exact off.isLt, by rw [hi, hu]; simp⟩
  | varintMore g => cases hc
  | varintLast g => cases hc
  | cmdMaxlen level => cases hc
  | cmdCompress level => cases hc
  | cmdGetlen level => cases hc
  | cmdDecompress level => cases hc
  | cmdValidate level => cases hc

/-- A well-formed stream operation decodes from its bytes. -/
theorem decode_encode_of_stream (rest : List Byte) (hc : contextOf i = .stream) (hw : wellFormed i = true) :
    decode .stream (encode i ++ rest) = .ok (i, rest) := by
  obtain ⟨tag, v, hv, rfl⟩ := exists_tagInstr hc hw
  obtain ⟨-, -, he⟩ := tagInstr_encoding tag hv
  rw [he, List.cons_append, decode, decodeTag_eq, withOperand_leBytes, Nat.mod_eq_of_lt hv]

/-- What the stream's decoder reads is a well-formed stream operation, read from its encoding. -/
theorem encode_decode_of_stream (h : decode .stream bs = .ok (i, rest)) :
    contextOf i = .stream ∧ wellFormed i = true ∧ encode i ++ rest = bs := by
  cases bs with
  | nil => cases h
  | cons tag bs =>
    rw [decode, decodeTag_eq] at h
    obtain ⟨v, hv, rfl, hbs⟩ := withOperand_ok h
    obtain ⟨hc, hw, he⟩ := tagInstr_encoding tag hv
    exact ⟨hc, hw, by rw [he, List.cons_append, hbs]⟩

/-! ### Varint bytes (R81, R99) -/

/-- A varint byte decodes to the operation whose encoding it is. -/
theorem decodeVarintByte_encoding (b : Byte) : contextOf (decodeVarintByte b) = .varintByte ∧
    wellFormed (decodeVarintByte b) = true ∧ encode (decodeVarintByte b) = [b] := by
  decide +revert

/-- Every varint byte operation is what its byte decodes to. -/
theorem exists_decodeVarintByte (hc : contextOf i = .varintByte) : ∃ b, encode i = [b] ∧ decodeVarintByte b = i := by
  cases i with
  | varintMore g => exact ⟨_, rfl, by decide +revert⟩
  | varintLast g => exact ⟨_, rfl, by decide +revert⟩
  | _ => cases hc

/-! ### CMD values (R94, R95) -/

/-- A CMD value whose reserved bits are 0 is its OPCODE's and its LEVEL's. -/
theorem commandValue_of_fields {w : BitVec 64} (h3 : w.extractLsb' 3 1 = 0#1) (h6 : w.extractLsb' 6 58 = 0#58) :
    commandValue (w.extractLsb' 0 3) (w.extractLsb' 4 2) = w := by
  apply BitVec.eq_of_toNat_eq
  have e3 := congrArg BitVec.toNat h3
  have e6 := congrArg BitVec.toNat h6
  simp only [BitVec.extractLsb'_toNat, Nat.shiftRight_eq_div_pow, BitVec.toNat_ofNat, commandValue] at *
  omega

/-- A CMD value decodes to a well-formed command, whose encoding is its bytes. -/
theorem decodeCommand_ok {w : BitVec 64} (h : decodeCommand w = .ok i) :
    contextOf i = .command ∧ wellFormed i = true ∧ encode i = leBytes 8 w.toNat := by
  unfold decodeCommand at h
  split at h
  · cases h
  next hr =>
  split at h
  · cases h
  next hl =>
  obtain ⟨hbit, hhigh⟩ := not_or.mp hr
  have hv := commandValue_of_fields (not_not.mp hbit) (not_not.mp hhigh)
  have hw : levelOk (w.extractLsb' 4 2) = true := bne_iff_ne.mpr hl
  have hbytes {op : BitVec 3} (ho : w.extractLsb' 0 3 = op) :
      leBytes 8 (commandValue op (w.extractLsb' 4 2)).toNat = leBytes 8 w.toNat := by rw [← ho, hv]
  split_ifs at h with hmaxlen hcompress hgetlen hdecompress hvalidate <;> cases h
  · exact ⟨rfl, hw, hbytes hmaxlen⟩
  · exact ⟨rfl, hw, hbytes hcompress⟩
  · exact ⟨rfl, hw, hbytes hgetlen⟩
  · exact ⟨rfl, hw, hbytes hdecompress⟩
  · exact ⟨rfl, hw, hbytes hvalidate⟩

/-- Every well-formed command is what a CMD value decodes to. -/
theorem exists_decodeCommand (hc : contextOf i = .command) (hw : wellFormed i = true) :
    ∃ w, encode i = leBytes 8 w.toNat ∧ decodeCommand w = .ok i := by
  cases i with
  | cmdMaxlen level => exact ⟨_, rfl, by decide +revert⟩
  | cmdCompress level => exact ⟨_, rfl, by decide +revert⟩
  | cmdGetlen level => exact ⟨_, rfl, by decide +revert⟩
  | cmdDecompress level => exact ⟨_, rfl, by decide +revert⟩
  | cmdValidate level => exact ⟨_, rfl, by decide +revert⟩
  | _ => cases hc

/-- A command decodes from the bytes of a CMD value that names it, whatever follows. -/
theorem decode_command_of_value {w : BitVec 64} (rest : List Byte) (h : decodeCommand w = .ok i) :
    decode .command (leBytes 8 w.toNat ++ rest) = .ok (i, rest) := by
  have hw : w.toNat % 256 ^ 8 = w.toNat := Nat.mod_eq_of_lt w.isLt
  simp only [decode, takeLE_leBytes, hw, BitVec.ofNat_toNat, BitVec.setWidth_eq, h]

/-- What the command decoder reads is what the CMD value of its eight bytes names. -/
theorem decode_command_ok (h : decode .command bs = .ok (i, rest)) :
    ∃ w : BitVec 64, decodeCommand w = .ok i ∧ leBytes 8 w.toNat ++ rest = bs := by
  rw [decode] at h
  split at h
  · cases h
  next v r hv =>
  obtain ⟨hlt, hbs⟩ := takeLE_ok hv
  split at h
  · next j hj =>
    cases h
    refine ⟨_, hj, ?_⟩
    rwa [BitVec.toNat_ofNat, Nat.mod_eq_of_lt (show v < 2 ^ 64 from hlt)]
  · cases h

end

/-- Settles O1: it holds. In each context the instruction is what its tag, its byte or its CMD value selects. -/
theorem decodeEncodeAgree : Obligations.DecodeEncodeAgree := by
  unfold Obligations.DecodeEncodeAgree
  intro i rest hw
  cases hc : contextOf i with
  | stream => exact decode_encode_of_stream rest hc hw
  | varintByte =>
    obtain ⟨b, he, rfl⟩ := exists_decodeVarintByte hc
    rw [he]
    rfl
  | command =>
    obtain ⟨w, he, hd⟩ := exists_decodeCommand hc hw
    rw [he]
    exact decode_command_of_value rest hd

/-- Settles O2: it holds. What a tag, a varint byte or a CMD value selects is encoded by the bytes read. -/
theorem encodeDecodeAgree : Obligations.EncodeDecodeAgree := by
  unfold Obligations.EncodeDecodeAgree
  intro c bs rest i h
  cases c with
  | stream => exact encode_decode_of_stream h
  | varintByte =>
    cases bs with
    | nil => cases h
    | cons b bs =>
      cases h
      obtain ⟨hc, hw, he⟩ := decodeVarintByte_encoding b
      exact ⟨hc, hw, congrArg (· ++ rest) he⟩
  | command =>
    obtain ⟨w, hd, hbs⟩ := decode_command_ok h
    obtain ⟨hc, hw, he⟩ := decodeCommand_ok hd
    exact ⟨hc, hw, by rw [he, hbs]⟩

/-- Settles O3: it holds, by the opcode map's rows: a LIT_X tag is its own row, and the mask reads the type of the others. -/
theorem everyTagSelectsOneOperation : Obligations.EveryTagSelectsOneOperation := by
  unfold Obligations.EveryTagSelectsOneOperation
  intro tag bs hlen
  obtain ⟨v, hv⟩ := withOperand_of_length (operandCount tag) (tagInstr tag) bs hlen
  refine ⟨tagInstr tag v, by rw [decode, decodeTag_eq, hv], ?_, ?_, ?_, ?_, ?_, fun h => ?_, fun h => ?_, fun h => ?_⟩
  · rintro rfl; exact ⟨_, rfl⟩
  · rintro rfl; exact ⟨_, rfl⟩
  · rintro rfl; exact ⟨_, rfl⟩
  · rintro rfl; exact ⟨_, rfl⟩
  · rintro ⟨h, hle⟩
    obtain ⟨-, hi⟩ := tagInstr_litShort (tag_type_of_mask (k := 0#2) h) (tag_upper_lt_of_le hle)
    exact ⟨_, hi v⟩
  · obtain ⟨-, hi⟩ := tagInstr_copy1 (tag_type_of_mask (k := 1#2) h)
    exact ⟨_, _, hi v⟩
  · obtain ⟨-, hi⟩ := tagInstr_copy2 (tag_type_of_mask (k := 2#2) h)
    exact ⟨_, _, hi v⟩
  · obtain ⟨-, hi⟩ := tagInstr_copy4 (tag_type_of_mask (k := 3#2) h)
    exact ⟨_, _, hi v⟩

/-- Settles O4: it holds. Each word is the encoding of its instruction, which the decoder gives back. -/
theorem writtenWordsDecode : Obligations.WrittenWordsDecode := by
  unfold Obligations.WrittenWordsDecode
  exact ⟨decodeEncodeAgree (.litShort 2#6) [] rfl, decodeEncodeAgree (.litX1 255#8) [] rfl,
    decodeEncodeAgree (.litX2 256#16) [] rfl, decodeEncodeAgree (.copy1 1#3 1808#11) [] rfl,
    decodeEncodeAgree (.copy2 5#6 3#16) [] rfl, decodeEncodeAgree (.copy4 4#6 61#32) [] rfl,
    decodeEncodeAgree (.varintMore 0x2C#7) [] rfl, decodeEncodeAgree (.cmdCompress 2#2) [] rfl⟩

end Sys2Proof

/-! PROOF. The operation loop's step (R90, R220, R223, R260). -/

namespace Sys2Proof.Machine

section

variable {s : State} {i : Instr} {left : List Byte}

/-- The core's turn in the operation loop runs the operation fetched at ip (R220, R260). -/
theorem coreOutcome_of_ops (hr : opsRunning s = true) (hi : s.dec.ip.toNat < inLenOf s)
    (hd : decode .stream (fetchBytes s) = .ok (i, left)) : coreOutcome s = exec i (consumeTag s) := by
  obtain ⟨hb, hp⟩ := Bool.and_eq_true_iff.mp hr
  rw [coreOutcome, coreWork, if_pos hb, of_decide_eq_true hp]
  simp only [opsWork, if_pos hi, hd, workOutcome]

end

/-- Settles O18: it holds. The bytes fetched are the tag's and its operands', and the host's turn to the core is the
core's own. -/
theorem stepRunsStreamOperation : Obligations.StepRunsStreamOperation := by
  unfold Obligations.StepRunsStreamOperation
  rintro s i tag operands left hr hi rfl rfl hd
  refine ⟨fun hh => ?_, fun rest hh => ?_⟩
  · rw [step_of_coreTurn hh]
    exact coreOutcome_of_ops hr hi hd
  · rw [step_of_action hh]
    exact coreOutcome_of_ops (s := setHost s rest) hr hi hd

end Sys2Proof.Machine

/-! PROOF. The varint codec and the varint unit, which reads byte by byte what VARINT_DECODE reads of the whole (R120 to
R127), and COMPRESS's start, which writes the varint of its input's length (R173). -/

namespace Sys2Proof.Machine

/-! ### VARINT_DECODE, one byte at a time (R122) -/

/-- After four bytes, a byte with a bit of G[6:4] (R124). -/
abbrev BadFifth (count : Nat) (b : Byte) : Prop := count = 4 ∧ b.extractLsb' 4 3 ≠ 0#3

section

variable {fuel count acc : Nat} {b : Byte} {bs : List Byte}

/-- VARINT_DECODE fails where no byte is left (R122). -/
theorem varintDecodeFrom_nil (fuel count acc : Nat) : varintDecodeFrom fuel count acc [] = none := by
  cases fuel <;> rfl

/-- A fifth byte with a bit of G[6:4] fails (R124). -/
theorem varintDecodeFrom_of_bad (h : BadFifth count b) :
    varintDecodeFrom (fuel + 1) count acc (b :: bs) = none := by
  rw [varintDecodeFrom, if_pos h]

/-- A byte with C = 0 ends the varint (R122). -/
theorem varintDecodeFrom_of_last (h : ¬ BadFifth count b) (hc : b.extractLsb' 7 1 = 0#1) :
    varintDecodeFrom (fuel + 1) count acc (b :: bs) = some (acc + b.toNat % 128 * 2 ^ (7 * count), count + 1) := by
  rw [varintDecodeFrom, if_neg h, if_pos hc]

/-- A byte with C = 1 adds its group, and the bytes after it go on (R122). -/
theorem varintDecodeFrom_of_more (h : ¬ BadFifth count b) (hc : b.extractLsb' 7 1 = 1#1) :
    varintDecodeFrom (fuel + 1) count acc (b :: bs) =
      varintDecodeFrom fuel (count + 1) (acc + b.toNat % 128 * 2 ^ (7 * count)) bs := by
  rw [varintDecodeFrom, if_neg h, hc, if_neg (by decide)]

end

/-! ### VARINT_ENCODE (R120, R121) -/

/-- A group's weight is 128 times the one before it. -/
theorem groupWeight_succ (n : Nat) : 2 ^ (7 * (n + 1)) = 128 * 2 ^ (7 * n) := by
  rw [Nat.mul_succ, Nat.pow_add, Nat.mul_comm]

section

variable {fuel v : Nat}

/-- VARINT_ENCODE's last byte is the value (R120). -/
theorem varintBytesFuel_of_lt (h : v < 128) : varintBytesFuel (fuel + 1) v = [BitVec.ofNat 8 v] := by
  rw [varintBytesFuel, if_neg (Nat.not_le.mpr h)]

/-- VARINT_ENCODE's byte before others is the value's low group with C = 1 (R120). -/
theorem varintBytesFuel_of_le (h : 128 ≤ v) :
    varintBytesFuel (fuel + 1) v = BitVec.ofNat 8 (v % 128 + 128) :: varintBytesFuel fuel (v / 128) := by
  rw [varintBytesFuel, if_pos h]

/-- VARINT_ENCODE writes a byte at least (R121). -/
theorem varintBytesFuel_length_pos (fuel v : Nat) : 0 < (varintBytesFuel (fuel + 1) v).length := by
  unfold varintBytesFuel
  split <;> simp

/-- A byte below 128 has C = 0. -/
theorem continuation_of_lt (h : v < 128) : (BitVec.ofNat 8 v).extractLsb' 7 1 = 0#1 := by
  apply BitVec.eq_of_toNat_eq
  simp only [BitVec.extractLsb'_toNat, BitVec.toNat_ofNat, Nat.shiftRight_eq_div_pow]
  omega

/-- A byte with 128 added to its group has C = 1. -/
theorem continuation_of_group (h : v < 128) : (BitVec.ofNat 8 (v + 128)).extractLsb' 7 1 = 1#1 := by
  apply BitVec.eq_of_toNat_eq
  simp only [BitVec.extractLsb'_toNat, BitVec.toNat_ofNat, Nat.shiftRight_eq_div_pow]
  omega

/-- A byte below 16 sets no bit of G[6:4]. -/
theorem groupHigh_of_lt (h : v < 16) : (BitVec.ofNat 8 v).extractLsb' 4 3 = 0#3 := by
  apply BitVec.eq_of_toNat_eq
  simp only [BitVec.extractLsb'_toNat, BitVec.toNat_ofNat, Nat.shiftRight_eq_div_pow]
  omega

/-- The encoding of a value that fits has at most `m` bytes exactly where `m` groups hold the value (R121). -/
theorem varintBytesFuel_length_le_iff {m : Nat} (hv : v < 2 ^ (7 * fuel)) (h : 0 < v + m) :
    (varintBytesFuel fuel v).length ≤ m ↔ v < 2 ^ (7 * m) := by
  induction fuel generalizing v m with
  | zero =>
    obtain rfl : v = 0 := by simpa using hv
    exact iff_of_true (Nat.zero_le m) (Nat.two_pow_pos _)
  | succ fuel ih =>
    cases m with
    | zero =>
      exact iff_of_false (Nat.not_le.mpr (varintBytesFuel_length_pos fuel v)) (by simp; omega)
    | succ m =>
      rw [groupWeight_succ] at hv ⊢
      by_cases hlt : v < 128
      · have hpos := Nat.two_pow_pos (7 * m)
        rw [varintBytesFuel_of_lt hlt, List.length_singleton]
        exact iff_of_true (by omega) (by omega)
      · rw [varintBytesFuel_of_le (Nat.not_lt.mp hlt), List.length_cons, Nat.add_le_add_iff_right,
          ih (Nat.div_lt_of_lt_mul hv) (by omega), Nat.div_lt_iff_lt_mul (by decide), Nat.mul_comm]

/-- VARINT_DECODE part way, at the encoding of a value that the groups left can hold, adds that value at the next group's
weight and takes the encoding's bytes (R126). -/
theorem varintDecodeFrom_varintBytesFuel {count : Nat} (acc : Nat) (rest : List Byte) (hf : fuel + count = 5)
    (hpos : 1 ≤ fuel) (hv : v * 2 ^ (7 * count) < 2 ^ 32) :
    varintDecodeFrom fuel count acc (varintBytesFuel fuel v ++ rest) =
      some (acc + v * 2 ^ (7 * count), count + (varintBytesFuel fuel v).length) := by
  induction fuel generalizing count acc v with
  | zero => omega
  | succ fuel ih =>
    by_cases hlt : v < 128
    · have hgood : ¬ BadFifth count (BitVec.ofNat 8 v) := by
        rintro ⟨rfl, hh⟩
        exact hh (groupHigh_of_lt (by omega))
      have hgroup : (BitVec.ofNat 8 v).toNat % 128 = v := by rw [BitVec.toNat_ofNat]; omega
      rw [varintBytesFuel_of_lt hlt, List.singleton_append, varintDecodeFrom_of_last hgood (continuation_of_lt hlt),
        hgroup, List.length_singleton]
    · have hcount : count ≠ 4 := by rintro rfl; omega
      have hgroup : (BitVec.ofNat 8 (v % 128 + 128)).toNat % 128 = v % 128 := by rw [BitVec.toNat_ofNat]; omega
      have hsplit : v % 128 * 2 ^ (7 * count) + v / 128 * 2 ^ (7 * (count + 1)) = v * 2 ^ (7 * count) := by
        rw [groupWeight_succ, ← Nat.mul_assoc, ← Nat.add_mul, Nat.mul_comm (v / 128), Nat.mod_add_div]
      rw [varintBytesFuel_of_le (Nat.not_lt.mp hlt), List.cons_append,
        varintDecodeFrom_of_more (fun h => hcount h.1) (continuation_of_group (Nat.mod_lt v (by decide))), hgroup,
        ih _ (by omega) (by omega) (by omega), Nat.add_assoc, hsplit, List.length_cons]
      congr 2
      omega

end

/-- Settles O6: it holds. VARINT_DECODE inverts VARINT_ENCODE group by group, and `m` bytes suffice where `m` groups do. -/
theorem varintRoundTrip : Obligations.VarintRoundTrip := by
  unfold Obligations.VarintRoundTrip
  intro v rest
  have hv : v.toNat < 2 ^ (7 * 5) := v.isLt.trans (by decide)
  have hpos : 1 ≤ (varintBytes v).length := varintBytesFuel_length_pos 4 _
  refine ⟨?_, hpos, ?_, fun m h1 hm => (varintBytesFuel_length_le_iff hv (by omega)).mpr hm⟩
  · have h := varintDecodeFrom_varintBytesFuel (fuel := 5) (count := 0) 0 rest rfl (by decide)
      (by simpa using v.isLt : v.toNat * 2 ^ (7 * 0) < 2 ^ 32)
    simpa [varintDecode, varintBytes] using h
  · exact (varintBytesFuel_length_le_iff hv (by omega)).mp le_rfl

/-! ### The varint unit's byte (R122 to R124) -/

section

variable {s : State} {g : BitVec 7}

/-- A varint that fails ends DECOMPRESS with CorruptedData, and GETLEN and VALIDATE with VALID = 0 (R221, R260, R275). -/
theorem varintFail_eq_complete :
    varintFail s = .next (complete (if s.latch.opcode = opDecompress then .corruptedData else .none) 0#1 0 s) := by
  unfold varintFail
  split <;> rfl

/-- The state a failed varint leaves, with STATUS's word (R123, R282, R301). -/
theorem varintFail_eq_status : varintFail s = .next { s with
    status := if s.latch.opcode = 4#3 then 0x0E#64 else 0x02#64, result := 0, phase := .idle } := by
  have hstatus : statusDone (if s.latch.opcode = opDecompress then .corruptedData else .none) 0#1 =
      if s.latch.opcode = 4#3 then 0x0E#64 else 0x02#64 := by
    unfold opDecompress
    split <;> rfl
  rw [varintFail_eq_complete, complete, hstatus]

/-- The byte just read is a bad fifth one (R124). -/
theorem fifthByteBad_iff : fifthByteBad s g = true ↔ s.varint.count = 5#3 ∧ g.extractLsb' 4 3 ≠ 0#3 := by
  rw [fifthByteBad, Bool.and_eq_true, decide_eq_true_eq, decide_eq_true_eq]

/-- A bad fifth byte fails, whether or not it goes on (R124). -/
theorem exec_varint_of_bad (hr : varintRunning s = true) (hb : fifthByteBad s g = true) :
    exec (.varintMore g) s = varintFail s ∧ exec (.varintLast g) s = varintFail s := by
  refine ⟨?_, ?_⟩
  · show execVarintMore g s = _
    rw [execVarintMore, if_pos hr, if_pos hb]
  · show execVarintLast g s = _
    rw [execVarintLast, if_pos hr, if_pos hb]

/-- A byte that goes on past the fifth group fails (R123). -/
theorem exec_varintMore_of_full (hr : varintRunning s = true) (hs : 32 ≤ s.varint.shift.toNat + 7) :
    ∃ v, exec (.varintMore g) s = varintFail (setVarint s v) := by
  by_cases hb : fifthByteBad s g = true
  · exact ⟨s.varint, (exec_varint_of_bad hr hb).1⟩
  · refine ⟨{ s.varint with acc := accumulate s.varint g, shift := s.varint.shift + 7 }, ?_⟩
    show execVarintMore g s = _
    rw [execVarintMore, if_pos hr, if_neg hb, if_pos hs]

/-- A byte that goes on before the fifth adds its group and moves the shift on (R122). -/
theorem exec_varintMore_of_room (hr : varintRunning s = true) (hc : s.varint.count ≠ 5#3)
    (hs : s.varint.shift.toNat + 7 < 32) : exec (.varintMore g) s =
      .next (setVarint s { s.varint with acc := accumulate s.varint g, shift := s.varint.shift + 7 }) := by
  have hgood : ¬ fifthByteBad s g = true := fun h => hc (fifthByteBad_iff.mp h).1
  show execVarintMore g s = _
  rw [execVarintMore, if_pos hr, if_neg hgood, if_neg (Nat.not_le.mpr hs)]

/-! ### The core's turn in the varint -/

/-- The varint unit runs exactly while one of its three commands is in its varint. -/
theorem varintRunning_iff : varintRunning s = true ↔ busy s = true ∧ s.phase = .varint ∧
    (s.latch.opcode = opGetlen ∨ s.latch.opcode = opDecompress ∨ s.latch.opcode = opValidate) := by
  simp only [varintRunning, Bool.and_eq_true, Bool.or_eq_true, decide_eq_true_eq, and_assoc, or_assoc]

/-- R122's tests before a byte is read. -/
theorem varintExhausted_iff : varintExhausted s = true ↔ s.varint.count = 5#3 ∨ inLenOf s ≤ s.varint.count.toNat := by
  rw [varintExhausted, Bool.or_eq_true, decide_eq_true_eq, decide_eq_true_eq]

/-- In the varint the core's turn is the varint unit's. -/
theorem coreOutcome_of_varint (hb : busy s = true) (hp : s.phase = .varint) :
    coreOutcome s = workOutcome (varintWork s) := by
  rw [coreOutcome, coreWork, if_pos hb, hp]

/-- With no byte to read the varint fails (R123). -/
theorem coreOutcome_of_varintExhausted (hb : busy s = true) (hp : s.phase = .varint)
    (h : s.varint.count = 5#3 ∨ inLenOf s ≤ s.varint.count.toNat) : coreOutcome s = varintFail s := by
  rw [coreOutcome_of_varint hb hp, varintWork, if_pos (varintExhausted_iff.mpr h)]
  rfl

/-- With a byte to read, the byte is counted and runs (R122). -/
theorem coreOutcome_of_varintByte (hb : busy s = true) (hp : s.phase = .varint) (hc : s.varint.count ≠ 5#3)
    (hi : s.varint.count.toNat < inLenOf s) :
    coreOutcome s = exec (decodeVarintByte (inByte s s.varint.count.toNat)) (consumeVarintByte s) := by
  have hmore : ¬ varintExhausted s = true :=
    fun h => (varintExhausted_iff.mp h).elim hc (Nat.not_le.mpr hi)
  rw [coreOutcome_of_varint hb hp, varintWork, if_neg hmore]
  rfl

end

/-- Settles O19: it holds. The host's turn to the core is the core's own. -/
theorem stepRunsVarintByte : Obligations.StepRunsVarintByte := by
  unfold Obligations.StepRunsVarintByte
  intro s i left hb hp hc hi hd
  obtain ⟨rfl, -⟩ : decodeVarintByte (inByte s s.varint.count.toNat) = i ∧ [] = left := by simpa [decode] using hd
  refine ⟨fun hh => ?_, fun rest hh => ?_⟩
  · rw [step_of_coreTurn hh]
    exact coreOutcome_of_varintByte hb hp hc hi
  · rw [step_of_action hh]
    exact coreOutcome_of_varintByte (s := setHost s rest) hb hp hc hi

/-- Settles O29: it holds, by VARINT_MORE's one case that goes on. -/
theorem varintMoreContinues : Obligations.VarintMoreContinues := by
  unfold Obligations.VarintMoreContinues
  exact fun _ _ hr hc hs => exec_varintMore_of_room hr hc hs

/-- Settles O31: it holds. Each way to fail is `varintFail`, whose state is the same for all. -/
theorem varintFailures : Obligations.VarintFailures := by
  unfold Obligations.VarintFailures
  refine ⟨fun g s hr hc hg => ?_, fun g s hr hs => ?_, fun s hr hh he => ?_⟩
  · obtain ⟨hmore, hlast⟩ := exec_varint_of_bad hr (fifthByteBad_iff.mpr ⟨hc, hg⟩)
    exact ⟨hmore.trans varintFail_eq_status, hlast.trans varintFail_eq_status⟩
  · obtain ⟨v, hv⟩ := exec_varintMore_of_full (g := g) hr hs
    exact ⟨v, hv.trans varintFail_eq_status⟩
  · obtain ⟨hb, hp, -⟩ := varintRunning_iff.mp hr
    rw [step_of_coreTurn hh, coreOutcome_of_varintExhausted hb hp he]
    exact varintFail_eq_status

/-! ### The varint unit and VARINT_DECODE of the whole IN (R122, R126) -/

/-- A byte's group, as the varint unit is given it. -/
theorem group_of_byte (b : Byte) : (b.extractLsb' 0 7).toNat = b.toNat % 128 ∧
    (b.extractLsb' 0 7).extractLsb' 4 3 = b.extractLsb' 4 3 := by
  decide +revert

/-- Without a bit of G[6:4] the group is below 16. -/
theorem group_lt_of_high {b : Byte} (h : b.extractLsb' 4 3 = 0#3) : b.toNat % 128 < 16 := by
  revert b
  decide

/-- A byte has C = 1 and decodes to VARINT_MORE, or C = 0 and decodes to VARINT_LAST (R81, R99). -/
theorem decodeVarintByte_eq (b : Byte) :
    (b.extractLsb' 7 1 = 1#1 ∧ decodeVarintByte b = .varintMore (b.extractLsb' 0 7)) ∨
      (b.extractLsb' 7 1 = 0#1 ∧ decodeVarintByte b = .varintLast (b.extractLsb' 0 7)) := by
  unfold decodeVarintByte
  split
  · next h => exact .inl ⟨h, rfl⟩
  · next h => exact .inr ⟨(BitVec.eq_zero_or_eq_one _).resolve_right h, rfl⟩

/-- Adding a group at its shift is adding its weighted value (R122). -/
theorem accumulate_toNat {v : VarintRegs} {n : Nat} (g : BitVec 7) (hn : n ≤ 4) (hs : v.shift.toNat = 7 * n)
    (ha : v.acc.toNat < 2 ^ (7 * n)) : (accumulate v g).toNat = v.acc.toNat + g.toNat * 2 ^ (7 * n) := by
  have hg : g.toNat <<< (7 * n) < 2 ^ 35 := by
    rw [Nat.shiftLeft_eq]
    calc g.toNat * 2 ^ (7 * n) < 2 ^ 7 * 2 ^ (7 * n) := Nat.mul_lt_mul_of_pos_right g.isLt (Nat.two_pow_pos _)
      _ ≤ 2 ^ 7 * 2 ^ 28 := Nat.mul_le_mul_left _ (Nat.pow_le_pow_right Nat.two_pos (by omega))
  rw [accumulate, BitVec.toNat_or, BitVec.toNat_shiftLeft, BitVec.toNat_setWidth, hs,
    Nat.mod_eq_of_lt (g.isLt.trans (by decide)), Nat.mod_eq_of_lt hg, Nat.or_comm, ← Nat.shiftLeft_add_eq_or_of_lt ha,
    Nat.shiftLeft_eq, Nat.add_comm]

/-- The value of a varint whose fifth byte is not a bad one fits 32 bits (R124). -/
theorem accumulate_lt_word {v : VarintRegs} {n : Nat} {b : Byte} (hn : n ≤ 4) (hs : v.shift.toNat = 7 * n)
    (ha : v.acc.toNat < 2 ^ (7 * n)) (hgood : ¬ BadFifth n b) :
    (accumulate v (b.extractLsb' 0 7)).toNat < 2 ^ 32 := by
  by_cases h4 : n = 4
  · subst h4
    have hhigh : b.extractLsb' 4 3 = 0#3 := not_not.mp fun h => hgood ⟨rfl, h⟩
    have hgroup := group_lt_of_high hhigh
    rw [accumulate_toNat _ hn hs ha, (group_of_byte b).1]
    omega
  · exact (accumulate_lt _ hs ha).trans_le (Nat.pow_le_pow_right Nat.two_pos (by omega))

section

variable {s : State}

/-- With no byte left VARINT_DECODE fails (R123). -/
theorem pendingVarint_of_exhausted (h : inLenOf s ≤ s.varint.count.toNat) : pendingVarint s = none := by
  have hdrop : (varintWindow s).drop s.varint.count.toNat = [] :=
    List.drop_eq_nil_of_le (by simp [varintWindow]; omega)
  rw [pendingVarint, hdrop, varintDecodeFrom_nil]

/-- The next byte VARINT_DECODE reads is the varint unit's (R122). -/
theorem pendingVarint_eq (hc : s.varint.count.toNat ≤ 4) (hi : s.varint.count.toNat < inLenOf s) :
    pendingVarint s = varintDecodeFrom (4 - s.varint.count.toNat + 1) s.varint.count.toNat s.varint.acc.toNat
      (inByte s s.varint.count.toNat :: (varintWindow s).drop (s.varint.count.toNat + 1)) := by
  have hlen : s.varint.count.toNat < (varintWindow s).length := by simp [varintWindow]; omega
  have hbyte : (varintWindow s)[s.varint.count.toNat] = inByte s s.varint.count.toNat := by simp [varintWindow]
  rw [pendingVarint, List.drop_eq_getElem_cons hlen, hbyte, ← Nat.sub_add_comm hc]

/-- Reading a byte counts it. -/
theorem consumeVarintByte_varint (s : State) :
    (consumeVarintByte s).varint = { s.varint with count := s.varint.count + 1 } := rfl

/-- What the varint unit's next byte comes to: it fails with VARINT_DECODE, goes on with VARINT_DECODE's answer still to
come, or ends with that answer. -/
inductive VarintTurn (s : State) : Result → Prop where
  /-- Both fail. -/
  | fails (v : VarintRegs) (h : pendingVarint s = none) : VarintTurn s (varintFail (setVarint s v))
  /-- The unit goes on. -/
  | goesOn (v : VarintRegs) (h : pendingVarint (setVarint s v) = pendingVarint s) : VarintTurn s (.next (setVarint s v))
  /-- Both end, with the value and the count of bytes read. -/
  | ends (v : VarintRegs) (h : pendingVarint s = some ((v.acc.setWidth 32).toNat, v.count.toNat)) :
    VarintTurn s (varintOk (setVarint s v))

/-- The byte about to be read is a bad fifth one (R124). -/
theorem fifthByteBad_consume_iff {b : Byte} (hc : s.varint.count.toNat ≤ 4) :
    fifthByteBad (consumeVarintByte s) (b.extractLsb' 0 7) = true ↔ BadFifth s.varint.count.toNat b := by
  have hcount : s.varint.count + 1 = 5#3 ↔ s.varint.count.toNat = 4 := by bv_omega
  rw [fifthByteBad_iff, (group_of_byte b).2]
  exact and_congr_left fun _ => hcount

section

variable {b : Byte} {bs : List Byte} (hi : VarintInv s) (hr : varintRunning s = true)
  (hd : pendingVarint s =
    varintDecodeFrom (4 - s.varint.count.toNat + 1) s.varint.count.toNat s.varint.acc.toNat (b :: bs))
include hi hr hd

/-- A bad fifth byte fails for both (R124). -/
theorem varintTurn_of_bad (hbad : BadFifth s.varint.count.toNat b) :
    VarintTurn s (exec (decodeVarintByte b) (consumeVarintByte s)) := by
  obtain ⟨-, hc, -⟩ := hi
  obtain ⟨hmore, hlast⟩ := exec_varint_of_bad (s := consumeVarintByte s) hr ((fifthByteBad_consume_iff hc).mpr hbad)
  have hnone := hd.trans (varintDecodeFrom_of_bad hbad)
  obtain ⟨-, e⟩ | ⟨-, e⟩ := decodeVarintByte_eq b
  · rw [e, hmore]; exact .fails _ hnone
  · rw [e, hlast]; exact .fails _ hnone

/-- A byte with C = 1 goes on before the fifth, and fails as the fifth (R122, R123). -/
theorem varintTurn_of_more (hgood : ¬ BadFifth s.varint.count.toNat b) (hmore : b.extractLsb' 7 1 = 1#1)
    (hbs : bs = (varintWindow s).drop (s.varint.count.toNat + 1)) :
    VarintTurn s (exec (.varintMore (b.extractLsb' 0 7)) (consumeVarintByte s)) := by
  obtain ⟨-, hc, hs, ha, -⟩ := hi
  have hd := hd.trans (varintDecodeFrom_of_more hgood hmore)
  by_cases h4 : s.varint.count.toNat = 4
  · obtain ⟨v, hv⟩ := exec_varintMore_of_full (s := consumeVarintByte s) (g := b.extractLsb' 0 7) hr
      (by rw [consumeVarintByte_varint, hs, h4]; decide)
    rw [hv]
    refine .fails v ?_
    rw [hd, h4]
    rfl
  · have hcount := count_succ_toNat hc
    have hfifth : s.varint.count + 1 ≠ 5#3 := by bv_omega
    rw [exec_varintMore_of_room (s := consumeVarintByte s) hr hfifth (by rw [consumeVarintByte_varint, hs]; omega)]
    refine .goesOn _ ?_
    rw [hd, hbs, ← (group_of_byte b).1, ← accumulate_toNat _ hc hs ha, ← hcount,
      show 4 - s.varint.count.toNat = 5 - (s.varint.count + 1).toNat by omega]
    rfl

/-- A byte with C = 0 ends both with one value, which 32 bits hold (R122, R124). -/
theorem varintTurn_of_last (hgood : ¬ BadFifth s.varint.count.toNat b) (hlast : b.extractLsb' 7 1 = 0#1) :
    VarintTurn s (exec (.varintLast (b.extractLsb' 0 7)) (consumeVarintByte s)) := by
  obtain ⟨-, hc, hs, ha, -⟩ := hi
  have hcount := count_succ_toNat hc
  have hvalue : ((accumulate s.varint (b.extractLsb' 0 7)).setWidth 32).toNat =
      s.varint.acc.toNat + b.toNat % 128 * 2 ^ (7 * s.varint.count.toNat) := by
    rw [BitVec.toNat_setWidth, Nat.mod_eq_of_lt (accumulate_lt_word hc hs ha hgood), accumulate_toNat _ hc hs ha,
      (group_of_byte b).1]
  have hfifth : s.varint.count + 1 = 5#3 → (b.extractLsb' 0 7).extractLsb' 4 3 = 0#3 := fun h => by
    by_contra hne
    exact hgood ((fifthByteBad_consume_iff hc).mp (fifthByteBad_iff.mpr ⟨h, hne⟩))
  rw [exec_varintLast (s := consumeVarintByte s) hr hfifth rfl]
  refine .ends _ ?_
  rw [hd.trans (varintDecodeFrom_of_last hgood hlast), ← hvalue, ← hcount]
  rfl

end

/-- In the varint the core's turn follows VARINT_DECODE (R122, R126). -/
theorem VarintInv.turn (hi : VarintInv s) (hb : busy s = true) (hp : s.phase = .varint) : VarintTurn s (coreOutcome s) := by
  obtain ⟨ho, hc, -⟩ := id hi
  have hr : varintRunning s = true := varintRunning_iff.mpr ⟨hb, hp, ho⟩
  have hcount : s.varint.count ≠ 5#3 := fun h => absurd (h ▸ hc) (by decide)
  by_cases hlen : inLenOf s ≤ s.varint.count.toNat
  · rw [coreOutcome_of_varintExhausted hb hp (.inr hlen)]
    exact .fails s.varint (pendingVarint_of_exhausted hlen)
  · have hlt := Nat.not_le.mp hlen
    have hd := pendingVarint_eq hc hlt
    rw [coreOutcome_of_varintByte hb hp hcount hlt]
    by_cases hbad : BadFifth s.varint.count.toNat (inByte s s.varint.count.toNat)
    · exact varintTurn_of_bad hi hr hd hbad
    · obtain ⟨hmore, e⟩ | ⟨hlast, e⟩ := decodeVarintByte_eq (inByte s s.varint.count.toNat)
      · rw [e]; exact varintTurn_of_more hi hr hd hbad hmore rfl
      · rw [e]; exact varintTurn_of_last hi hr hd hbad hlast

/-- What VARINT_DECODE's return comes to: GETLEN's completion, DECOMPRESS's want of room, or the operations' start. -/
theorem varintOk_cases (ho : s.latch.opcode = opGetlen ∨ s.latch.opcode = opDecompress ∨ s.latch.opcode = opValidate) :
    (s.latch.opcode = opGetlen ∧
        varintOk s = .next (complete .none 1#1 ((s.varint.acc.setWidth 32).setWidth 64) (beginOps s))) ∨
      (s.latch.opcode = opDecompress ∧ outLenOf s < (s.varint.acc.setWidth 32).toNat ∧
        varintOk s = .next (complete .insufficientBuffer 0#1 0 (setDec s { s.dec with L := s.varint.acc.setWidth 32 }))) ∨
      varintOk s = .next (beginOps s) := by
  obtain ho | ho | ho := ho
  · exact .inl ⟨ho, varintOk_getlen ho⟩
  · by_cases hl : outLenOf s < (s.varint.acc.setWidth 32).toNat
    · exact .inr (.inl ⟨ho, hl, varintOk_insufficient ho hl⟩)
    · exact .inr (.inr (varintOk_decompress ho (Nat.not_lt.mp hl)))
  · exact .inr (.inr (varintOk_validate ho))

end

/-- Settles O32: it holds, by what the varint unit's turn comes to beside VARINT_DECODE, and what each command makes of
the varint's end. -/
theorem varintUnitFollowsDecode : Obligations.VarintUnitFollowsDecode := by
  unfold Obligations.VarintUnitFollowsDecode
  intro s t hs hb hp hh h
  have hi := (hs hb).1 hp
  have hturn := hi.turn hb hp
  rw [step_of_coreTurn hh] at h
  generalize coreOutcome s = r at h hturn
  cases hturn with
  | fails v hn =>
    rw [varintFail_eq_complete, setVarint_latch] at h
    cases h
    refine ⟨nofun, nofun, fun _ _ => .inr ⟨by simp, hn⟩, fun _ ho => ⟨by simp, ?_, hn⟩, fun _ _ => hn, fun _ he => ?_⟩
    · rw [errField_complete, ho]
      rfl
    · rw [errField_complete] at he
      split at he <;> exact absurd he (by decide)
  | goesOn v hg =>
    cases h
    have hbusy (h : busy (setVarint s v) = false) : False := by simp [hb] at h
    refine ⟨fun _ => hg, fun ho => absurd (hp.symm.trans ho) nofun, ?_, ?_, ?_, ?_⟩
    all_goals exact fun h => (hbusy h).elim
  | ends v hv =>
    obtain ⟨ho, e⟩ | ⟨ho, hl, e⟩ | e := varintOk_cases (s := setVarint s v) hi.1
    · rw [e] at h
      cases h
      have hL : ((v.acc.setWidth 32).setWidth 64).toNat = (v.acc.setWidth 32).toNat :=
        BitVec.toNat_setWidth_of_le (by decide)
      rw [← hL] at hv
      refine ⟨nofun, nofun, fun _ _ => .inl ⟨by simp, v.count.toNat, hv⟩, fun _ ho' => ?_, fun _ he => ?_, fun _ he => ?_⟩
      · exact absurd (ho.symm.trans ho') (by decide)
      · exact absurd he (by simp [errCode])
      · exact absurd he (by simp [errCode])
    · rw [e] at h
      cases h
      refine ⟨nofun, nofun, fun _ ho' => ?_, fun _ ho' => ?_, fun _ he => ?_, fun _ _ => ⟨_, _, hv, hl⟩⟩
      · exact absurd (ho.symm.trans ho') (by decide)
      · exact absurd (ho.symm.trans ho') (by decide)
      · exact absurd he (by simp [errCode])
    · rw [e] at h
      cases h
      have hbusy (h : busy (beginOps (setVarint s v)) = false) : False := by simp [beginOps, hb] at h
      have hip : (v.count.setWidth 64).toNat = v.count.toNat := BitVec.toNat_setWidth_of_le (by decide)
      rw [← hip] at hv
      refine ⟨nofun, fun _ => ⟨hv, rfl⟩, ?_, ?_, ?_, ?_⟩
      all_goals exact fun h => (hbusy h).elim

/-! ### COMPRESS's start (R173) -/

/-- What a COMPRESS that may start was given: OUT's bytes are its own (R64). -/
theorem inOutReady_own {s : State} (h : inOutReady s) : OwnBytes s.mem.map s.outBase s.outLen.toNat := by
  obtain ⟨⟨hfi, hmi⟩, hfo, hmo, hd⟩ := h
  obtain ⟨-, -, hown⟩ := (regionsApart_iff hfi hfo hmi hmo).mp hd
  exact hown

/-- Settles O24: it holds. COMPRESS's rule emits the varint at OUT[0], where OUT's bytes are its own, and touches no other
byte. -/
theorem compressStarts : Obligations.CompressStarts := by
  unfold Obligations.CompressStarts
  intro level s hb hw hr hi ho
  have hlen : (varintBytes (s.inLen.setWidth 32)).length ≤ 5 := varintBytesFuel_length 5 _
  have hout : outAddr (beginCommand opCompress level s) 0 = s.outBase := addr_zero s.outBase
  have hown : OwnBytes s.mem.map s.outBase (varintBytes (s.inLen.setWidth 32)).length := by
    have h := (inOutReady_own hr).part (j := 0) (m := (varintBytes (s.inLen.setWidth 32)).length) (by omega)
    rwa [addr_zero] at h
  have hstart := runCompress_starts (s := beginCommand opCompress level s) hi ho
  rw [hout] at hstart
  refine ⟨_, (startInOut_of_ready hb hr).trans hstart, ?_, fun k hk => ?_, ?_, fun a ha => ?_⟩
  · have hop (n : Nat) : (encoderStart (beginCommand opCompress level s)).enc.op + BitVec.ofNat 64 n = BitVec.ofNat 64 n :=
      BitVec.zero_add _
    rw [emitted, hop]
    rfl
  · exact memRead_storeBytes _ _ hw hown hk
  · exact storeBytes_map _ _ _
  · exact memRead_storeBytes_of_ne _ _ _ _ ha

end Sys2Proof.Machine

/-! PROOF. The tag encoders over their whole domains: each answers with the encoding of an instruction, whose fields the
decode side reads back (R141 to R153). -/

namespace Sys2Proof.Machine

/-! ### The copies (R143 to R145) -/

section

variable {offset len : Nat}

/-- TAG_ENC_COPY1's bytes are the encoding of the copy-1 operation (R87, R143). -/
theorem tagEncCopy1_eq_encode (ho : offset ≤ 2047) (h4 : 4 ≤ len) (h11 : len ≤ 11) :
    tagEncCopy1 offset len = some (encode (.copy1 (BitVec.ofNat 3 (len - 4)) (BitVec.ofNat 11 offset))) := by
  have hl : (len - 4) % 2 ^ 3 = len - 4 := Nat.mod_eq_of_lt (by omega)
  have hoff : offset % 2 ^ 11 = offset := Nat.mod_eq_of_lt (by omega)
  rw [tagEncCopy1, if_pos ⟨ho, h4, h11⟩, encode, BitVec.toNat_ofNat, BitVec.toNat_ofNat, hl, hoff]
  rfl

/-- TAG_ENC_COPY2's bytes are the encoding of the copy-2 operation (R88, R144). -/
theorem tagEncCopy2_eq_encode (ho : offset ≤ 65535) (h1 : 1 ≤ len) (h64 : len ≤ 64) :
    tagEncCopy2 offset len = some (encode (.copy2 (BitVec.ofNat 6 (len - 1)) (BitVec.ofNat 16 offset))) := by
  have hl : (len - 1) % 2 ^ 6 = len - 1 := Nat.mod_eq_of_lt (by omega)
  have hoff : offset % 2 ^ 16 = offset := Nat.mod_eq_of_lt (by omega)
  rw [tagEncCopy2, if_pos ⟨ho, h1, h64⟩, encode, BitVec.toNat_ofNat, BitVec.toNat_ofNat, hl, hoff]

/-- TAG_ENC_COPY4's bytes are the encoding of the copy-4 operation (R89, R145). -/
theorem tagEncCopy4_eq_encode (ho : offset < 2 ^ 32) (h1 : 1 ≤ len) (h64 : len ≤ 64) :
    tagEncCopy4 offset len = some (encode (.copy4 (BitVec.ofNat 6 (len - 1)) (BitVec.ofNat 32 offset))) := by
  have hl : (len - 1) % 2 ^ 6 = len - 1 := Nat.mod_eq_of_lt (by omega)
  have hoff : offset % 2 ^ 32 = offset := Nat.mod_eq_of_lt ho
  rw [tagEncCopy4, if_pos ⟨ho, h1, h64⟩, encode, BitVec.toNat_ofNat, BitVec.toNat_ofNat, hl, hoff]

/-- The length COPY1's field gives back, bias 4 (R151). -/
theorem copy1Len_ofNat (h4 : 4 ≤ len) (h11 : len ≤ 11) : copy1Len (BitVec.ofNat 3 (len - 4)) = len := by
  rw [copy1Len, BitVec.toNat_ofNat]
  omega

/-- The length COPY2's and COPY4's field gives back, bias 1 (R151). -/
theorem copyLen_ofNat (h1 : 1 ≤ len) (h64 : len ≤ 64) : copyLen (BitVec.ofNat 6 (len - 1)) = len := by
  rw [copyLen, BitVec.toNat_ofNat]
  omega

/-- TAG_TYPE reads the two low bits of the number a tag is written from (R80, R148). -/
theorem tagType_ofNat {n k : Nat} (h : n % 4 = k) : tagType (BitVec.ofNat 8 n) = BitVec.ofNat 2 k := by
  apply BitVec.eq_of_toNat_eq
  simp only [tagType, BitVec.extractLsb'_toNat, BitVec.toNat_ofNat, Nat.shiftRight_zero]
  omega

end

/-! ### The literals (R141, R149, R150) -/

/-- The bytes of a value, composed again (R10). -/
theorem leNat_leBytes {n v : Nat} (h : v < 256 ^ n) : leNat (leBytes n v) = v := by
  induction n generalizing v with
  | zero => exact (Nat.lt_one_iff.mp h).symm
  | succ n ih =>
    rw [leBytes, leNat, ih (by rw [Nat.pow_succ] at h; omega), BitVec.toNat_ofNat]
    omega

/-- TAG_ENC_LITERAL's bytes are the encoding of a literal of that length: LIT_SHORT up to 60, else the LIT_X row of its
count of length bytes (R85, R86, R141). -/
theorem tagEncLiteral_eq_encode {len : Nat} (h1 : 1 ≤ len) (h : len ≤ 2 ^ 32) :
    ∃ i m, tagEncLiteral len = some (encode i) ∧ wellFormed i = true ∧ literalShape i = some (m, len) ∧
      (m = 0 ↔ len ≤ 60) := by
  have field {w : Nat} (hw : len - 1 < 2 ^ w) : (BitVec.ofNat w (len - 1)).toNat = len - 1 :=
    (BitVec.toNat_ofNat _ _).trans (Nat.mod_eq_of_lt hw)
  have hlen : len - 1 + 1 = len := Nat.sub_add_cancel h1
  rw [tagEncLiteral, if_pos ⟨h1, h⟩]
  by_cases h60 : len ≤ 60
  · have hf := field (w := 6) (by omega)
    refine ⟨.litShort (BitVec.ofNat 6 (len - 1)), 0, ?_, ?_, ?_, by omega⟩
    · rw [if_pos h60, encode, hf]
    · rw [wellFormed, shortOk, hf, decide_eq_true_eq]; omega
    · rw [literalShape, hf, hlen]
  rw [if_neg h60, extraCount]
  split_ifs with h8 h16 h24
  · exact ⟨.litX1 (BitVec.ofNat 8 (len - 1)), 1, by rw [encode, field h8], rfl,
      by rw [literalShape, field h8, hlen], by omega⟩
  · exact ⟨.litX2 (BitVec.ofNat 16 (len - 1)), 2, by rw [encode, field h16], rfl,
      by rw [literalShape, field h16, hlen], by omega⟩
  · exact ⟨.litX3 (BitVec.ofNat 24 (len - 1)), 3, by rw [encode, field h24], rfl,
      by rw [literalShape, field h24, hlen], by omega⟩
  · have hf := field (w := 32) (by omega)
    exact ⟨.litX4 (BitVec.ofNat 32 (len - 1)), 4, by rw [encode, hf], rfl, by rw [literalShape, hf, hlen], by omega⟩

/-- What the decode side reads of a literal's own bytes: its type, and by LIT_SHORT_LEN its length, or the count of the
length bytes from which LIT_EXTRA_LEN reads it (R148 to R150). -/
theorem literal_fields {i : Instr} {m len : Nat} (hw : wellFormed i = true) (h : literalShape i = some (m, len)) :
    ∃ tag es, encode i = tag :: es ∧ tagType tag = 0#2 ∧
      if m = 0 then es = [] ∧ litShortLen tag = len else litShortLen tag = es.length ∧ leNat es + 1 = len := by
  cases i with
  | litShort n =>
    cases h
    have hn : n.toNat < 60 := of_decide_eq_true hw
    obtain ⟨-, hu⟩ := tag_fields (k := 0) (by decide) n.toNat
    rw [Nat.zero_add, BitVec.ofNat_toNat, BitVec.setWidth_eq] at hu
    exact ⟨_, _, rfl, tagType_ofNat (by omega), rfl, by rw [litShortLen, hu, if_pos hn]⟩
  | litX1 e => cases h; exact ⟨_, _, rfl, rfl, rfl, congrArg (· + 1) (leNat_leBytes e.isLt)⟩
  | litX2 e => cases h; exact ⟨_, _, rfl, rfl, rfl, congrArg (· + 1) (leNat_leBytes e.isLt)⟩
  | litX3 e => cases h; exact ⟨_, _, rfl, rfl, rfl, congrArg (· + 1) (leNat_leBytes e.isLt)⟩
  | litX4 e => cases h; exact ⟨_, _, rfl, rfl, rfl, congrArg (· + 1) (leNat_leBytes e.isLt)⟩
  | copy1 l off | copy2 l off | copy4 l off => cases h
  | varintMore g | varintLast g => cases h
  | cmdMaxlen level | cmdCompress level | cmdGetlen level | cmdDecompress level | cmdValidate level => cases h

/-- Settles O5: it holds. Each encoder's bytes are an instruction's encoding, which the decoder gives back. -/
theorem tagCodecInverse : Obligations.TagCodecInverse := by
  unfold Obligations.TagCodecInverse
  refine ⟨fun offset len ho h4 h11 => ?_, fun offset len ho h1 h64 => ?_, fun offset len ho h1 h64 => ?_,
    fun len h1 h32 => ?_⟩
  · refine ⟨_, _, tagEncCopy1_eq_encode ho h4 h11, leBytes_length _ _, tagType_ofNat (by omega), fun rest =>
      ⟨_, _, decode_encode_of_stream (i := .copy1 _ _) rest rfl rfl, copy1Len_ofNat h4 h11, ?_⟩⟩
    exact (BitVec.toNat_ofNat ..).trans (Nat.mod_eq_of_lt (by omega))
  · refine ⟨_, _, tagEncCopy2_eq_encode ho h1 h64, leBytes_length _ _, tagType_ofNat (by omega), fun rest =>
      ⟨_, _, decode_encode_of_stream (i := .copy2 _ _) rest rfl rfl, copyLen_ofNat h1 h64, ?_⟩⟩
    exact (BitVec.toNat_ofNat ..).trans (Nat.mod_eq_of_lt (by omega))
  · refine ⟨_, _, tagEncCopy4_eq_encode ho h1 h64, leBytes_length _ _, tagType_ofNat (by omega), fun rest =>
      ⟨_, _, decode_encode_of_stream (i := .copy4 _ _) rest rfl rfl, copyLen_ofNat h1 h64, ?_⟩⟩
    exact (BitVec.toNat_ofNat ..).trans (Nat.mod_eq_of_lt ho)
  · obtain ⟨i, m, henc, hw, hs, hm⟩ := tagEncLiteral_eq_encode h1 h32
    obtain ⟨tag, es, he, htype, hfields⟩ := literal_fields hw hs
    obtain ⟨-, -, -, -, -, hc⟩ := encode_of_literalShape hw hs
    refine ⟨tag, es, henc.trans (congrArg some he), htype, ?_, fun rest => ⟨i, m, ?_, hs⟩⟩
    · simpa only [hm] using hfields
    · rw [← he]
      exact decode_encode_of_stream rest hc hw

end Sys2Proof.Machine

/-! PROOF. No fault: under the invariant the core's turn always answers a next state, and no action of the host faults
(R147, R191, R238). -/

namespace Sys2Proof.Machine

section

variable {s : State} {m len offset : Nat}

/-! ### The stream operations (R224 to R241, R260 to R272) -/

/-- The length check of an operation is room in OUT, where L is no more than OUT_LEN (R222, R238). -/
theorem opRoom_of_fitsOutput (hop : s.dec.op.toNat ≤ s.dec.L.toNat) (hL : s.dec.L.toNat ≤ outLenOf s)
    (h : fitsOutput s len = true) : opRoom s len = true := by
  have hf := fitsOutput_iff.mp h
  rw [outputLeft] at hf
  rw [opRoom, decide_eq_true_eq]
  omega

/-- LITERAL_BODY moves or raises (R225). -/
theorem literalBody_total (hop : s.dec.op.toNat ≤ s.dec.L.toNat) (hL : s.dec.L.toNat ≤ outLenOf s) :
    ∃ t, literalBody len s = .next t := by
  unfold literalBody
  split
  · split
    · next hf => rw [if_pos (opRoom_of_fitsOutput hop hL hf)]; exact ⟨_, rfl⟩
    · exact ⟨_, rfl⟩
  · exact ⟨_, rfl⟩

/-- COPY_BODY moves or raises (R231). -/
theorem copyBody_total (hop : s.dec.op.toNat ≤ s.dec.L.toNat) (hL : s.dec.L.toNat ≤ outLenOf s) :
    ∃ t, copyBody offset len s = .next t := by
  unfold copyBody
  split
  · split
    · next hf => rw [if_pos (opRoom_of_fitsOutput hop hL hf)]; exact ⟨_, rfl⟩
    · exact ⟨_, rfl⟩
  · exact ⟨_, rfl⟩

/-- V_LITERAL_BODY skips or answers ILLEGAL (R262). -/
theorem shadowLiteralBody_total (len : Nat) (s : State) : ∃ t, shadowLiteralBody len s = .next t := by
  unfold shadowLiteralBody
  repeat' split
  all_goals exact ⟨_, rfl⟩

/-- V_COPY_BODY skips or answers ILLEGAL (R268). -/
theorem shadowCopyBody_total (offset len : Nat) (s : State) : ∃ t, shadowCopyBody offset len s = .next t := by
  unfold shadowCopyBody
  repeat' split
  all_goals exact ⟨_, rfl⟩

/-- An operation of DECOMPRESS answers where its body does (R224). -/
theorem decoderOperand_total {body : State → Result} (h : ∃ t, body (operandTaken s m) = .next t) :
    ∃ t, decoderOperand m body s = .next t := by
  unfold decoderOperand
  split
  · exact h
  · exact ⟨_, rfl⟩

/-- An operation of VALIDATE answers where its body does (R261). -/
theorem shadowOperand_total {body : State → Result} (h : ∃ t, body (operandTaken s m) = .next t) :
    ∃ t, shadowOperand m body s = .next t := by
  unfold shadowOperand
  split
  · exact h
  · exact ⟨_, rfl⟩

/-- In the operation loop the two readers between them always answer. -/
theorem withStream_total {decoder shadow : State → Result} (hr : opsRunning s = true)
    (ho : s.latch.opcode = opDecompress ∨ s.latch.opcode = opValidate)
    (hd : s.latch.opcode = opDecompress → ∃ t, decoder s = .next t) (hv : ∃ t, shadow s = .next t) :
    ∃ t, withStream decoder shadow s = .next t := by
  obtain ho | ho := ho
  · rw [withStream_decompress hr ho]; exact hd ho
  · rw [withStream_validate hr ho]; exact hv

/-- The operation fetched at ip answers a next state (R225, R231, R262, R268). -/
theorem OpsInv.exec_total {i : Instr} (hi : OpsInv s) (hr : opsRunning s = true) (hc : contextOf i = .stream) :
    ∃ t, exec i (consumeTag s) = .next t := by
  obtain ⟨ho, -, hop, hL⟩ := hi
  obtain ⟨m, len, -, he⟩ | ⟨m, offset, len, -, he⟩ := exec_stream hc <;> rw [he]
  · exact withStream_total hr ho
      (fun hd => decoderOperand_total (literalBody_total (s := operandTaken (consumeTag s) m) hop (hL hd)))
      (shadowOperand_total (shadowLiteralBody_total _ _))
  · exact withStream_total hr ho
      (fun hd => decoderOperand_total (copyBody_total (s := operandTaken (consumeTag s) m) hop (hL hd)))
      (shadowOperand_total (shadowCopyBody_total _ _ _))

/-- The operation loop's exit ends the command (R235, R236, R272). -/
theorem OpsInv.endOfStream_total (hi : OpsInv s) (hr : opsRunning s = true) : ∃ t, endOfStream s = .next t := by
  refine withStream_total hr hi.1 (fun _ => ?_) ?_
  · split <;> exact ⟨_, rfl⟩
  · split <;> exact ⟨_, rfl⟩

/-! ### The other turns of the core -/

/-- The varint unit's turn answers a next state (R122, R123). -/
theorem VarintInv.coreOutcome_total (hi : VarintInv s) (hb : busy s = true) (hp : s.phase = .varint) :
    ∃ t, coreOutcome s = .next t := by
  have hturn := hi.turn hb hp
  generalize coreOutcome s = r at hturn
  cases hturn with
  | fails v => exact ⟨_, varintFail_eq_complete⟩
  | goesOn v => exact ⟨_, rfl⟩
  | ends v =>
    obtain ⟨-, e⟩ | ⟨-, -, e⟩ | e := varintOk_cases (s := setVarint s v) hi.1
    · exact ⟨_, e⟩
    · exact ⟨_, e⟩
    · exact ⟨_, e⟩

/-- The fragment loop's head answers a next state (R173). -/
theorem fragmentStep_total (s : State) : ∃ t, fragmentStep s = .next t := by
  unfold fragmentStep
  split <;> exact ⟨_, rfl⟩

/-- R185's tail literal has room in OUT (R189, R191). -/
theorem ProbeInv.emitTail_ok (hi : ProbeInv s) (hm : memWf s.mem) (ho : ownsOut s) (hd : inApartOut s) :
    ∃ u, emitTail s = .ok u := by
  obtain ⟨hfrag, hlen⟩ := hi.fragment_le
  have hroom := hi.room (lit := s.enc.len.toNat - s.enc.nextEmit.toNat) (k := 0)
  obtain ⟨-, -, -, -, -, -, hne, -⟩ := hi
  obtain ⟨u, -, hu, -⟩ := emitLiteral_or_none_of_room (src := fragPos s s.enc.nextEmit.toNat)
    (a := s.enc.nextEmit.toNat) (b := s.enc.len.toNat) (by omega) (hroom (by omega)) hm ho hd
    (by rw [fragPos]; omega)
  exact ⟨u, hu⟩

/-- A pass of the probe loop answers a next state: the tag encoders stay in their domains, and R189's account leaves room
for what they write (R147, R191). -/
theorem ProbeInv.probeStep_total (hi : ProbeInv s) (hm : memWf s.mem) (ho : ownsOut s) (hd : inApartOut s) :
    ∃ t, probeStep s = .next t := by
  by_cases hg : probeGoes s = true
  · by_cases hok : matchOk (probe s) = true
    · obtain ⟨v, header, copy, h, -⟩ := probeStep_of_match hi hm ho hd hg hok
      exact ⟨_, h⟩
    · rw [probeStep, if_pos hg, if_neg hok]; exact ⟨_, rfl⟩
  · obtain ⟨u, hu⟩ := hi.emitTail_ok hm ho hd
    rw [probeStep, if_neg hg, hu]
    exact ⟨_, rfl⟩

/-- Under the invariant the core's turn answers a next state (R286, R351). -/
theorem MachineInv.coreOutcome_total (h : MachineInv s) : ∃ t, coreOutcome s = .next t := by
  obtain ⟨⟨hm, -⟩, -, hlatch, hstream, henc⟩ := h
  obtain ⟨-, e⟩ | ⟨hb, h⟩ := coreOutcome_cases s
  · exact ⟨_, e⟩
  have running (hp : s.phase = .ops) : OpsInv s ∧ opsRunning s = true :=
    ⟨(hstream hb).2 hp, Bool.and_eq_true_iff.mpr ⟨hb, decide_eq_true hp⟩⟩
  obtain ⟨-, e⟩ | ⟨hp, -⟩ | ⟨hp, -⟩ | ⟨hp, -, i, -, -, hc, e⟩ | ⟨hp, -, e⟩ | ⟨-, e⟩ | ⟨hp, e⟩ := h
  · exact ⟨_, e⟩
  · exact ((hstream hb).1 hp).coreOutcome_total hb hp
  · exact ((hstream hb).1 hp).coreOutcome_total hb hp
  · rw [e]; exact (running hp).1.exec_total (running hp).2 hc
  · rw [e]; exact (running hp).1.endOfStream_total (running hp).2
  · rw [e]; exact fragmentStep_total s
  · have hi := (henc hb).2 hp
    obtain ⟨-, hin, hout, -⟩ := hlatch hb
    obtain ⟨ho, hd⟩ := outHeld_own hin (hout (writesOut_iff.mpr (.inl hi.1.1)))
    rw [e]
    exact hi.probeStep_total hm ho hd

/-! ### The host's actions -/

/-- A next state is no fault. -/
theorem not_faults_next (t : State) : ¬ Faults (.next t) := nofun

/-- A refusal is no fault. -/
theorem not_faults_refused (r : Refusal) : ¬ Faults (.refused r) := nofun

/-- An outcome that is some next state is no fault. -/
theorem not_faults_of_next {r : Result} (h : ∃ t, r = .next t) : ¬ Faults r := by
  obtain ⟨t, rfl⟩ := h
  exact not_faults_next t

/-- The start of a command that reads IN faults only where the command's rule does. -/
theorem startIn_not_faults {op : BitVec 3} {level : BitVec 2} {run : State → Result}
    (h : ¬ Faults (run (beginCommand op level s))) : ¬ Faults (startIn op level run s) := by
  unfold startIn
  split_ifs
  · exact not_faults_next s
  · exact h
  · exact not_faults_refused _
  · exact not_faults_refused _

/-- The start of a command that reads IN and writes OUT faults only where the command's rule does. -/
theorem startInOut_not_faults {op : BitVec 3} {level : BitVec 2} {run : State → Result}
    (h : ¬ Faults (run (beginCommand op level s))) : ¬ Faults (startInOut op level run s) := by
  unfold startInOut
  split_ifs
  · exact not_faults_next s
  · exact h
  · exact not_faults_refused _
  · exact not_faults_refused _
  · exact not_faults_refused _

/-- No command's start faults, whatever an earlier command left (R170, R172, R173, R220, R260, R275). -/
theorem command_not_faults {i : Instr} (hc : contextOf i = .command) (hb : busy s = false) : ¬ Faults (exec i s) := by
  cases i with
  | cmdMaxlen level =>
    have e : exec (.cmdMaxlen level) s = runMaxlen (beginCommand opMaxlen level s) := startPlain_of_idle hb
    rw [e]
    exact not_faults_next _
  | cmdCompress level => exact startInOut_not_faults (not_faults_of_next (runCompress_total _))
  | cmdGetlen level => rw [exec_cmdGetlen]; exact startIn_not_faults (not_faults_next _)
  | cmdDecompress level => rw [exec_cmdDecompress]; exact startInOut_not_faults (not_faults_next _)
  | cmdValidate level => rw [exec_cmdValidate]; exact startIn_not_faults (not_faults_next _)
  | litX1 e | litX2 e | litX3 e | litX4 e | litShort n => cases hc
  | copy1 l off | copy2 l off | copy4 l off => cases hc
  | varintMore g | varintLast g => cases hc

/-- A host access that faults nowhere else does not fault for want of memory, but is refused (R61). -/
theorem atMemory_not_faults {a : Addr} {r : Result} (h : ¬ Faults r) : ¬ Faults (atMemory a s r) := by
  unfold atMemory
  split
  · exact h
  · exact not_faults_refused _

/-- No action of the host faults where the core's turn does not (R72, R75, R281, R330). -/
theorem hostOutcome_not_faults (a : HostAction) (h : ¬ Faults (coreOutcome s)) : ¬ Faults (hostOutcome a s) := by
  obtain ⟨-, e⟩ | ⟨i, hc, hb, e⟩ | ⟨_, _, _, -, e⟩ | ⟨_, _, -, e⟩ | ⟨addr, -, e⟩ | ⟨addr, b, -, e⟩ | ⟨-, e⟩ :=
    hostOutcome_cases a s <;> rw [e]
  · exact h
  · exact command_not_faults hc hb
  · exact not_faults_next _
  · exact not_faults_next _
  · exact atMemory_not_faults (not_faults_next _)
  · refine atMemory_not_faults ?_
    split
    · exact not_faults_refused _
    · exact not_faults_next _
  · exact not_faults_next _

end

/-- Settles O58: it holds. The core's turn answers a next state, and the host's actions answer one or are refused. -/
theorem noStepFaults : Obligations.NoStepFaults := by
  unfold Obligations.NoStepFaults
  intro s h
  obtain ⟨-, e⟩ | ⟨a, rest, -, e⟩ := step_cases s <;> rw [e]
  · exact not_faults_of_next h.coreOutcome_total
  · have ht : MachineInv (setHost s rest) := h
    exact hostOutcome_not_faults a (not_faults_of_next ht.coreOutcome_total)

end Sys2Proof.Machine

/-! PROOF. The encoder's registers stay in their bounds: the fragment lies in IN, the cursors in the fragment, every candidate
before ip, and op within R189's account (R174, R177 to R189). -/

namespace Sys2Proof.Machine

section

variable {s t u v : State} {n : Nat}

/-! ### Where EncoderInv says nothing, and what leaves it -/

theorem EncoderInv.of_not_busy (h : busy t = false) : EncoderInv t := fun hb => absurd (h.symm.trans hb) nofun

/-- Outside COMPRESS's two loops EncoderInv says nothing. -/
theorem EncoderInv.of_phase (hf : t.phase ≠ .fragment) (hp : t.phase ≠ .probe) : EncoderInv t :=
  fun _ => ⟨fun h => absurd h hf, fun h => absurd h hp⟩

/-- At the fragment loop's head EncoderInv is FragmentInv. -/
theorem EncoderInv.of_fragment (hp : t.phase = .fragment) (h : FragmentInv t) : EncoderInv t :=
  fun _ => ⟨fun _ => h, fun h' => absurd (hp.symm.trans h') nofun⟩

/-- At the probe loop's head EncoderInv is ProbeInv. -/
theorem EncoderInv.of_probe (hp : t.phase = .probe) (h : ProbeInv t) : EncoderInv t :=
  fun _ => ⟨fun h' => absurd (hp.symm.trans h') nofun, fun _ => h⟩

theorem HostAccess.encoderInv (h : HostAccess s t) (hs : EncoderInv s) : EncoderInv t := by
  intro hb
  rw [busy_congr h.status] at hb
  rw [h.eq]
  exact hs hb

/-! ### R189's account -/

/-- A literal costs its bytes, a header byte, and two more for each full 61 bytes (R189). -/
theorem literalCost_le (len : Nat) : literalCost len ≤ len + 1 + 2 * (len / 61) := by
  unfold literalCost
  split <;> omega

/-- The account stays within R15's bound (R189). -/
theorem writtenBound_le (base : Nat) : writtenBound base ≤ Config.maxCompressedLength base := by
  unfold writtenBound Config.maxCompressedLength
  omega

/-- The account of a fragment's end covers what was written for the fragment so far, with its tail (R174, R189). -/
theorem writtenBound_add {base nextEmit len : Nat} (hb : base % 65536 = 0) (hne : nextEmit ≤ len) (h0 : 0 < len) :
    writtenBound base + nextEmit + 2 * (nextEmit / 61) + literalCost (len - nextEmit) ≤ writtenBound (base + len) := by
  have hc := literalCost_le (len - nextEmit)
  have hheaders : base / 61 + nextEmit / 61 + (len - nextEmit) / 61 ≤ (base + len) / 61 := by omega
  have hfragments : (base + 65535) / 65536 + 1 ≤ (base + len + 65535) / 65536 := by omega
  unfold writtenBound
  omega

/-! ### COMPRESS's start, and a fragment's (R173, R174, R177) -/

/-- COMPRESS's varint is within the account of no input (R173, R189). -/
theorem Emitted.fragmentInv_start {level : BitVec 2} {s : State} (hi : s.inLen.toNat ≤ Config.maxInput)
    (ho : Config.maxCompressedLength s.inLen.toNat ≤ s.outLen.toNat)
    (h : Emitted (encoderStart (beginCommand opCompress level s)) (varintBytes (s.inLen.setWidth 32)).length t) :
    FragmentInv t := by
  have hlen : (varintBytes (s.inLen.setWidth 32)).length ≤ 5 := varintBytesFuel_length 5 _
  have hop : t.enc.op.toNat = 0 + (varintBytes (s.inLen.setWidth 32)).length := h.op
  have henc : t.enc.base = 0 ∧ t.enc.n = s.inLen := by rw [h.eq]; exact ⟨rfl, rfl⟩
  have hlatch := h.latch
  rw [encoderStart_latch, beginCommand_latch] at hlatch
  refine ⟨⟨?_, ?_, ?_, ?_⟩, ?_, ?_, ?_⟩
  · rw [hlatch]
  · rw [hlatch, henc.2]
  · rw [inLenOf, hlatch]; exact hi
  · rw [inLenOf, outLenOf, hlatch]; exact ho
  · rw [henc.1]; exact Nat.zero_le _
  · rw [henc.1]; exact fun _ => rfl
  · rw [henc.1, hop]
    exact (Nat.zero_add _).le.trans hlen

/-- A fragment starts with its cursors 0 and no candidate (R41, R174, R177). -/
theorem FragmentInv.starts (h : FragmentInv s) (hlt : s.enc.base.toNat < s.enc.n.toNat) :
    ProbeInv (fragmentInit (min Config.fragSize (s.enc.n.toNat - s.enc.base.toNat)) s) := by
  obtain ⟨hc, -, hmod, hop⟩ := h
  have hn : s.enc.n.toNat = inLenOf s := congrArg BitVec.toNat hc.2.1
  rw [hn] at hlt ⊢
  have hsize : min Config.fragSize (inLenOf s - s.enc.base.toNat) ≤ 65536 := Nat.min_le_left _ _
  have hlen : (BitVec.ofNat 17 (min Config.fragSize (inLenOf s - s.enc.base.toNat))).toNat =
      min Config.fragSize (inLenOf s - s.enc.base.toNat) := by
    rw [BitVec.toNat_ofNat]
    exact Nat.mod_eq_of_lt (by omega)
  refine ⟨hc, hlt, hmod hlt, hlen, ?_, Nat.le_refl _, Nat.zero_le _, Nat.le_refl 32, Nat.le_refl 32,
    fun g hg hne => ?_, hop.trans ((Nat.le_add_right _ _).trans (Nat.le_add_right _ _))⟩
  · exact (fragmentInit_tableBits _ s).trans (congrArg tableBitsFor hlen.symm)
  · rw [fragmentInit_tableBits] at hg
    exact absurd (htRead_htClear_of_lt hg s.ht) hne

/-! ### The passes of the probe loop -/

/-- After a probe no candidate lies past ip (R179). -/
theorem ProbeInv.htRead_probe_le (h : ProbeInv s) (hw : htWf s.ht = true) {g : Nat}
    (hlt : g < 2 ^ s.enc.tableBits.toNat) (hne : htRead (probe s).ht g ≠ 0) :
    (htRead (probe s).ht g).toNat ≤ s.enc.ip.toNat := by
  obtain ⟨-, -, -, -, -, -, -, -, -, hbehind, -⟩ := h
  rw [probe_eq rfl rfl rfl] at hne ⊢
  dsimp only at hne ⊢
  rw [htRead_htWrite hw] at hne ⊢
  split at hne
  · next e => rw [if_pos e, BitVec.toNat_ofNat]; exact Nat.mod_le _ _
  · next e => rw [if_neg e]; exact (hbehind g hlt hne).le

/-- A skip moves ip on by at least one byte, not past what 17 bits hold, and stays in the account (R184). -/
theorem ProbeInv.skips (h : ProbeInv s) (hw : htWf s.ht = true) (hg : probeGoes s = true) :
    s.enc.ip.toNat < (skipStep (probe s)).enc.ip.toNat ∧ ProbeInv (skipStep (probe s)) := by
  have hgoes := probeGoes_iff.mp hg
  have hlen := h.fragment_le.2
  have hbehind {g : Nat} := h.htRead_probe_le hw (g := g)
  obtain ⟨hc, hb, hmod, hl, hbits, hne, hnl, hs1, hs2, -, hop⟩ := h
  have hip : (skipStep (probe s)).enc.ip.toNat = s.enc.ip.toNat + s.enc.skip.toNat / 32 := by
    have e : (skipStep (probe s)).enc.ip = s.enc.ip + BitVec.ofNat 17 (s.enc.skip.toNat / 32) := rfl
    rw [e, BitVec.toNat_add, BitVec.toNat_ofNat]
    omega
  have hskip : (skipStep (probe s)).enc.skip.toNat = s.enc.skip.toNat + 1 := by
    have e : (skipStep (probe s)).enc.skip = s.enc.skip + 1#64 := rfl
    rw [e, BitVec.toNat_add, BitVec.toNat_ofNat]
    omega
  have hlt : s.enc.ip.toNat < (skipStep (probe s)).enc.ip.toNat := by omega
  refine ⟨hlt, ?_⟩
  simp only [ProbeInv, CompressInv, htBehind, inLenOf, outLenOf, skipStep_latch, probe_latch, skipStep_enc_n, probe_enc_n,
    skipStep_enc_base, probe_enc_base, skipStep_enc_len, probe_enc_len, skipStep_enc_tableBits, probe_enc_tableBits,
    skipStep_enc_nextEmit, probe_enc_nextEmit, skipStep_enc_op, probe_enc_op, skipStep_ht]
  exact ⟨hc, hb, hmod, hl, hbits, hne.trans hlt.le, hnl, by omega, by omega,
    fun g hg hne' => (hbehind hg hne').trans_lt hlt, hop⟩

/-- A match moves ip past it within the fragment, and saves at least the byte that its literal's header takes (R182,
R189). -/
theorem ProbeInv.matches {copy : List Byte} (h : ProbeInv s) (hw : htWf s.ht = true) (hg : probeGoes s = true)
    (hok : matchOk (probe s) = true) (hn : n ≤ literalCost (s.enc.ip.toNat - s.enc.nextEmit.toNat))
    (hcopy : emitCopyBytes (s.enc.ip.toNat - (probe s).enc.candidate.toNat) (matchLen (probe s)) = some copy)
    (e : Emitted (probe s) (n + copy.length) v) :
    MatchMoved s (matchLen (probe s)) (n + copy.length) (insertBehind (advance (matchLen (probe s)) v)) ∧
      ProbeInv (insertBehind (advance (matchLen (probe s)) v)) := by
  obtain ⟨h4, hle⟩ := matchLen_le (s := probe s) hg
  rw [probe_enc_ip, probe_enc_len] at hle
  generalize matchLen (probe s) = m at *
  obtain ⟨-, hoff, -⟩ := matchOk_iff.mp hok
  obtain ⟨bs, hbs, hsaves⟩ := emitCopyBytes_of_domain hoff h4
  rw [probe_enc_ip, hcopy] at hbs
  cases hbs
  have hlen := h.fragment_le.2
  have hbehind {g : Nat} := h.htRead_probe_le hw (g := g)
  have hcost := literalCost_le (s.enc.ip.toNat - s.enc.nextEmit.toNat)
  obtain ⟨hc, hb, hmod, hl, hbits, hne, hnl, -, -, -, hop⟩ := h
  have hmoved := e.matchMoved hle
  have hht : (advance m v).ht = (probe s).ht := by rw [advance_ht, e.eq, emitted_ht]
  have hins := htRead_insertBehind (s := advance m v) (by rw [hht]; exact (probe_keepsCanonical s).ht hw)
  rw [hht, ← insertBehind_enc] at hins
  generalize insertBehind (advance m v) = t at *
  refine ⟨hmoved, ?_⟩
  obtain ⟨heq, hip, hnext, hskip, ⟨en, ebase, elen, ebits⟩, hop', -⟩ := hmoved
  have hlatch : t.latch = s.latch := by rw [heq]
  rw [ProbeInv, CompressInv, htBehind, inLenOf, outLenOf, hlatch, en, ebase, elen, ebits, hnext, hip, hskip, hop']
  refine ⟨hc, hb, hmod, hl, hbits, Nat.le_refl _, hle, Nat.le_refl 32, Nat.le_add_right 32 _, fun g hlt => ?_, ?_⟩
  · rw [hins, hip]
    split
    · intro _
      rw [BitVec.toNat_ofNat]
      exact (Nat.mod_le _ _).trans_lt (by omega)
    · exact fun hne' => (hbehind hlt hne').trans_lt (by omega)
  · omega

/-- The tail ends the fragment within the account of the next one's start (R185, R189). -/
theorem ProbeInv.ends (h : ProbeInv s)
    (hn : n ≤ literalCost (s.enc.len.toNat - s.enc.nextEmit.toNat)) (e : Wrote s n u) :
    (endFragment u).enc.base.toNat = s.enc.base.toNat + s.enc.len.toNat ∧ FragmentInv (endFragment u) := by
  have hfrag := h.fragment_le
  obtain ⟨hc, hb, hmod, hl, -, -, hnl, -, -, -, hop⟩ := h
  have hin : inLenOf s ≤ 4294967295 := hc.2.2.1
  have haccount := writtenBound_add hmod hnl (by simp only [Config.fragSize] at hl; omega)
  have hlatch : (endFragment u).latch = s.latch := by rw [endFragment_latch, e.eq, emitted_latch]
  have henc : (endFragment u).enc = { s.enc with op := u.enc.op, base := s.enc.base + s.enc.len.setWidth 64 } := by
    rw [e.eq]
    rfl
  have hbase : (endFragment u).enc.base.toNat = s.enc.base.toNat + s.enc.len.toNat := by
    rw [henc, BitVec.toNat_add, BitVec.toNat_setWidth]
    omega
  refine ⟨hbase, ?_⟩
  rw [FragmentInv, hbase, CompressInv, inLenOf, outLenOf, hlatch, henc]
  refine ⟨hc, hfrag.1, fun hlt => ?_, ?_⟩
  · simp only [Config.fragSize, inLenOf] at hl hlt
    omega
  · rw [e.op]
    omega

/-- The pending literal of a fragment still probed is no longer than a fragment (R174). -/
theorem ProbeInv.pending_le (h : ProbeInv s) (hg : probeGoes s = true) :
    s.enc.ip.toNat - s.enc.nextEmit.toNat ≤ 65536 := by
  have hgoes := probeGoes_iff.mp hg
  have hfrag := h.fragment_le
  omega

/-- Nor is the tail. -/
theorem ProbeInv.tail_le (h : ProbeInv s) : s.enc.len.toNat - s.enc.nextEmit.toNat ≤ 65536 :=
  (Nat.sub_le _ _).trans h.fragment_le.2

/-! ### Every step -/

theorem CoreMove.encoderInv (h : CoreMove s t) (hw : htWf s.ht = true) (hs : EncoderInv s) : EncoderInv t := by
  cases h with
  | stays => exact hs
  | ends | compressEnds => exact .of_not_busy (busy_complete _ _ _ _)
  | varintMore _ hp | decoded _ hp | shadowed _ hp => exact .of_phase (by simp [hp]) (by simp [hp])
  | varintLast => exact .of_phase nofun nofun
  | fragmentStarts hb hp hlt => exact .of_probe rfl (((hs hb).1 hp).starts hlt)
  | matched hb hp hg hok n copy u v eu hn hc ev =>
    have hi := (hs hb).2 hp
    obtain ⟨hmoved, hi'⟩ := hi.matches hw hg hok (hn (hi.pending_le hg)) hc (eu.trans_emitted ev)
    exact .of_probe (by rw [hmoved.eq]; exact hp) hi'
  | skipped hb hp hg => exact .of_probe hp (((hs hb).2 hp).skips hw hg).2
  | tail hb hp _ n u eu hn =>
    have hi := (hs hb).2 hp
    exact .of_fragment rfl (hi.ends (hn hi.tail_le) eu).2

theorem CommandMove.encoderInv (h : CommandMove s t) : EncoderInv t := by
  cases h with
  | ends => exact .of_not_busy (busy_complete _ _ _ _)
  | encodes level _ hi ho t he => exact .of_fragment (by rw [he.eq]; rfl) (he.fragmentInv_start hi ho)
  | reads => exact .of_phase nofun nofun

theorem resetBlock_encoderInv (s : State) : EncoderInv (resetBlock s) := .of_not_busy (resetBlock_not_busy s)

end

/-- Settles O56: it holds. A fragment's start, a match, a skip and a tail each keep their loop's account, and no other step
writes the encoder of a running COMPRESS. -/
theorem encoderRegistersInBounds : Obligations.EncoderRegistersInBounds := by
  unfold Obligations.EncoderRegistersInBounds
  rintro s t ⟨-, hw⟩ hs h
  cases step_next h with
  | access h => exact h.encoderInv hs
  | core hu h => exact h.encoderInv (by rw [hu.eq]; exact hw) (hu.encoderInv hs)
  | command _ _ h => exact h.encoderInv
  | reset u => exact resetBlock_encoderInv u

end Sys2Proof.Machine

/-! PROOF. The size of a fragment's table, and COMPRESS's checks (R9, R172, R175). -/

namespace Sys2Proof.Machine

/-- `ceil_log2` is an exponent that is large enough (R9). -/
theorem le_two_pow_ceilLog2 {x k : Nat} (hx : x ≤ 2 ^ k) (hk : k < 64) : x ≤ 2 ^ ceilLog2 x := by
  unfold ceilLog2
  cases h : (List.range 64).find? (fun k => decide (x ≤ 2 ^ k)) with
  | none => exact absurd hx (by simpa using List.find?_range_eq_none.mp h k hk)
  | some i => simpa using (List.find?_range_eq_some.mp h).1

/-- No smaller exponent is (R9). -/
theorem two_pow_lt_of_lt_ceilLog2 {x k : Nat} (h : k < ceilLog2 x) (hk : k < 64) : 2 ^ k < x :=
  Nat.not_le.mp fun hx => Nat.not_lt.mpr (ceilLog2_le hx hk) h

/-- Settles O43: it holds. `table_bits` is the least exponent for the clamped length, and the clamp's ends are powers of
two. -/
theorem tableBitsAreLeast : Obligations.TableBitsAreLeast := by
  unfold Obligations.TableBitsAreLeast
  intro len
  have hle : tableBitsFor len ≤ 15 := tableBitsFor_le len
  have hup : min (max len 256) 32768 ≤ 2 ^ tableBitsFor len :=
    le_two_pow_ceilLog2 (Nat.min_le_right _ (2 ^ 15)) (by decide)
  have hlow (k : Nat) (hk : k < tableBitsFor len) : 2 ^ k < min (max len 256) 32768 :=
    two_pow_lt_of_lt_ceilLog2 hk (by omega)
  refine ⟨?_, hle, hup, hlow⟩
  by_contra h8
  have h7 : 2 ^ tableBitsFor len ≤ 2 ^ 7 := Nat.pow_le_pow_right Nat.two_pos (by omega)
  omega

/-- Settles O23: it holds, by R172's three ways. -/
theorem compressArgumentChecks : Obligations.CompressArgumentChecks := by
  unfold Obligations.CompressArgumentChecks
  intro level s hb hr
  have hexec : exec (.cmdCompress level) s = runCompress (beginCommand opCompress level s) := startInOut_of_ready hb hr
  rw [hexec]
  refine ⟨fun h => runCompress_tooLarge h, fun h1 h2 => runCompress_insufficient h1 h2, fun h1 h2 => ?_⟩
  exact ⟨_, runCompress_starts h1 h2, busy_beginCommand s opCompress level⟩

end Sys2Proof.Machine

/-! PROOF. The fragment loop's head, the tail, and the progress of the probe loop (R173, R174, R177, R185, R188 to R190). -/

namespace Sys2Proof.Machine

/-- Settles O45: it holds, by FRAGMENT_INIT. -/
theorem fragmentStarts : Obligations.FragmentStarts := by
  unfold Obligations.FragmentStarts
  intro s hb hp hh hlt
  have hstep : step s = .next (fragmentInit (min Config.fragSize (s.enc.n.toNat - s.enc.base.toNat)) s) := by
    rw [step_of_fragment hh hb hp, fragmentStep, if_pos hlt]
  exact ⟨_, hstep, rfl⟩

/-- Settles O46: it holds. -/
theorem compressCompletes : Obligations.CompressCompletes := by
  unfold Obligations.CompressCompletes
  intro s hb hp hh hle
  rw [step_of_fragment hh hb hp, fragmentStep, if_neg (Nat.not_lt.mpr hle)]
  rfl

/-- Settles O51: it holds. At the last fragment's end op is within R189's account of n bytes. -/
theorem compressedSizeBound : Obligations.CompressedSizeBound := by
  unfold Obligations.CompressedSizeBound
  intro s t hs hb hp hh h hbt
  obtain ⟨⟨-, hn, -, hout⟩, hle, -, hop⟩ := (hs hb).1 hp
  rw [step_of_fragment hh hb hp] at h
  obtain ⟨-, rfl⟩ | ⟨hend, rfl⟩ := fragmentStep_next h
  · exact absurd (hb.symm.trans hbt) nofun
  · have hbase : s.enc.base.toNat = inLenOf s := hle.antisymm ((congrArg BitVec.toNat hn).symm.trans_le hend)
    have hbound := hop.trans (writtenBound_le s.enc.base.toNat)
    rw [hbase] at hbound
    exact ⟨hbound, hbound.trans hout⟩

/-- Settles O50: it holds. A skip is of at least a byte, a match of at least four, and a fragment is not empty and lies in
IN. -/
theorem encoderAdvances : Obligations.EncoderAdvances := by
  unfold Obligations.EncoderAdvances
  rintro s t ⟨-, hw⟩ hs hb hp hh h
  have hi := (hs hb).2 hp
  rw [step_of_probe hh hb hp] at h
  obtain ⟨hg, hok, u, v, hu, hv, rfl⟩ | ⟨hg, -, rfl⟩ | ⟨-, u, hu, rfl⟩ := probeStep_next h
  · obtain ⟨n, eu, hn⟩ := emitLiteral_or_none hu
    obtain ⟨copy, hc, ev⟩ := emitCopy_ok hv
    have h4 := (matchLen_le (s := probe s) hg).1
    obtain ⟨hmoved, -⟩ := hi.matches hw hg hok (hn (hi.pending_le hg)) hc (eu.trans_emitted ev)
    refine ⟨?_, .inl ⟨?_, hmoved.keeps.2.1, by rw [hmoved.ip]; omega⟩⟩
    · rw [hmoved.eq]; exact hb
    · rw [hmoved.eq]; exact hp
  · exact ⟨hb, .inl ⟨hp, rfl, (hi.skips hw hg).1⟩⟩
  · obtain ⟨n, eu, hn⟩ := emitLiteral_or_none hu
    obtain ⟨hbase, hc, hle, -⟩ := hi.ends (hn hi.tail_le) eu
    have hlen : 0 < s.enc.len.toNat := by
      obtain ⟨-, hlt, -, hl, -⟩ := hi
      simp only [Config.fragSize] at hl
      omega
    refine ⟨?_, .inr ⟨rfl, by omega, ?_⟩⟩
    · rw [eu.eq]; exact hb
    · rw [hi.1.2.1]
      refine hle.trans_eq ?_
      rw [inLenOf, endFragment_latch, eu.eq, emitted_latch]

end Sys2Proof.Machine

/-! PROOF. A fragment's tail (R173, R185, R187). -/

namespace Sys2Proof.Machine

section

variable {s u : State}

/-- The tail literal, where there is one, is written, and the fragment ends (R185, R187). -/
theorem ProbeInv.probeStep_of_tail (hi : ProbeInv s) (hm : memWf s.mem) (ho : ownsOut s) (hd : inApartOut s)
    (hg : probeGoes s = false) :
    ∃ u header, probeStep s = .next (endFragment u) ∧
      LiteralWritten s (s.enc.base.toNat + s.enc.nextEmit.toNat) (s.enc.len.toNat - s.enc.nextEmit.toNat) header u := by
  obtain ⟨hfrag, -⟩ := hi.fragment_le
  have hne : s.enc.nextEmit.toNat ≤ s.enc.len.toNat := by
    obtain ⟨-, -, -, -, -, -, hne, -⟩ := hi
    exact hne
  obtain ⟨u, header, hu, hlit⟩ := emitLiteral_or_none_of_room (src := fragPos s s.enc.nextEmit.toNat)
    (a := s.enc.nextEmit.toNat) (b := s.enc.len.toNat) hi.tail_le (hi.room (k := 0) (by omega)) hm ho hd
    (by rw [fragPos]; omega)
  have htail : emitTail s = .ok u := hu
  refine ⟨u, header, ?_, hlit⟩
  rw [probeStep, hg, htail]
  rfl

/-- What a running COMPRESS holds of its regions: OUT's bytes are their own, and none is one of IN's (R64). -/
theorem MachineInv.compress_regions (h : MachineInv s) (hb : busy s = true) (hc : s.latch.opcode = opCompress) :
    ownsOut s ∧ inApartOut s := by
  obtain ⟨-, -, hlatch, -, -⟩ := h
  obtain ⟨-, hin, hout, -⟩ := hlatch hb
  exact outHeld_own hin (hout (writesOut_iff.mpr (.inl hc)))

end

/-- Settles O49: it holds. R189's account leaves room for the tail literal. -/
theorem tailEmits : Obligations.TailEmits := by
  unfold Obligations.TailEmits
  intro s h hb hp hh hend
  have hi := (h.2.2.2.2 hb).2 hp
  obtain ⟨hown, hapart⟩ := h.compress_regions hb hi.1.1
  have hg : probeGoes s = false := Bool.eq_false_iff.mpr fun hg => Nat.not_lt.mpr hend (probeGoes_iff.mp hg)
  obtain ⟨u, header, hstep, hheader, e, hheads, hlits⟩ := hi.probeStep_of_tail h.1.1 hown hapart hg
  refine ⟨endFragment u, _, header, (step_of_probe hh hb hp).trans hstep, rfl, hheader, ?_, hheads, hlits, e.outOnly⟩
  conv_lhs => rw [e.eq]
  rfl

end Sys2Proof.Machine

/-! PROOF. EMIT_COPY's bytes as operations (R186, R192). -/

namespace Sys2Proof.Machine

/-- A copy-1 or copy-2 operation of this offset and length. -/
abbrev ShortCopy (offset : Nat) (i : Instr) (l : Nat) : Prop :=
  1 ≤ l ∧ (copyShape i = some (1, offset, l) ∨ copyShape i = some (2, offset, l))

/-- The bytes are copy-1 and copy-2 operations of this offset, whose lengths add up to this length. -/
def IsCopies (offset length : Nat) (bs : List Byte) : Prop :=
  ∃ (ops : List Instr) (lens : List Nat), bs = (ops.map encode).flatten ∧ lens.sum = length ∧
    List.Forall₂ (ShortCopy offset) ops lens

section

variable {offset len length : Nat}

/-- No operation. -/
theorem IsCopies.nil : IsCopies offset 0 [] := ⟨[], [], rfl, rfl, .nil⟩

/-- One operation more. -/
theorem IsCopies.cons {i : Instr} {bs : List Byte} (hi : ShortCopy offset i len) (h : IsCopies offset length bs) :
    IsCopies offset (len + length) (encode i ++ bs) := by
  obtain ⟨ops, lens, rfl, rfl, hops⟩ := h
  exact ⟨i :: ops, len :: lens, rfl, List.sum_cons, .cons hi hops⟩

/-- TAG_ENC_COPY1's bytes are one copy-1 operation (R87, R143). -/
theorem tagEncCopy1_shortCopy (ho : offset ≤ 2047) (h4 : 4 ≤ len) (h11 : len ≤ 11) :
    ∃ i, tagEncCopy1 offset len = some (encode i) ∧ ShortCopy offset i len := by
  refine ⟨_, tagEncCopy1_eq_encode ho h4 h11, by omega, .inl ?_⟩
  have hoff : (BitVec.ofNat 11 offset).toNat = offset := (BitVec.toNat_ofNat ..).trans (Nat.mod_eq_of_lt (by omega))
  have hlen : (BitVec.ofNat 3 (len - 4)).toNat + 4 = len := copy1Len_ofNat h4 h11
  rw [copyShape, hoff, hlen]

/-- A chunk's bytes are one copy-2 operation (R88, R144). -/
theorem copyChunkBytes_shortCopy (ho : offset ≤ 65535) (h1 : 1 ≤ len) (h64 : len ≤ 64) :
    ∃ i, copyChunkBytes offset len = some (encode i) ∧ ShortCopy offset i len := by
  rw [copyChunkBytes, if_pos (by omega)]
  refine ⟨_, tagEncCopy2_eq_encode ho h1 h64, h1, .inr ?_⟩
  have hoff : (BitVec.ofNat 16 offset).toNat = offset := (BitVec.toNat_ofNat ..).trans (Nat.mod_eq_of_lt (by omega))
  have hlen : (BitVec.ofNat 6 (len - 1)).toNat + 1 = len := copyLen_ofNat h1 h64
  rw [copyShape, hoff, hlen]

/-- The chunk loop's bytes cover the length (R186). -/
theorem copyChunks_isCopies (ho : offset ≤ 65535) (fuel length : Nat) (hf : length / 64 < fuel) :
    ∃ bs, copyChunks offset fuel length = some bs ∧ IsCopies offset length bs := by
  induction fuel generalizing length with
  | zero => omega
  | succ fuel ih =>
    rw [copyChunks]
    by_cases h : length ≥ 64
    · obtain ⟨i, hi, hcopy⟩ := copyChunkBytes_shortCopy ho (len := 64) (by omega) (by omega)
      obtain ⟨bs, hbs, hcopies⟩ := ih (length - 64) (by omega)
      rw [if_pos h, hi, hbs]
      refine ⟨_, rfl, ?_⟩
      rw [← Nat.add_sub_cancel' h]
      exact hcopies.cons hcopy
    · rw [if_neg h]
      by_cases h0 : length > 0
      · obtain ⟨i, hi, hcopy⟩ := copyChunkBytes_shortCopy ho h0 (by omega)
        rw [if_pos h0]
        refine ⟨_, hi, ?_⟩
        have hone := IsCopies.nil.cons hcopy
        rwa [List.append_nil] at hone
      · rw [if_neg h0, Nat.eq_zero_of_not_pos h0]
        exact ⟨_, rfl, .nil⟩

/-- EMIT_COPY's bytes cover the match (R186). -/
theorem emitCopyBytes_isCopies (ho : offset ≤ 65535) :
    ∃ bs, emitCopyBytes offset length = some bs ∧ IsCopies offset length bs := by
  rw [emitCopyBytes]
  by_cases h : 4 ≤ length ∧ length ≤ 11 ∧ offset < 2048
  · obtain ⟨i, hi, hcopy⟩ := tagEncCopy1_shortCopy (offset := offset) (by omega) h.1 h.2.1
    rw [if_pos h]
    refine ⟨_, hi, ?_⟩
    have hone := IsCopies.nil.cons hcopy
    rwa [List.append_nil] at hone
  · rw [if_neg h]
    exact copyChunks_isCopies ho _ length (Nat.lt_succ_self _)

end

/-- Settles O7: it holds, by a copy-1 where the length and the offset fit it, else by the chunk loop's copy-2s. -/
theorem emitCopyCoversTheMatch : Obligations.EmitCopyCoversTheMatch := by
  unfold Obligations.EmitCopyCoversTheMatch
  intro offset length _ ho _
  obtain ⟨bs, hbs, ops, lens, rfl, hsum, hops⟩ := emitCopyBytes_isCopies (length := length) ho
  exact ⟨ops, lens, hbs, hsum, hops⟩

end Sys2Proof.Machine

/-! PROOF. LEVEL has no effect but to be latched (R171): each part of the core's turn commutes with a change of the latched
LEVEL. -/

namespace Sys2Proof.Machine

/-- The state with another LEVEL latched. -/
def withLevel (level : BitVec 2) (s : State) : State := { s with latch := { s.latch with level := level } }

/-- An outcome with another LEVEL latched. -/
def levelled (level : BitVec 2) : Result → Result
  | .next s => .next (withLevel level s)
  | .fault r => .fault r
  | .refused r => .refused r

/-- An emission with another LEVEL latched. -/
def levelledEmission (level : BitVec 2) : Except Fault State → Except Fault State
  | .ok s => .ok (withLevel level s)
  | .error e => .error e

/-- A meaning that LEVEL does not enter. -/
def IgnoresLevel (f : State → Result) : Prop := ∀ level s, f (withLevel level s) = levelled level (f s)

/-- An emission that LEVEL does not enter. -/
def EmitIgnoresLevel (f : State → Except Fault State) : Prop :=
  ∀ level s, f (withLevel level s) = levelledEmission level (f s)

section

variable {level : BitVec 2} {s : State} {f g : State → Result}

/-! ### The varint unit and the stream's operations -/

theorem varintFail_ignoresLevel : IgnoresLevel varintFail := by
  intro level s
  simp only [varintFail, apply_ite (levelled level)]
  rfl

theorem varintOk_ignoresLevel : IgnoresLevel varintOk := by
  intro level s
  simp only [varintOk, apply_ite (levelled level)]
  rfl

theorem execVarintMore_ignoresLevel (b : BitVec 7) : IgnoresLevel (execVarintMore b) := by
  intro level s
  simp only [execVarintMore, apply_ite (levelled level), ← varintFail_ignoresLevel level]
  rfl

theorem execVarintLast_ignoresLevel (b : BitVec 7) : IgnoresLevel (execVarintLast b) := by
  intro level s
  simp only [execVarintLast, apply_ite (levelled level), ← varintFail_ignoresLevel level, ← varintOk_ignoresLevel level]
  rfl

theorem literalBody_ignoresLevel (len : Nat) : IgnoresLevel (literalBody len) := by
  intro level s
  simp only [literalBody, apply_ite (levelled level)]
  rfl

theorem shadowLiteralBody_ignoresLevel (len : Nat) : IgnoresLevel (shadowLiteralBody len) := by
  intro level s
  simp only [shadowLiteralBody, apply_ite (levelled level)]
  rfl

theorem copyBody_ignoresLevel (offset len : Nat) : IgnoresLevel (copyBody offset len) := by
  intro level s
  simp only [copyBody, apply_ite (levelled level)]
  rfl

theorem shadowCopyBody_ignoresLevel (offset len : Nat) : IgnoresLevel (shadowCopyBody offset len) := by
  intro level s
  simp only [shadowCopyBody, apply_ite (levelled level)]
  rfl

theorem decoderOperand_ignoresLevel (m : Nat) (hf : IgnoresLevel f) : IgnoresLevel (decoderOperand m f) := by
  intro level s
  simp only [decoderOperand, apply_ite (levelled level), ← hf level]
  rfl

theorem shadowOperand_ignoresLevel (m : Nat) (hf : IgnoresLevel f) : IgnoresLevel (shadowOperand m f) := by
  intro level s
  simp only [shadowOperand, apply_ite (levelled level), ← hf level]
  rfl

/-- The readers of the stream are told apart by OPCODE alone. -/
theorem withStream_ignoresLevel (hf : IgnoresLevel f) (hg : IgnoresLevel g) : IgnoresLevel (withStream f g) := by
  intro level s
  simp only [withStream, apply_ite (levelled level), ← hf level, ← hg level]
  rfl

theorem endOfStream_ignoresLevel : IgnoresLevel endOfStream := by
  refine withStream_ignoresLevel (fun level s => ?_) (fun level s => ?_) <;>
    simp only [apply_ite (levelled level)] <;> rfl

/-- Every stream operation is a literal or a copy. -/
theorem exec_stream_ignoresLevel {i : Instr} (hc : contextOf i = .stream) : IgnoresLevel (exec i) := by
  obtain ⟨m, len, -, he⟩ | ⟨m, offset, len, -, he⟩ := exec_stream hc <;> rw [funext he]
  · exact withStream_ignoresLevel (decoderOperand_ignoresLevel m (literalBody_ignoresLevel len))
      (shadowOperand_ignoresLevel m (shadowLiteralBody_ignoresLevel len))
  · exact withStream_ignoresLevel (decoderOperand_ignoresLevel m (copyBody_ignoresLevel offset len))
      (shadowOperand_ignoresLevel m (shadowCopyBody_ignoresLevel offset len))

/-- Every varint byte goes on or is the last. -/
theorem exec_varintByte_ignoresLevel (b : Byte) : IgnoresLevel (exec (decodeVarintByte b)) := by
  obtain ⟨g, e | e⟩ := decodeVarintByte_cases b <;> rw [e]
  · exact execVarintMore_ignoresLevel g
  · exact execVarintLast_ignoresLevel g

/-! ### The encoder -/

theorem emitBytes_ignoresLevel (bs : List Byte) : EmitIgnoresLevel (emitBytes bs) := by
  intro level s
  simp only [emitBytes, apply_ite (levelledEmission level)]
  rfl

theorem emitInput_ignoresLevel (src len : Nat) : EmitIgnoresLevel (emitInput src len) := by
  intro level s
  simp only [emitInput, apply_ite (levelledEmission level)]
  rfl

theorem andThen_levelled {k : State → Except Fault State} (hk : EmitIgnoresLevel k) (level : BitVec 2)
    (r : Except Fault State) : andThen (levelledEmission level r) k = levelledEmission level (andThen r k) := by
  cases r with
  | ok s => exact hk level s
  | error e => rfl

theorem afterEmit_levelled (hf : IgnoresLevel f) (level : BitVec 2) (r : Except Fault State) :
    afterEmit (levelledEmission level r) f = levelled level (afterEmit r f) := by
  cases r with
  | ok s => exact hf level s
  | error e => rfl

theorem emitLiteral_ignoresLevel (src len : Nat) : EmitIgnoresLevel (emitLiteral src len) := by
  intro level s
  unfold emitLiteral
  cases tagEncLiteral len with
  | none => rfl
  | some header =>
    dsimp only
    rw [emitBytes_ignoresLevel header level s, andThen_levelled (emitInput_ignoresLevel src len)]

theorem emitCopy_ignoresLevel (offset length : Nat) : EmitIgnoresLevel (emitCopy offset length) := by
  intro level s
  unfold emitCopy
  cases emitCopyBytes offset length with
  | none => rfl
  | some bs => exact emitBytes_ignoresLevel bs level s

theorem emitPending_ignoresLevel : EmitIgnoresLevel emitPending := by
  intro level s
  simp only [emitPending, apply_ite (levelledEmission level), ← emitLiteral_ignoresLevel _ _ level]
  rfl

theorem emitTail_ignoresLevel : EmitIgnoresLevel emitTail := by
  intro level s
  simp only [emitTail, apply_ite (levelledEmission level), ← emitLiteral_ignoresLevel _ _ level]
  rfl

theorem extendMatch_withLevel (fuel k : Nat) : extendMatch (withLevel level s) fuel k = extendMatch s fuel k := by
  induction fuel generalizing k with
  | zero => rfl
  | succ fuel ih =>
    rw [extendMatch, extendMatch, ih]
    rfl

theorem matchLen_withLevel : matchLen (withLevel level s) = matchLen s :=
  congrArg (4 + ·) (extendMatch_withLevel _ 0)

theorem insertBehind_withLevel : insertBehind (withLevel level s) = withLevel level (insertBehind s) := by
  simp only [insertBehind, apply_ite (withLevel level)]
  rfl

theorem matchStep_ignoresLevel : IgnoresLevel matchStep := by
  intro level s
  have hcopy : EmitIgnoresLevel (emitCopy (s.enc.ip.toNat - s.enc.candidate.toNat) (matchLen s)) :=
    emitCopy_ignoresLevel _ _
  have hafter : IgnoresLevel fun s' => .next (insertBehind (advance (matchLen s) s')) := fun level s' =>
    congrArg Host.Outcome.next (insertBehind_withLevel (s := advance (matchLen s) s'))
  rw [matchStep, matchStep, matchLen_withLevel, emitPending_ignoresLevel level s]
  exact (congrArg (afterEmit · _) (andThen_levelled hcopy level _)).trans (afterEmit_levelled hafter level _)

theorem probeStep_ignoresLevel : IgnoresLevel probeStep := by
  intro level s
  have hend : IgnoresLevel fun s' => .next (endFragment s') := fun _ _ => rfl
  simp only [probeStep, apply_ite (levelled level), ← matchStep_ignoresLevel level, ← afterEmit_levelled hend level,
    emitTail_ignoresLevel level]
  rfl

theorem fragmentStep_ignoresLevel : IgnoresLevel fragmentStep := by
  intro level s
  simp only [fragmentStep, apply_ite (levelled level)]
  rfl

theorem runCompress_ignoresLevel : IgnoresLevel runCompress := by
  intro level s
  have hnext : IgnoresLevel fun s' => .next s' := fun _ _ => rfl
  simp only [runCompress, apply_ite (levelled level), ← afterEmit_levelled hnext level,
    ← emitBytes_ignoresLevel _ level]
  rfl

/-! ### The core's turn -/

theorem varintTurn_ignoresLevel : IgnoresLevel fun s => workOutcome (varintWork s) := by
  intro level s
  simp only [varintWork, apply_ite workOutcome, apply_ite (levelled level)]
  exact if_congr Iff.rfl (varintFail_ignoresLevel level s) (exec_varintByte_ignoresLevel _ level (consumeVarintByte s))

theorem opsTurn_ignoresLevel : IgnoresLevel fun s => workOutcome (opsWork s) := by
  intro level s
  obtain ⟨i, rest, hd⟩ := fetch_decodes s
  have hd' : decode .stream (fetchBytes (withLevel level s)) = .ok (i, rest) := hd
  simp only [opsWork, hd, hd', apply_ite workOutcome, apply_ite (levelled level)]
  exact if_congr Iff.rfl (exec_stream_ignoresLevel (contextOf_decode_stream hd) level (consumeTag s))
    (endOfStream_ignoresLevel level s)

theorem coreOutcome_ignoresLevel : IgnoresLevel coreOutcome := by
  intro level s
  have hb : busy (withLevel level s) = busy s := rfl
  have hp : (withLevel level s).phase = s.phase := rfl
  simp only [coreOutcome, coreWork, hb, hp]
  cases busy s with
  | false => rfl
  | true =>
    cases s.phase with
    | idle => rfl
    | varint => exact varintTurn_ignoresLevel level s
    | ops => exact opsTurn_ignoresLevel level s
    | fragment => exact fragmentStep_ignoresLevel level s
    | probe => exact probeStep_ignoresLevel level s

end

/-- Settles O25: it holds. Only the latch holds LEVEL, and neither COMPRESS's rule nor any part of the core's turn reads
it. -/
theorem levelHasNoEffect : Obligations.LevelHasNoEffect := by
  unfold Obligations.LevelHasNoEffect
  refine ⟨fun l1 l2 s t hb h => ?_, fun level s t hh h => ?_⟩
  · obtain ⟨hb', -⟩ | ⟨-, fi, fo, mi, mo, hd, h⟩ := startInOut_next (run := runCompress) h
    · exact absurd (hb.symm.trans hb') nofun
    · have hr : inOutReady s := ⟨⟨of_decide_eq_true fi, mi⟩, of_decide_eq_true fo, mo, hd⟩
      have hlevel := runCompress_ignoresLevel l2 (beginCommand opCompress l1 s)
      rw [h] at hlevel
      exact (startInOut_of_ready hb hr).trans hlevel
  · have hlevel := coreOutcome_ignoresLevel level s
    rw [← step_of_coreTurn hh, h] at hlevel
    exact (step_of_coreTurn (s := withLevel level s) hh).trans hlevel

end Sys2Proof.Machine

/-! PROOF. COMPRESS as a whole: it comes to its end, and what it writes encodes its input (R173, R190, R194). -/

namespace Sys2Proof.Machine

/-! ### Runs -/

/-- Where every state that `P` holds of meets `Q` or steps to one nearer, a run leads to one that meets both. -/
theorem reaches_of_decreasing {P Q : State → Prop} (left : State → Nat)
    (h : ∀ s, P s → Q s ∨ ∃ t, step s = .next t ∧ P t ∧ left t < left s) {s : State} (hs : P s) :
    ∃ t, Reaches s t ∧ P t ∧ Q t := by
  induction hn : left s using Nat.strong_induction_on generalizing s with
  | _ n ih =>
    obtain hq | ⟨t, hst, ht, hlt⟩ := h s hs
    · exact ⟨s, .here s, hs, hq⟩
    · obtain ⟨u, hu, hp, hq⟩ := ih (left t) (hn ▸ hlt) ht rfl
      exact ⟨u, .next hst hu, hp, hq⟩

section

variable {s t u : State} {text : Nat → Byte} {v : List Byte} {p q : Nat}

/-- Every step keeps the whole machine's invariant. -/
theorem MachineInv.step (h : MachineInv s) (hs : step s = .next t) : MachineInv t := by
  obtain ⟨hcanon, hstatus, hlatch, hstream, henc⟩ := h
  exact ⟨(canonicalFormKept s t hcanon hs).1, statusStaysLegal s t hstatus hs, latchedArgumentsHold s t hlatch hs,
    streamRegistersInBounds s t hstream hs, encoderRegistersInBounds s t hcanon henc hs⟩

/-- A command's start brings it about. -/
theorem CommandMove.machineInv (h : CommandMove s t) (hc : CanonicalInv t) : MachineInv t :=
  ⟨hc, h.statusInv, h.latchInv, h.streamInv, h.encoderInv⟩

/-! ### The bytes of OUT so far -/

/-- One stretch of OUT after another. -/
theorem outHolds.append {a b : List Byte} {j : Nat} (ha : outHolds t j a) (hb : outHolds t (j + a.length) b) :
    outHolds t j (a ++ b) := by
  intro k hk
  by_cases hka : k < a.length
  · rw [List.getElem_append_left hka]
    exact ha k hka
  · have hkb := hb (k - a.length) (by rw [List.length_append] at hk; omega)
    rw [List.getElem_append_right (Nat.not_lt.mp hka), ← hkb]
    congr 1
    omega

/-- OUT holds, up to op, these bytes and then operations that encode the text's first `p` bytes. -/
def EncodedTo (text : Nat → Byte) (v : List Byte) (p : Nat) (s : State) : Prop :=
  ∃ ops, EncodesText text ops 0 p ∧ outHolds s 0 (v ++ ops) ∧ s.enc.op.toNat = (v ++ ops).length

/-- It depends on the latched arguments, on memory and on op. -/
theorem EncodedTo.congr (h : EncodedTo text v p s) (hl : t.latch = s.latch) (hm : t.mem = s.mem)
    (hop : t.enc.op = s.enc.op) : EncodedTo text v p t := by
  obtain ⟨ops, ht, hout, hlen⟩ := h
  exact ⟨ops, ht, fun k hk => ((byte_congr hl hm).2.1 _).trans (hout k hk), by rw [hop, hlen]⟩

/-- An emission of operations that encode the next stretch. -/
theorem EncodedTo.extend {more : List Byte} (h : EncodedTo text v p s) (e : Emitted s more.length t) (ho : ownsOut s)
    (hout : outHolds t s.enc.op.toNat more) (hmore : EncodesText text more p q) : EncodedTo text v q t := by
  obtain ⟨ops, ht, hold, hlen⟩ := h
  refine ⟨ops ++ more, ht.append hmore, ?_, ?_⟩
  · rw [← List.append_assoc]
    refine outHolds.append (fun k hk => ?_) (by rwa [Nat.zero_add, ← hlen])
    rw [e.outByte_before ho (by omega)]
    exact hold k hk
  · rw [e.op, hlen, ← List.append_assoc, List.length_append (bs := more)]

/-! ### What an emission encodes -/

/-- A literal's header and the text's bytes encode a stretch of the text (R187). -/
theorem encodesText_literal {lit : Nat} {header : List Byte} (hl : lit ≤ 65536)
    (h : if lit = 0 then header = [] else tagEncLiteral lit = some header) (p : Nat) :
    EncodesText text (header ++ (List.range lit).map fun k => text (p + k)) p (p + lit) := by
  split at h
  · next h0 =>
    rw [h, h0]
    exact .nil p
  · next h0 =>
    obtain ⟨i, m, he, hw, hs, -⟩ := tagEncLiteral_eq_encode (Nat.pos_of_ne_zero h0) (by omega : lit ≤ 2 ^ 32)
    rw [he] at h
    cases h
    rw [← List.append_nil (encode i ++ _)]
    exact .literal hw hs (by simp) (fun k hk => by simp) (.nil _)

/-- Copies of one offset encode a stretch of the text that repeats what lies that far before (R186). -/
theorem IsCopies.encodesText {offset length : Nat} {bs : List Byte} (h : IsCopies offset length bs) (h1 : 1 ≤ offset)
    (h2 : offset ≤ p) (hd : ∀ k < length, text (p + k) = text (p + k - offset)) :
    EncodesText text bs p (p + length) := by
  obtain ⟨ops, lens, rfl, rfl, hops⟩ := h
  induction hops generalizing p with
  | nil => exact .nil p
  | @cons i l ops lens hi _ ih =>
    rw [List.sum_cons] at hd
    have hrest := ih (p := p + l) (by omega) fun k hk => by
      have hk' := hd (l + k) (by omega)
      rwa [← Nat.add_assoc] at hk'
    rw [Nat.add_assoc] at hrest
    obtain ⟨-, hs | hs⟩ := hi
    · exact .copy hs h1 h2 (fun k hk => hd k (by omega)) hrest
    · exact .copy hs h1 h2 (fun k hk => hd k (by omega)) hrest

/-- The literal's bytes stand in OUT. -/
theorem outHolds_literal {lit j : Nat} {header : List Byte} (hhead : outHolds t j header)
    (hlit : ∀ k < lit, outByte t (j + header.length + k) = text (p + k)) :
    outHolds t j (header ++ (List.range lit).map fun k => text (p + k)) :=
  hhead.append fun k hk => by simpa using hlit k (by simpa using hk)

/-- A tail, or a pending literal, goes on with the encoding. -/
theorem EncodedTo.literal {src lit : Nat} {header : List Byte} (h : EncodedTo text v src s) (ho : ownsOut s)
    (hw : LiteralWritten s src lit header t) (hl : lit ≤ 65536) (hin : ∀ k < lit, inByte s (src + k) = text (src + k)) :
    EncodedTo text v (src + lit) t := by
  obtain ⟨hheader, e, hhead, hlit⟩ := hw
  have hlen : (header ++ (List.range lit).map fun k => text (src + k)).length = header.length + lit := by simp
  exact h.extend (hlen ▸ e) ho (outHolds_literal hhead fun k hk => (hlit k hk).trans (hin k hk))
    (encodesText_literal hl hheader src)

/-- So do a pending literal and the copy after it. -/
theorem EncodedTo.matched {src lit offset mlen : Nat} {header copy : List Byte} (h : EncodedTo text v src s)
    (ho : ownsOut s) (hw : MatchWritten s src lit offset mlen header copy t) (hl : lit ≤ 65536)
    (hin : ∀ k < lit, inByte s (src + k) = text (src + k)) (h1 : 1 ≤ offset) (h2 : offset ≤ 65535)
    (h3 : offset ≤ src + lit) (hd : ∀ k < mlen, text (src + lit + k) = text (src + lit + k - offset)) :
    EncodedTo text v (src + lit + mlen) t := by
  obtain ⟨hheader, hcopy, e, hhead, hlit, hbytes⟩ := hw
  obtain ⟨bs, hbs, hcopies⟩ := emitCopyBytes_isCopies (length := mlen) h2
  rw [hcopy] at hbs
  cases hbs
  have hlen : (header ++ (List.range lit).map fun k => text (src + k)).length = header.length + lit := by simp
  refine h.extend (more := _ ++ copy) (by rw [List.length_append, hlen]; exact e) ho
    ((outHolds_literal hhead fun k hk => (hlit k hk).trans (hin k hk)).append ?_)
    ((encodesText_literal hl hheader src).append (hcopies.encodesText h1 h3 hd))
  rw [hlen, ← Nat.add_assoc]
  exact hbytes

/-! ### The passes of a running COMPRESS -/

/-- How far into the text the encoder has written at its loop's head. -/
def encodedLength (s : State) : Nat := if s.phase = .probe then s.enc.base.toNat + s.enc.nextEmit.toNat else s.enc.base.toNat

theorem encodedLength_of_fragment (hp : s.phase = .fragment) : encodedLength s = s.enc.base.toNat :=
  if_neg (by rw [hp]; exact nofun)

theorem encodedLength_of_probe (hp : s.phase = .probe) :
    encodedLength s = s.enc.base.toNat + s.enc.nextEmit.toNat := if_pos hp

/-- A pass of the probe loop goes on with the encoding (R181, R182, R184, R185). -/
theorem ProbeInv.probeStep_encodes (hi : ProbeInv s) (hp : s.phase = .probe) (hm : memWf s.mem) (hown : ownsOut s)
    (hapart : inApartOut s) (hin : ∀ i < inLenOf s, inByte s i = text i)
    (h : EncodedTo text v (s.enc.base.toNat + s.enc.nextEmit.toNat) s) :
    ∃ t, probeStep s = .next t ∧ EncodedTo text v (encodedLength t) t := by
  have hfrag := hi.fragment_le
  have hne := hi.nextEmit_le
  by_cases hg : probeGoes s = true
  · by_cases hok : matchOk (probe s) = true
    · obtain ⟨w, header, copy, hstep, hw⟩ := probeStep_of_match hi hm hown hapart hg hok
      obtain ⟨hc0, hoff, hload⟩ := matchOk_iff.mp hok
      obtain ⟨-, hle⟩ := matchLen_le (s := probe s) hg
      have hcand : (probe s).enc.candidate = htRead s.ht (hashOf s.enc.tableBits.toNat (probe s).enc.w) := rfl
      have hlt := hi.candidate_lt _ (hcand ▸ hc0)
      rw [← hcand] at hlt
      obtain ⟨hsame, -⟩ := matchLen_spec (s := probe s) hload.symm
      simp only [probe_fragPos, probe_inByte, probe_enc_ip, probe_enc_len] at hsame hle hoff
      have hmoved := hw.emitted.matchMoved hle
      have hpos : s.enc.base.toNat + s.enc.nextEmit.toNat + (s.enc.ip.toNat - s.enc.nextEmit.toNat) =
          s.enc.base.toNat + s.enc.ip.toNat := by omega
      have hto := (h.congr (t := probe s) rfl rfl rfl).matched (ownsOut_probe.mpr hown) hw (hi.pending_le hg)
        (fun k hk => by rw [probe_inByte]; exact hin _ (by omega)) (by omega) hoff (by omega) fun k hk => by
          rw [hpos, ← hin _ (by omega), ← hin _ (by omega), hsame k hk]
          congr 1
          omega
      refine ⟨_, hstep, ?_⟩
      have hlen : encodedLength (insertBehind (advance (matchLen (probe s)) w)) =
          s.enc.base.toNat + s.enc.nextEmit.toNat + (s.enc.ip.toNat - s.enc.nextEmit.toNat) + matchLen (probe s) := by
        rw [encodedLength_of_probe (by rw [hmoved.eq]; exact hp), hmoved.nextEmit, hmoved.keeps.2.1, hmoved.ip, hpos,
          Nat.add_assoc]
      rw [hlen]
      exact hto.congr (insertBehind_latch _) (insertBehind_mem _)
        (by rw [insertBehind_enc, advance_enc_op])
    · refine ⟨skipStep (probe s), by rw [probeStep, if_pos hg, if_neg hok], ?_⟩
      rw [encodedLength_of_probe (s := skipStep (probe s)) hp, skipStep_enc_base, probe_enc_base, skipStep_enc_nextEmit,
        probe_enc_nextEmit]
      exact h.congr (probe_latch s) (probe_mem s) (probe_enc_op s)
  · obtain ⟨w, header, hstep, hw⟩ := hi.probeStep_of_tail hm hown hapart (Bool.eq_false_iff.mpr hg)
    have htail : s.enc.base.toNat + s.enc.nextEmit.toNat + (s.enc.len.toNat - s.enc.nextEmit.toNat) =
        (endFragment w).enc.base.toNat := by
      rw [(hi.ends (hw.length_le hi.tail_le) hw.emitted.wrote).1]
      obtain ⟨-, -, -, -, -, -, hnl, -⟩ := hi
      omega
    refine ⟨endFragment w, hstep, ?_⟩
    rw [encodedLength_of_fragment (endFragment_phase w), ← htail]
    exact (h.literal hown hw hi.tail_le fun k hk => hin _ (by omega)).congr rfl rfl rfl

/-- COMPRESS at the head of one of its loops, with the text in IN and its first bytes encoded in OUT, and only the core's
turns to come. -/
structure Encoding (text : Nat → Byte) (v : List Byte) (l : Latch) (s : State) : Prop where
  inv : MachineInv s
  host : s.host = []
  busy : busy s = true
  phase : s.phase = .fragment ∨ s.phase = .probe
  latch : s.latch = l
  input : ∀ i < inLenOf s, inByte s i = text i
  encoded : EncodedTo text v (encodedLength s) s

/-- What is left to do: the fragments to come, and the probes of this one (R190). -/
def workLeft (s : State) : Nat :=
  (s.enc.n.toNat - s.enc.base.toNat) * 2 ^ 18 + if s.phase = .fragment then 2 ^ 18 - 1 else 2 ^ 17 - s.enc.ip.toNat

theorem workLeft_of_fragment (hp : s.phase = .fragment) :
    workLeft s = (s.enc.n.toNat - s.enc.base.toNat) * 2 ^ 18 + (2 ^ 18 - 1) := by
  rw [workLeft, if_pos hp]

theorem workLeft_of_probe (hp : s.phase = .probe) :
    workLeft s = (s.enc.n.toNat - s.enc.base.toNat) * 2 ^ 18 + (2 ^ 17 - s.enc.ip.toNat) := by
  rw [workLeft, if_neg (by rw [hp]; exact nofun)]

/-- A step that leaves COMPRESS running and goes on with the encoding. -/
theorem Encoding.next {l : Latch} (h : Encoding text v l s) (hs : step s = .next t) (hb : Machine.busy t = true)
    (hp : t.phase = .fragment ∨ t.phase = .probe) (he : EncodedTo text v (encodedLength t) t) : Encoding text v l t := by
  have hmove := coreOutcome_next ((step_of_coreTurn h.host).symm.trans hs)
  have hlatch := hmove.latch
  have hhost : t.host = s.host := by
    obtain hc | ⟨hgo, -⟩ := hmove.completed_or_goesOn
    · exact absurd (hc.not_busy.symm.trans hb) nofun
    · rw [hgo.eq]
  obtain ⟨-, hin, -⟩ := coreWritesOnlyOut s t h.inv h.host hs
  refine ⟨h.inv.step hs, hhost.trans h.host, hb, hp, hlatch.trans h.latch, fun i hi => ?_, he⟩
  rw [(region_congr hlatch).1] at hi
  exact (hin i hi h.busy).trans (h.input i hi)

/-- The input's length is n (R172). -/
theorem Encoding.compressInv {l : Latch} (h : Encoding text v l s) : CompressInv s := by
  obtain ⟨-, -, -, -, henc⟩ := h.inv
  obtain hp | hp := h.phase
  · exact ((henc h.busy).1 hp).1
  · exact ((henc h.busy).2 hp).1

/-- A running COMPRESS stands at its end, or takes a step towards it (R190). -/
theorem Encoding.step_or_ends {l : Latch} (h : Encoding text v l s) :
    (s.phase = .fragment ∧ s.enc.n.toNat ≤ s.enc.base.toNat) ∨
      ∃ t, step s = .next t ∧ Encoding text v l t ∧ workLeft t < workLeft s := by
  have hmem := h.inv.1
  have henc := h.inv.2.2.2.2
  have hn (t : State) (ht : Encoding text v l t) : t.enc.n = s.enc.n := by
    rw [ht.compressInv.2.1, h.compressInv.2.1, ht.latch, h.latch]
  obtain hp | hp := h.phase
  · by_cases hend : s.enc.n.toNat ≤ s.enc.base.toNat
    · exact .inl ⟨hp, hend⟩
    · obtain ⟨t, hs, ht⟩ := fragmentStarts s h.busy hp h.host (Nat.not_le.mp hend)
      have hbusy : Machine.busy t = true := by rw [ht]; exact h.busy
      have hphase : t.phase = .probe := by rw [ht]
      have hlen : encodedLength t = encodedLength s := by
        rw [encodedLength_of_probe hphase, encodedLength_of_fragment hp, ht]
        rfl
      refine .inr ⟨t, hs, h.next hs hbusy (.inr hphase) ?_, ?_⟩
      · rw [hlen]
        exact h.encoded.congr (by rw [ht]) (by rw [ht]) (by rw [ht])
      · rw [workLeft_of_probe hphase, workLeft_of_fragment hp, ht]
        dsimp only
        omega
  · have hi := (henc h.busy).2 hp
    obtain ⟨hown, hapart⟩ := h.inv.compress_regions h.busy hi.1.1
    have hto := h.encoded
    rw [encodedLength_of_probe hp] at hto
    obtain ⟨t, hpass, he⟩ := hi.probeStep_encodes hp hmem.1 hown hapart h.input hto
    have hs := (step_of_probe h.host h.busy hp).trans hpass
    obtain ⟨hbusy, hmore⟩ := encoderAdvances s t hmem henc h.busy hp h.host hs
    have hphase : t.phase = .fragment ∨ t.phase = .probe := hmore.symm.imp And.left And.left
    have ht := h.next hs hbusy hphase he
    refine .inr ⟨t, hs, ht, ?_⟩
    have hip := s.enc.ip.isLt
    rw [workLeft_of_probe hp]
    obtain ⟨hp', hbase, hlt⟩ | ⟨hp', hlt, hle⟩ := hmore
    · rw [workLeft_of_probe hp', hn t ht, hbase]
      omega
    · rw [workLeft_of_fragment hp', hn t ht]
      omega

/-- A running COMPRESS comes to its end with the whole input encoded, and completes with the count of bytes written
(R173, R188). -/
theorem Encoding.completes {l : Latch} (h : Encoding text v l s) :
    ∃ t ops, Reaches s t ∧ t.status = 0x02#64 ∧ t.result.toNat = (v ++ ops).length ∧
      t.result.toNat ≤ l.outLen.toNat ∧ EncodesText text ops 0 l.inLen.toNat ∧
      ∀ k (hk : k < (v ++ ops).length), memRead t.mem (l.outBase + BitVec.ofNat 64 k) = (v ++ ops)[k] := by
  obtain ⟨u, hreach, hu, hp, hend⟩ := reaches_of_decreasing workLeft (fun s => Encoding.step_or_ends) h
  have hs := compressCompletes u hu.busy hp hu.host hend
  have henc := hu.inv.2.2.2.2
  obtain ⟨hc, hle, -⟩ := (henc hu.busy).1 hp
  obtain ⟨-, hbound⟩ := compressedSizeBound u _ henc hu.busy hp hu.host hs (busy_complete u .none 0#1 u.enc.op)
  have hbase : u.enc.base.toNat = l.inLen.toNat := by
    rw [hc.2.1] at hend
    rw [← hu.latch]
    exact hle.antisymm hend
  obtain ⟨ops, hops, hout, hop⟩ := hu.encoded
  rw [encodedLength_of_fragment hp, hbase] at hops
  refine ⟨_, ops, hreach.trans (.next hs (.here _)), rfl, hop, ?_, hops, fun k hk => ?_⟩
  · rw [← hu.latch]
    exact hbound
  · rw [← hu.latch, ← hout k hk, Nat.zero_add]
    rfl

end

/-- A COMPRESS that may start was given an IN none of whose bytes is one of OUT's (R64). -/
theorem inOutReady_apart {s : State} (h : inOutReady s) : ∀ i < s.inLen.toNat, ∀ j < s.outLen.toNat,
    mapAddr s.mem.map (s.inBase + BitVec.ofNat 64 i) ≠ mapAddr s.mem.map (s.outBase + BitVec.ofNat 64 j) := by
  obtain ⟨⟨hfi, hmi⟩, hfo, hmo, hd⟩ := h
  obtain ⟨-, hapart, -⟩ := (regionsApart_iff hfi hfo hmi hmo).mp hd
  exact hapart

/-- COMPRESS of any input that its checks let pass completes, with the varint of the input's length and then operations that
encode the input (R173, R188). -/
theorem compress_encodes {level : BitVec 2} {s : State} (hb : busy s = false) (hh : s.host = []) (hc : CanonicalInv s)
    (hr : inOutReady s) (hi : s.inLen.toNat ≤ 2 ^ 32 - 1)
    (ho : 32 + s.inLen.toNat + s.inLen.toNat / 6 ≤ s.outLen.toNat) :
    ∃ c t stream ops, exec (.cmdCompress level) s = .next c ∧ Reaches c t ∧ t.status = 0x02#64 ∧
      t.result.toNat ≤ s.outLen.toNat ∧ t.result.toNat = stream.length ∧
      stream = varintBytes (s.inLen.setWidth 32) ++ ops ∧
      EncodesText (fun i => memRead s.mem (s.inBase + BitVec.ofNat 64 i)) ops 0 s.inLen.toNat ∧
      ∀ k (hk : k < stream.length), memRead t.mem (s.outBase + BitVec.ofNat 64 k) = stream[k] := by
  obtain ⟨c, hexec, hceq, hout, -, hframe⟩ := compressStarts level s hb hc.1 hr hi ho
  have hkeeps := command_keepsCanonical rfl hexec
  have hphase : c.phase = .fragment := by rw [hceq]
  have hlatch : c.latch = Latch.mk 2#3 level s.inBase s.inLen s.outBase s.outLen := by rw [hceq]
  have hvarint : (varintBytes (s.inLen.setWidth 32)).length ≤ 5 := varintBytesFuel_length 5 _
  have hc : Encoding (fun i => memRead s.mem (s.inBase + BitVec.ofNat 64 i))
      (varintBytes (s.inLen.setWidth 32)) c.latch c := by
    refine ⟨(exec_commandMove rfl hb hexec).machineInv ⟨hkeeps.mem hc.1, hkeeps.ht hc.2⟩, by rw [hceq]; exact hh,
      (busy_congr (by rw [hceq]; rfl)).trans (busy_beginCommand s opCompress level), .inl hphase, rfl, fun i hi => ?_, ?_⟩
    · rw [inByte, inAddr, hlatch]
      rw [inLenOf, hlatch] at hi
      exact hframe _ fun k hk => inOutReady_apart hr i hi k (by omega)
    · rw [encodedLength_of_fragment hphase, hceq]
      refine ⟨[], .nil 0, fun k hk => ?_, ?_⟩
      · rw [← hceq, Nat.zero_add, hout k (by simpa using hk)]
        simp
      · rw [List.append_nil, BitVec.toNat_ofNat]
        exact Nat.mod_eq_of_lt (by omega)
  obtain ⟨t, ops, hreach, hstatus, hresult, hle, hops, hbytes⟩ := hc.completes
  rw [hlatch] at hle hops hbytes
  exact ⟨c, t, _, ops, hexec, hreach, hstatus, hle, hresult, rfl, hops, hbytes⟩

end Sys2Proof.Machine

/-! PROOF. The varint unit's run: it ends with what VARINT_DECODE of the stream answers (R122, R126). -/

namespace Sys2Proof.Machine

section

variable {s t : State} {N m : Nat}

/-- IN holds these bytes from IN[i], and ends with them. -/
structure EndsWith (s : State) (i : Nat) (bs : List Byte) : Prop where
  length : i + bs.length = inLenOf s
  bytes : ∀ k (h : k < bs.length), inByte s (i + k) = bs[k]

/-- VARINT_DECODE of a stream reads the varint it starts with (R126). -/
theorem varintDecode_window {v : BitVec 32} {ops : List Byte} (h : EndsWith s 0 (varintBytes v ++ ops)) :
    varintDecode (varintWindow s) = some (v.toNat, (varintBytes v).length) := by
  have hlen : (varintBytes v).length ≤ 5 := varintBytesFuel_length 5 _
  have hwindow : varintWindow s = (varintBytes v ++ ops).take 5 := by
    have hl := h.length
    refine List.ext_getElem (by simp [varintWindow]; simp at hl; omega) fun k hk hk' => ?_
    have hb := h.bytes k (by simp at hk' ⊢; omega)
    rw [Nat.zero_add] at hb
    simp only [varintWindow, List.getElem_map, List.getElem_range, List.getElem_take, hb]
  rw [hwindow, List.take_append, List.take_of_length_le hlen]
  exact (varintRoundTrip v _).1

/-- The varint unit goes from byte to byte. -/
theorem CoreMove.varint_count (h : CoreMove s t) (hb : busy s = true) (hp : s.phase = .varint) (ht : t.phase = .varint) :
    t.varint.count = s.varint.count + 1 := by
  cases h with
  | stays hs => simp [hb, hp] at hs
  | ends | compressEnds => cases ht
  | varintMore => rfl
  | varintLast => cases ht
  | decoded _ hp' | shadowed _ hp' | fragmentStarts _ hp' | matched _ hp' | skipped _ hp' | tail _ hp' =>
    exact absurd (hp.symm.trans hp') nofun

/-- The varint unit of a command that started in `s` is on its way to the answer `N` in `m` bytes. -/
structure Parsing (s : State) (N m : Nat) (u : State) : Prop where
  eq : u = setVarint s u.varint
  inv : VarintInv u
  pending : pendingVarint u = some (N, m)

/-- The varint unit ends with the answer, or goes on to the next byte. -/
theorem Parsing.step_or_ends {u : State} (hh : s.host = []) (hb : busy s = true) (hp : s.phase = .varint)
    (h : Parsing s N m u) :
    (∃ v, step u = varintOk (setVarint s v) ∧ (v.acc.setWidth 32).toNat = N ∧ v.count.toNat = m) ∨
      ∃ t, step u = .next t ∧ Parsing s N m t ∧ 5 - t.varint.count.toNat < 5 - u.varint.count.toNat := by
  obtain ⟨heq, hi, hpend⟩ := h
  have hub : busy u = true := by rw [heq]; exact hb
  have hup : u.phase = .varint := by rw [heq]; exact hp
  have huh : u.host = [] := by rw [heq]; exact hh
  have hset (v : VarintRegs) : setVarint u v = setVarint s v := by rw [heq]; rfl
  have hturn := hi.turn hub hup
  rw [step_of_coreTurn huh]
  generalize hr : coreOutcome u = r at hturn
  cases hturn with
  | fails v hn => rw [hn] at hpend; cases hpend
  | goesOn v hg =>
    have hmove := coreOutcome_next hr
    have hcount := hmove.varint_count hub hup hup
    rw [setVarint_varint] at hcount
    obtain ⟨hi', -⟩ := hmove.streamInv (fun _ => ⟨fun _ => hi, fun ho => absurd (hup.symm.trans ho) nofun⟩) hub
    refine .inr ⟨_, rfl, ⟨hset v, hi' hup, hg.trans hpend⟩, ?_⟩
    have hc := hi.2.1
    rw [setVarint_varint, hcount, count_succ_toNat hc]
    omega
  | ends v hv =>
    rw [hv] at hpend
    cases hpend
    exact .inl ⟨v, by rw [hset], rfl, rfl⟩

/-- From the varint's start a run leads to its end, with VARINT_DECODE's answer (R122). -/
theorem varint_ends (hh : s.host = []) (hb : busy s = true) (hp : s.phase = .varint) (hi : VarintInv s)
    (h : pendingVarint s = some (N, m)) :
    ∃ u v, Reaches s u ∧ step u = varintOk (setVarint s v) ∧ (v.acc.setWidth 32).toNat = N ∧ v.count.toNat = m := by
  obtain ⟨u, hreach, -, v, hv⟩ := reaches_of_decreasing (P := Parsing s N m)
    (fun u => 5 - u.varint.count.toNat) (fun u hu => hu.step_or_ends hh hb hp) (s := s) ⟨rfl, hi, h⟩
  exact ⟨u, v, hreach, hv⟩

end

end Sys2Proof.Machine

/-! PROOF. A stream of operations that encodes a text is read to its end by VALIDATE and by DECOMPRESS, which restores the
text (R220, R225, R231, R260, R262, R268). -/

namespace Sys2Proof.Machine

section

variable {s t : State} {m len offset : Nat}

/-! ### An operation that goes on -/

/-- What an operation that goes on leaves of the cursors: L as it was, ip past `k` bytes of IN, and op past `len` of OUT. -/
structure Advanced (s : State) (k len : Nat) (d : DecRegs) : Prop where
  keepsL : d.L = s.dec.L
  ip : d.ip.toNat = s.dec.ip.toNat + k
  op : d.op.toNat = s.dec.op.toNat + len

/-- op past an operation that fits L. -/
theorem op_toNat_of_fits (h1 : 1 ≤ len) (hf : len ≤ outputLeft s) :
    (s.dec.op + BitVec.ofNat 64 len).toNat = s.dec.op.toNat + len := afterOp_toNat s.dec.L.isLt h1 hf

/-- The operand bytes have no part in the length check. -/
theorem fitsOutput_operandTaken (hf : len ≤ outputLeft s) : fitsOutput (operandTaken s m) len = true :=
  fitsOutput_iff.mpr hf

/-- Nor in the offset check. -/
theorem offsetOk_operandTaken (h1 : 1 ≤ offset) (h2 : offset ≤ s.dec.op.toNat) :
    offsetOk (operandTaken s m) offset = true :=
  Bool.and_eq_true_iff.mpr ⟨decide_eq_true h1, decide_eq_true h2⟩

/-- A literal whose bytes are in IN, and fit L, goes on under VALIDATE (R262). -/
theorem literalOp_validate (hr : opsRunning s = true) (ho : s.latch.opcode = opValidate) (h1 : 1 ≤ len)
    (ha : m + len ≤ inputLeft s) (hf : len ≤ outputLeft s) :
    literalOp m len s = .next (setDec s (skipLiteral (operandTaken s m).dec len)) := by
  have hm : m ≤ inputLeft s := by omega
  rw [literalOp, withStream_validate hr ho, shadowOperand, if_pos (available_iff.mpr hm), shadowLiteralBody,
    if_pos ((available_operandTaken hm h1).mpr ha), if_pos (fitsOutput_operandTaken hf)]
  rfl

/-- And under DECOMPRESS, where OUT holds L (R225). -/
theorem literalOp_decompress (hr : opsRunning s = true) (ho : s.latch.opcode = opDecompress)
    (hop : s.dec.op.toNat ≤ s.dec.L.toNat) (hL : s.dec.L.toNat ≤ outLenOf s) (h1 : 1 ≤ len)
    (ha : m + len ≤ inputLeft s) (hf : len ≤ outputLeft s) :
    literalOp m len s =
      .next (setDec (setMem s (literalMoved (operandTaken s m) len)) (afterLiteral (operandTaken s m).dec len)) := by
  have hm : m ≤ inputLeft s := by omega
  have hfits := fitsOutput_operandTaken (m := m) hf
  rw [literalOp, withStream_decompress hr ho, decoderOperand, if_pos (available_iff.mpr hm), literalBody,
    if_pos ((available_operandTaken hm h1).mpr ha), if_pos hfits,
    if_pos (opRoom_of_fitsOutput (s := operandTaken s m) hop hL hfits)]
  rfl

/-- A copy whose offset bytes are in IN, whose offset is 1 … op, and that fits L, goes on under VALIDATE (R268). -/
theorem copyOp_validate (hr : opsRunning s = true) (ho : s.latch.opcode = opValidate) (ha : m ≤ inputLeft s)
    (h1 : 1 ≤ offset) (h2 : offset ≤ s.dec.op.toNat) (hf : len ≤ outputLeft s) :
    copyOp m offset len s = .next (setDec s (skipCopy (operandTaken s m).dec offset len)) := by
  rw [copyOp, withStream_validate hr ho, shadowOperand, if_pos (available_iff.mpr ha), shadowCopyBody,
    if_pos (offsetOk_operandTaken h1 h2), if_pos (fitsOutput_operandTaken hf)]
  rfl

/-- And under DECOMPRESS, where OUT holds L (R231). -/
theorem copyOp_decompress (hr : opsRunning s = true) (ho : s.latch.opcode = opDecompress)
    (hop : s.dec.op.toNat ≤ s.dec.L.toNat) (hL : s.dec.L.toNat ≤ outLenOf s) (ha : m ≤ inputLeft s)
    (h1 : 1 ≤ offset) (h2 : offset ≤ s.dec.op.toNat) (hf : len ≤ outputLeft s) :
    copyOp m offset len s =
      .next (setDec (setMem s (copyMoved s offset len)) (afterCopy (operandTaken s m).dec offset len)) := by
  have hfits := fitsOutput_operandTaken (m := m) hf
  rw [copyOp, withStream_decompress hr ho, decoderOperand, if_pos (available_iff.mpr ha), copyBody,
    if_pos (offsetOk_operandTaken h1 h2), if_pos hfits, if_pos (opRoom_of_fitsOutput (s := operandTaken s m) hop hL hfits)]
  rfl

/-- The cursors past a literal, its tag taken (R223, R225, R262). -/
theorem literal_advanced (hip : s.dec.ip.toNat < inLenOf s) (h1 : 1 ≤ len) (ha : m + len ≤ inputLeft (consumeTag s))
    (hf : len ≤ outputLeft s) :
    Advanced s (1 + m + len) len (skipLiteral (operandTaken (consumeTag s) m).dec len) := by
  have htag := consumeTag_ip_toNat hip
  have hoperand := operandTaken_ip_toNat (s := consumeTag s) (m := m) (by omega)
  have hlt : inLenOf s < 2 ^ 64 := s.latch.inLen.isLt
  have hleft : inputLeft (consumeTag s) = inLenOf s - (s.dec.ip.toNat + 1) := by rw [inputLeft, htag]; rfl
  refine ⟨rfl, ?_, op_toNat_of_fits h1 hf⟩
  show ((operandTaken (consumeTag s) m).dec.ip + BitVec.ofNat 64 len).toNat = _
  rw [BitVec.toNat_add, BitVec.toNat_ofNat]
  omega

/-- The cursors past a copy, its tag taken (R223, R231, R268). -/
theorem copy_advanced (hip : s.dec.ip.toNat < inLenOf s) (h1 : 1 ≤ len) (ha : m ≤ inputLeft (consumeTag s))
    (hf : len ≤ outputLeft s) :
    Advanced s (1 + m) len (skipCopy (operandTaken (consumeTag s) m).dec offset len) := by
  have htag := consumeTag_ip_toNat hip
  refine ⟨rfl, ?_, op_toNat_of_fits h1 hf⟩
  show (operandTaken (consumeTag s) m).dec.ip.toNat = _
  rw [operandTaken_ip_toNat ha, htag, Nat.add_assoc]

/-! ### The state between two operations -/

variable {text : Nat → Byte} {N p : Nat} {a b : List Byte} {d : DecRegs} {mem : Memory}

/-- IN's last bytes after an operation that leaves IN. -/
theorem EndsWith.drop {i : Nat} (h : EndsWith s i (a ++ b)) (hl : t.latch = s.latch)
    (hin : ∀ i < inLenOf s, inByte t i = inByte s i) : EndsWith t (i + a.length) b := by
  have hlen := h.length
  rw [List.length_append] at hlen
  refine ⟨?_, fun k hk => ?_⟩
  · rw [(region_congr hl).1, ← hlen, Nat.add_assoc]
  · have hb := h.bytes (a.length + k) (by rw [List.length_append]; omega)
    rw [hin _ (by omega), Nat.add_assoc, hb, List.getElem_append_right (Nat.le_add_right _ _)]
    congr 1
    omega

/-- DECOMPRESS has restored the text's first `p` bytes of `N`, for all of which OUT has room, apart from IN (R64, R222). -/
structure Restoring (text : Nat → Byte) (N p : Nat) (s : State) : Prop where
  opcode : s.latch.opcode = opDecompress
  room : N ≤ outLenOf s
  wf : memWf s.mem = true
  own : ownsOut s
  apart : inApartOut s
  restored : ∀ j < p, outByte s j = text j

/-- VALIDATE or DECOMPRESS stands in its operation loop, with these bytes left to read, `p` bytes of `N` produced, and only
the core's turns to come. -/
structure Reading (text : Nat → Byte) (N : Nat) (bs : List Byte) (p : Nat) (s : State) : Prop where
  running : opsRunning s = true
  host : s.host = []
  L : s.dec.L.toNat = N
  op : s.dec.op.toNat = p
  rest : EndsWith s s.dec.ip.toNat bs
  command : s.latch.opcode = opValidate ∨ Restoring text N p s

/-- The operation that the bytes left start with is the next to run (R220, R260). -/
theorem Reading.step_eq {i : Instr} (h : Reading text N (encode i ++ b) p s) (hw : wellFormed i = true)
    (hc : contextOf i = .stream) (he : ∃ tag es, encode i = tag :: es ∧ es.length = operandCount tag) :
    s.dec.ip.toNat < inLenOf s ∧ step s = exec i (consumeTag s) := by
  obtain ⟨tag, es, he, hcount⟩ := he
  obtain ⟨hlen, hbytes⟩ := h.rest
  simp only [he, List.cons_append, List.length_cons, List.length_append] at hlen hbytes
  have hip : s.dec.ip.toNat < inLenOf s := by omega
  have htag : inByte s s.dec.ip.toNat = tag := hbytes 0 (by omega)
  have hfetch : fetchBytes s = encode i := by
    rw [fetchBytes, htag, he]
    refine congrArg _ (List.ext_getElem (by simp [hcount]) fun k hk hk' => ?_)
    have hk1 := hbytes (k + 1) (by omega)
    rw [List.getElem_cons_succ, List.getElem_append_left hk'] at hk1
    rw [List.getElem_map, List.getElem_range, streamByte, if_pos (by omega), ← hk1]
    congr 1
    omega
  have hdec : decode .stream (fetchBytes s) = .ok (i, []) := by
    rw [hfetch, ← List.append_nil (encode i)]
    exact decode_encode_of_stream [] hc hw
  exact ⟨hip, (step_of_coreTurn h.host).trans (coreOutcome_of_ops h.running hip hdec)⟩

/-- VALIDATE after an operation. -/
theorem Reading.validated (h : Reading text N (a ++ b) p s) (ho : s.latch.opcode = opValidate)
    (hd : Advanced s a.length len d) : Reading text N b (p + len) (setDec s d) := by
  refine ⟨h.running, h.host, ?_, ?_, ?_, .inl ho⟩
  · rw [setDec_dec, hd.keepsL, h.L]
  · rw [setDec_dec, hd.op, h.op]
  · rw [setDec_dec, hd.ip]
    exact h.rest.drop rfl fun _ _ => rfl

/-- DECOMPRESS after an operation that wrote the text's next bytes. -/
theorem Reading.restored (h : Reading text N (a ++ b) p s) (hr : Restoring text N p s) (hd : Advanced s a.length len d)
    (hm : OpMemory s len mem) (hout : ∀ k < len, memRead mem (outAddr s (p + k)) = text (p + k)) :
    Reading text N b (p + len) (setDec (setMem s mem) d) := by
  obtain ⟨ho, hroom, hwf, hown, hapart, htext⟩ := hr
  have hwrite : outOnly s (setDec (setMem s mem) d) s.dec.op.toNat len := ⟨hm.map, hm.outside⟩
  have hoproom := hm.room
  rw [h.op] at hoproom hwrite
  refine ⟨h.running, h.host, ?_, ?_, ?_, .inr ⟨ho, hroom, hm.wf hwf, ?_, ?_, fun j hj => ?_⟩⟩
  · rw [setDec_dec, hd.keepsL, h.L]
  · rw [setDec_dec, hd.op, h.op]
  · rw [setDec_dec, hd.ip]
    exact h.rest.drop rfl fun i hi => memRead_of_outOnly hwrite hoproom (hapart i hi)
  · rw [ownsOut, setDec_mem, setMem_mem, hm.map]
    exact hown
  · rw [inApartOut, setDec_mem, setMem_mem, hm.map]
    exact hapart
  · by_cases hjp : j < p
    · rw [← htext j hjp]
      exact hwrite.2 _ fun k hk => hown.ne (by omega) (by omega) (by omega)
    · obtain ⟨k, rfl⟩ := Nat.exists_eq_add_of_le (Nat.not_lt.mp hjp)
      exact hout k (by omega)

/-! ### The bytes an operation writes -/

/-- Two addresses of IN a distance apart. -/
theorem inAddr_add (s : State) (i k : Nat) : inAddr s (i + k) = inAddr s i + BitVec.ofNat 64 k := by
  rw [inAddr, inAddr, BitVec.ofNat_add, BitVec.add_assoc]

/-- A move from IN to OUT (R225). -/
theorem Restoring.memRead_move {i : Nat} (h : Restoring text N p s) (hi : i + len ≤ inLenOf s)
    (hr : p + len ≤ outLenOf s) {k : Nat} (hk : k < len) :
    memRead (copyBytes len (inAddr s i) (outAddr s p) s.mem) (outAddr s (p + k)) = inByte s (i + k) := by
  rw [outAddr_add, inByte, inAddr_add]
  refine memRead_copyBytes_disjoint len _ _ h.wf (h.own.part hr) (fun j hj l hl => ?_) hk
  have hapart := h.apart (i + j) (by omega) (p + l) (by omega)
  rwa [inAddr_add, outAddr_add] at hapart

/-- A move within OUT, of bytes that the text repeats, restores the text (R231). -/
theorem Restoring.memRead_repeat (h : Restoring text N p s) (h1 : 1 ≤ offset) (h2 : offset ≤ p)
    (hr : p + len ≤ outLenOf s) (hd : ∀ k < len, text (p + k) = text (p + k - offset)) {j : Nat} (hj : j < p + len) :
    memRead (copyBytes len (outAddr s (p - offset)) (outAddr s p) s.mem) (outAddr s j) = text j := by
  induction j using Nat.strong_induction_on with
  | _ j ih =>
    by_cases hjp : j < p
    · rw [← h.restored j hjp]
      refine memRead_copyBytes_of_ne _ _ _ _ _ fun k hk => ?_
      rw [← outAddr_add]
      exact h.own.ne (by omega) (by omega) (by omega)
    · obtain ⟨k, rfl⟩ := Nat.exists_eq_add_of_le (Nat.not_lt.mp hjp)
      have hsrc (k : Nat) : outAddr s (p - offset) + BitVec.ofNat 64 k = outAddr s (p - offset + k) :=
        (outAddr_add s _ k).symm
      have hpos : p - offset + offset = p := Nat.sub_add_cancel h2
      have hmove := memRead_copyBytes_overlap len offset (outAddr s (p - offset)) h.wf h1
        (h.own.part (j := p - offset) (by omega)) (k := k) (by omega)
      rw [hsrc, hsrc, hsrc, ← Nat.add_assoc, hpos] at hmove
      rw [hmove, hd k (by omega), ← ih (p + k - offset) (by omega) (by omega)]
      congr 2
      omega

/-! ### One operation -/

/-- A literal with its data is read (R225, R262). -/
theorem Reading.literal {i : Instr} {data : List Byte} (h : Reading text N (encode i ++ data ++ b) p s)
    (hw : wellFormed i = true) (hs : literalShape i = some (m, len)) (hl : data.length = len)
    (hd : ∀ k (hk : k < data.length), data[k] = text (p + k)) (hN : p + len ≤ N) :
    ∃ t, step s = .next t ∧ Reading text N b (p + len) t := by
  obtain ⟨tag, es, he, hcount, hm, hc⟩ := encode_of_literalShape hw hs
  obtain ⟨h1, hexec⟩ := exec_of_literalShape hs (consumeTag s)
  obtain ⟨hip, hstep⟩ := Reading.step_eq (b := data ++ b) (by rwa [← List.append_assoc]) hw hc
    ⟨tag, es, he, hcount⟩
  have hlen : (encode i ++ data).length = 1 + m + len := by
    rw [List.length_append, he, List.length_cons, hm, hl, Nat.add_comm m 1]
  have hleft : m + len ≤ inputLeft (consumeTag s) := by
    have hin := h.rest.length
    rw [List.length_append, hlen] at hin
    rw [inputLeft, consumeTag_ip_toNat hip, (region_congr (consumeTag_latch s)).1]
    omega
  have hL := h.L
  have hop := h.op
  have hfits : len ≤ outputLeft s := by rw [outputLeft]; omega
  have hadv := literal_advanced hip h1 hleft hfits
  rw [← hlen] at hadv
  rw [hexec] at hstep
  obtain ho | hr := h.command
  · exact ⟨_, hstep.trans (literalOp_validate h.running ho h1 hleft hfits), h.validated ho hadv⟩
  · have hroom := hr.room
    have hopL : s.dec.op.toNat ≤ s.dec.L.toNat := by omega
    have hLout : s.dec.L.toNat ≤ outLenOf s := by omega
    refine ⟨_, hstep.trans (literalOp_decompress h.running hr.opcode hopL hLout h1 hleft hfits),
      h.restored hr ⟨hadv.keepsL, hadv.ip, hadv.op⟩ (copyBytes_opMemory _ (by omega)) fun k hk => ?_⟩
    have hrest : EndsWith s (s.dec.ip.toNat + (encode i).length) (data ++ b) :=
      EndsWith.drop (by rw [← List.append_assoc]; exact h.rest) rfl fun _ _ => rfl
    have hdata := hrest.bytes k (by rw [List.length_append]; omega)
    rw [List.getElem_append_left (by omega), hd k (by omega)] at hdata
    have htaken : (operandTaken (consumeTag s) m).dec.ip.toNat = s.dec.ip.toNat + (encode i).length := by
      rw [operandTaken_ip_toNat (by omega), consumeTag_ip_toNat hip, he, List.length_cons, hm, Nat.add_assoc,
        Nat.add_comm 1]
    have hend := hrest.length
    rw [List.length_append] at hend
    show memRead (copyBytes len (inAddr s (operandTaken (consumeTag s) m).dec.ip.toNat) (outAddr s s.dec.op.toNat) s.mem)
      (outAddr s (p + k)) = text (p + k)
    rw [htaken, hop, hr.memRead_move (by omega) (by omega) hk, hdata]

/-- A copy is read (R231, R268). -/
theorem Reading.copy {i : Instr} (h : Reading text N (encode i ++ b) p s) (hs : copyShape i = some (m, offset, len))
    (h1 : 1 ≤ offset) (h2 : offset ≤ p) (hd : ∀ k < len, text (p + k) = text (p + k - offset)) (hN : p + len ≤ N) :
    ∃ t, step s = .next t ∧ Reading text N b (p + len) t := by
  obtain ⟨hw, tag, es, he, hcount, hm, hc⟩ := encode_of_copyShape hs
  obtain ⟨hpos, hexec⟩ := exec_of_copyShape hs (consumeTag s)
  obtain ⟨hip, hstep⟩ := h.step_eq hw hc ⟨tag, es, he, hcount⟩
  have hlen : (encode i).length = 1 + m := by rw [he, List.length_cons, hm, Nat.add_comm]
  have hleft : m ≤ inputLeft (consumeTag s) := by
    have hin := h.rest.length
    rw [List.length_append, hlen] at hin
    rw [inputLeft, consumeTag_ip_toNat hip, (region_congr (consumeTag_latch s)).1]
    omega
  have hL := h.L
  have hop := h.op
  have hfits : len ≤ outputLeft s := by rw [outputLeft]; omega
  have hadv := copy_advanced (offset := offset) hip hpos hleft hfits
  have hback : offset ≤ s.dec.op.toNat := h2.trans hop.ge
  rw [← hlen] at hadv
  rw [hexec] at hstep
  obtain ho | hr := h.command
  · exact ⟨_, hstep.trans (copyOp_validate h.running ho hleft h1 hback hfits), h.validated ho hadv⟩
  · have hroom := hr.room
    have hopL : s.dec.op.toNat ≤ s.dec.L.toNat := by omega
    have hLout : s.dec.L.toNat ≤ outLenOf s := by omega
    refine ⟨_, hstep.trans (copyOp_decompress h.running hr.opcode hopL hLout hleft h1 hback hfits),
      h.restored hr ⟨hadv.keepsL, hadv.ip, hadv.op⟩ (copyBytes_opMemory _ (by omega)) fun k hk => ?_⟩
    show memRead (copyBytes len (outAddr s (s.dec.op.toNat - offset)) (outAddr s s.dec.op.toNat) s.mem)
      (outAddr s (p + k)) = text (p + k)
    rw [hop]
    exact hr.memRead_repeat h1 h2 (by omega) hd (Nat.add_lt_add_left hk p)

/-! ### The whole stream -/

/-- A stream that encodes the text is read to its end, by the command that reads it. -/
theorem EncodesText.read {bs : List Byte} {q : Nat} (h : EncodesText text bs p q) (hN : q ≤ N)
    (hs : Reading text N bs p s) : ∃ t, Reaches s t ∧ t.latch = s.latch ∧ Reading text N [] q t := by
  have keeps {s u : State} (hh : s.host = []) (h : step s = .next u) : u.latch = s.latch :=
    (coreOutcome_next ((step_of_coreTurn hh).symm.trans h)).latch
  induction h generalizing s with
  | nil p => exact ⟨s, .here s, rfl, hs⟩
  | literal hw hshape hl hd hrest ih =>
    obtain ⟨u, hstep, hu⟩ := hs.literal hw hshape hl hd (hrest.le.trans hN)
    obtain ⟨t, hreach, hlatch, ht⟩ := ih hN hu
    exact ⟨t, .next hstep hreach, hlatch.trans (keeps hs.host hstep), ht⟩
  | copy hshape h1 h2 hd hrest ih =>
    obtain ⟨u, hstep, hu⟩ := hs.copy hshape h1 h2 hd (hrest.le.trans hN)
    obtain ⟨t, hreach, hlatch, ht⟩ := ih hN hu
    exact ⟨t, .next hstep hreach, hlatch.trans (keeps hs.host hstep), ht⟩

/-- With no byte left the core's turn is the loop's exit (R220, R260). -/
theorem Reading.step_end (h : Reading text N [] p s) : s.dec.ip.toNat = inLenOf s ∧ step s = endOfStream s := by
  have hip : s.dec.ip.toNat = inLenOf s := h.rest.length
  obtain ⟨hb, hp⟩ := Bool.and_eq_true_iff.mp h.running
  refine ⟨hip, ?_⟩
  rw [step_of_coreTurn h.host, coreOutcome, coreWork, if_pos hb, of_decide_eq_true hp]
  simp only [opsWork, if_neg hip.not_lt, workOutcome]

/-- At the stream's end, all of L produced, VALIDATE answers LEGAL (R272). -/
theorem Reading.validate_ends (h : Reading text N [] N s) (ho : s.latch.opcode = opValidate) :
    step s = .next (complete .none 1#1 0 s) := by
  obtain ⟨hip, hstep⟩ := h.step_end
  rw [hstep, endOfStream, withStream_validate h.running ho, if_pos ⟨h.op.trans h.L.symm, BitVec.eq_of_toNat_eq hip⟩]
  rfl

/-- DECOMPRESS completes with L (R235, R236). -/
theorem Reading.decompress_ends (h : Reading text N [] N s) (ho : s.latch.opcode = opDecompress) :
    step s = .next (complete .none 0#1 (s.dec.L.setWidth 64) s) := by
  obtain ⟨-, hstep⟩ := h.step_end
  rw [hstep, endOfStream, withStream_decompress h.running ho, if_pos (h.op.trans h.L.symm)]

end

end Sys2Proof.Machine

/-! PROOF. Whole commands on a stream that COMPRESS wrote: GETLEN, VALIDATE and DECOMPRESS read it back (R194). -/

namespace Sys2Proof.Machine

section

variable {s : State} {op : BitVec 3} {level : BitVec 2} {n : BitVec 32} {ops : List Byte} {text : Nat → Byte}

/-- The state in which a command that reads a stream starts its varint (R281). -/
abbrev started (op : BitVec 3) (level : BitVec 2) (s : State) : State := beginVarint (beginCommand op level s)

/-- IN, as the window's registers give it, holds these bytes. -/
structure InHolds (s : State) (bs : List Byte) : Prop where
  length : s.inLen.toNat = bs.length
  bytes : ∀ k (h : k < bs.length), memRead s.mem (s.inBase + BitVec.ofNat 64 k) = bs[k]

/-- A command that is started latches them as its IN. -/
theorem InHolds.endsWith {bs : List Byte} (h : InHolds s bs) : EndsWith (started op level s) 0 bs := by
  refine ⟨(Nat.zero_add _).trans h.length.symm, fun k hk => ?_⟩
  rw [Nat.zero_add]
  exact h.bytes k hk

/-- Its varint unit reads the varint that the stream starts with (R122, R126). -/
theorem InHolds.parses (hh : s.host = []) (ho : op = opGetlen ∨ op = opDecompress ∨ op = opValidate)
    (h : InHolds s (varintBytes n ++ ops)) :
    ∃ u v, Reaches (started op level s) u ∧ step u = varintOk (setVarint (started op level s) v) ∧
      v.acc.setWidth 32 = n ∧ v.count.toNat = (varintBytes n).length := by
  have hinv : VarintInv (started op level s) := ⟨ho, Nat.zero_le _, rfl, Nat.one_pos, Nat.zero_le _⟩
  have hpend : pendingVarint (started op level s) = some (n.toNat, (varintBytes n).length) :=
    varintDecode_window h.endsWith
  obtain ⟨u, v, hreach, hstep, hn, hm⟩ := varint_ends (s := started op level s) hh
    (busy_beginCommand s op level) rfl hinv hpend
  exact ⟨u, v, hreach, hstep, BitVec.eq_of_toNat_eq hn, hm⟩

/-- The operation loop starts with the operations left to read (R127, R223). -/
theorem InHolds.reading {v : VarintRegs} (hh : s.host = []) (h : InHolds s (varintBytes n ++ ops))
    (hn : v.acc.setWidth 32 = n) (hm : v.count.toNat = (varintBytes n).length)
    (hc : op = opValidate ∨ Restoring text n.toNat 0 (started op level s)) :
    Reading text n.toNat ops 0 (beginOps (setVarint (started op level s) v)) := by
  have hip : (beginOps (setVarint (started op level s) v)).dec.ip.toNat = 0 + (varintBytes n).length := by
    rw [Nat.zero_add, ← hm]
    exact BitVec.toNat_setWidth_of_le (by decide)
  refine ⟨Bool.and_eq_true_iff.mpr ⟨busy_beginCommand s op level, rfl⟩, hh, congrArg BitVec.toNat hn, rfl, ?_, ?_⟩
  · rw [hip]
    exact h.endsWith.drop rfl fun _ _ => rfl
  · exact hc.imp id fun hr => ⟨hr.opcode, hr.room, hr.wf, hr.own, hr.apart, hr.restored⟩

/-- GETLEN gives the length (R275). -/
theorem getlen_reads (hb : busy s = false) (hh : s.host = []) (hr : inReady s) (h : InHolds s (varintBytes n ++ ops)) :
    ∃ c t, exec (.cmdGetlen level) s = .next c ∧ Reaches c t ∧ t.status = 0x12#64 ∧ t.result = n.setWidth 64 := by
  have hexec : exec (.cmdGetlen level) s = .next (started opGetlen level s) := exec_cmdGetlen.trans (startIn_of_ready hb hr)
  obtain ⟨u, v, hparse, hstep, hn, -⟩ := h.parses (level := level) hh (.inl rfl)
  rw [varintOk_getlen rfl] at hstep
  exact ⟨_, _, hexec, hparse.trans (.next hstep (.here _)), rfl, congrArg (BitVec.setWidth 64) hn⟩

/-- VALIDATE answers LEGAL (R260, R272). -/
theorem validate_reads (hb : busy s = false) (hh : s.host = []) (hr : inReady s) (h : InHolds s (varintBytes n ++ ops))
    (ht : EncodesText text ops 0 n.toNat) :
    ∃ c t, exec (.cmdValidate level) s = .next c ∧ Reaches c t ∧ t.status = 0x12#64 := by
  have hexec : exec (.cmdValidate level) s = .next (started opValidate level s) :=
    exec_cmdValidate.trans (startIn_of_ready hb hr)
  obtain ⟨u, v, hparse, hstep, hn, hm⟩ := h.parses (level := level) hh (.inr (.inr rfl))
  rw [varintOk_validate rfl] at hstep
  have hstart := h.reading (text := text) (op := opValidate) (level := level) hh hn hm (.inl rfl)
  obtain ⟨w, hread, hlatch, hw⟩ := ht.read (Nat.le_refl _) hstart
  have hend := hw.validate_ends (by rw [hlatch]; rfl)
  exact ⟨_, _, hexec, hparse.trans (.next hstep (hread.trans (.next hend (.here _)))), rfl⟩

/-- DECOMPRESS with room for the text restores it (R220, R236). -/
theorem decompress_restores (hb : busy s = false) (hh : s.host = []) (hm : memWf s.mem = true) (hr : inOutReady s)
    (hroom : n.toNat ≤ s.outLen.toNat) (h : InHolds s (varintBytes n ++ ops)) (ht : EncodesText text ops 0 n.toNat) :
    ∃ c t, exec (.cmdDecompress level) s = .next c ∧ Reaches c t ∧ t.status = 0x02#64 ∧ t.result = n.setWidth 64 ∧
      ∀ k < n.toNat, memRead t.mem (s.outBase + BitVec.ofNat 64 k) = text k := by
  have hexec : exec (.cmdDecompress level) s = .next (started opDecompress level s) :=
    exec_cmdDecompress.trans (startInOut_of_ready hb hr)
  obtain ⟨u, v, hparse, hstep, hn, hcount⟩ := h.parses (level := level) hh (.inr (.inl rfl))
  have hfits : ((setVarint (started opDecompress level s) v).varint.acc.setWidth 32).toNat ≤
      outLenOf (setVarint (started opDecompress level s) v) := by
    rw [setVarint_varint, hn]
    exact hroom
  rw [varintOk_decompress rfl hfits] at hstep
  have hrestoring : Restoring text n.toNat 0 (started opDecompress level s) :=
    ⟨rfl, hroom, hm, inOutReady_own hr, inOutReady_apart hr, nofun⟩
  have hstart := h.reading hh hn hcount (.inr hrestoring)
  obtain ⟨w, hread, hlatch, hw⟩ := ht.read (Nat.le_refl _) hstart
  have hop : w.latch.opcode = opDecompress := by rw [hlatch]; rfl
  have hend := hw.decompress_ends hop
  have hL : w.dec.L = n := BitVec.eq_of_toNat_eq hw.L
  refine ⟨_, _, hexec, hparse.trans (.next hstep (hread.trans (.next hend (.here _)))), rfl,
    congrArg (BitVec.setWidth 64) hL, fun k hk => ?_⟩
  obtain hv | hr := hw.command
  · exact absurd (hop.symm.trans hv) (by decide)
  · have hbase : w.latch.outBase = s.outBase := by rw [hlatch]; rfl
    rw [← hr.restored k hk, outByte, outAddr, hbase]
    rfl

end

/-- Settles O37: it holds. COMPRESS writes the varint of the length and operations that encode the input, wherever its
matches lie, and the three commands read such a stream to its end. -/
theorem decompressRestoresCompressed : Obligations.DecompressRestoresCompressed := by
  unfold Obligations.DecompressRestoresCompressed
  intro level s hb hh hc hr hi ho
  obtain ⟨c, t, stream, ops, hexec, hreach, hstatus, hle, hlen, rfl, hops, hbytes⟩ :=
    compress_encodes (level := level) hb hh hc hr hi ho
  have hn : (s.inLen.setWidth 32).toNat = s.inLen.toNat := by
    rw [BitVec.toNat_setWidth]
    exact Nat.mod_eq_of_lt (by omega)
  have hwide : (s.inLen.setWidth 32).setWidth 64 = s.inLen := BitVec.eq_of_toNat_eq (by
    rw [BitVec.toNat_setWidth_of_le (by decide), hn])
  refine ⟨c, t, hexec, hreach, hstatus, hle, fun level' u hub huh hum hur hulen hubytes => ?_⟩
  have hstored : InHolds u (varintBytes (s.inLen.setWidth 32) ++ ops) :=
    ⟨by rw [hulen, hlen], fun k hk => (hubytes k (hlen ▸ hk)).trans (hbytes k hk)⟩
  rw [← hn] at hops
  refine ⟨?_, validate_reads hub huh hur hstored hops, fun huready hroom => ?_⟩
  · have hget := getlen_reads (level := level') hub huh hur hstored
    rwa [hwide] at hget
  · have hrestore := decompress_restores (level := level') hub huh hum huready (hn.trans_le hroom) hstored hops
    rwa [hwide, hn] at hrestore

end Sys2Proof.Machine

/-! PROOF. One operation of the stream, and the stream's end: what DECOMPRESS writes and what every failed check of
DECOMPRESS and VALIDATE leaves (R224 to R241, R261 to R272). -/

namespace Sys2Proof.Machine

section

variable {s : State} {m len offset : Nat}

/-! ### A check that fails -/

/-- The result ends the command with this STATUS word and RESULT 0, and no byte written. -/
abbrev EndsAs (s : State) (status : BitVec 64) (r : Result) : Prop := ∃ t, r = .next t ∧ EndedWith s t status 0

/-- CorruptedData, whatever the decoder's registers hold by then (R241, R302). -/
theorem raise_corruptedData_endsAs (s : State) (d : DecRegs) : EndsAs s 0x0E#64 (raise .corruptedData (setDec s d)) :=
  ⟨_, rfl, rfl⟩

/-- ILLEGAL likewise (R260). -/
theorem illegal_endsAs (s : State) (d : DecRegs) : EndsAs s 0x02#64 (illegal (setDec s d)) := ⟨_, rfl, rfl⟩

/-- A literal's body ends the command where one of its two checks fails (R225, R262). -/
theorem literalBody_endsAs (h : available s len = false ∨ fitsOutput s len = false) :
    EndsAs s 0x0E#64 (literalBody len s) ∧ EndsAs s 0x02#64 (shadowLiteralBody len s) := by
  obtain ⟨hbody, hshadow⟩ : literalBody len s = raise .corruptedData (setDec s (heldLength s.dec len)) ∧
      shadowLiteralBody len s = illegal (setDec s (heldLength s.dec len)) := by
    obtain ha | hf := h
    · simp [literalBody, shadowLiteralBody, ha]
    · simp [literalBody, shadowLiteralBody, hf]
  rw [hbody, hshadow]
  exact ⟨raise_corruptedData_endsAs _ _, illegal_endsAs _ _⟩

/-- So does a copy's (R231, R268). -/
theorem copyBody_endsAs (h : offsetOk s offset = false ∨ fitsOutput s len = false) :
    EndsAs s 0x0E#64 (copyBody offset len s) ∧ EndsAs s 0x02#64 (shadowCopyBody offset len s) := by
  obtain ⟨hbody, hshadow⟩ : copyBody offset len s = raise .corruptedData (setDec s (heldCopy s.dec offset len)) ∧
      shadowCopyBody offset len s = illegal (setDec s (heldCopy s.dec offset len)) := by
    obtain ho | hf := h
    · simp [copyBody, shadowCopyBody, ho]
    · simp [copyBody, shadowCopyBody, hf]
  rw [hbody, hshadow]
  exact ⟨raise_corruptedData_endsAs _ _, illegal_endsAs _ _⟩

/-- An operation ends the command where its operand bytes are missing, or where its body, run past them, does (R224,
R261). -/
theorem streamOp_endsAs {body shadowBody : State → Result} (hr : opsRunning s = true)
    (h : available s m = true → EndsAs s 0x0E#64 (body (operandTaken s m)) ∧
      EndsAs s 0x02#64 (shadowBody (operandTaken s m))) :
    (s.latch.opcode = opDecompress →
        EndsAs s 0x0E#64 (withStream (decoderOperand m body) (shadowOperand m shadowBody) s)) ∧
      (s.latch.opcode = opValidate →
        EndsAs s 0x02#64 (withStream (decoderOperand m body) (shadowOperand m shadowBody) s)) := by
  refine ⟨fun ho => ?_, fun ho => ?_⟩
  · rw [withStream_decompress hr ho, decoderOperand]
    split
    · next ha => exact (h ha).1
    · exact raise_corruptedData_endsAs s s.dec
  · rw [withStream_validate hr ho, shadowOperand]
    split
    · next ha => exact (h ha).2
    · exact illegal_endsAs s s.dec

/-- A literal that wants bytes IN does not have, or that does not fit L, ends the command. -/
theorem literalOp_endsAs (hr : opsRunning s = true) (h1 : 1 ≤ len) (h : inputLeft s < m + len ∨ outputLeft s < len) :
    (s.latch.opcode = opDecompress → EndsAs s 0x0E#64 (literalOp m len s)) ∧
      (s.latch.opcode = opValidate → EndsAs s 0x02#64 (literalOp m len s)) :=
  streamOp_endsAs hr fun ha => literalBody_endsAs (s := operandTaken s m) <| h.imp
    (fun hi => Bool.eq_false_iff.mpr (mt (available_operandTaken (available_iff.mp ha) h1).mp hi.not_ge))
    (fun hf => Bool.eq_false_iff.mpr (mt (fitsOutput_iff (s := s)).mp hf.not_ge))

/-- A copy that wants offset bytes IN does not have, whose offset is not 1 … op, or that does not fit L, ends it. -/
theorem copyOp_endsAs (hr : opsRunning s = true)
    (h : inputLeft s < m ∨ offset = 0 ∨ s.dec.op.toNat < offset ∨ outputLeft s < len) :
    (s.latch.opcode = opDecompress → EndsAs s 0x0E#64 (copyOp m offset len s)) ∧
      (s.latch.opcode = opValidate → EndsAs s 0x02#64 (copyOp m offset len s)) := by
  refine streamOp_endsAs hr fun ha => copyBody_endsAs (s := operandTaken s m) ?_
  obtain hi | h0 | hop | hf := h
  · exact absurd (available_iff.mp ha) hi.not_ge
  · exact .inl (Bool.and_eq_false_iff.mpr (.inl (decide_eq_false (by omega))))
  · exact .inl (Bool.and_eq_false_iff.mpr (.inr (decide_eq_false hop.not_ge)))
  · exact .inr (Bool.eq_false_iff.mpr (mt (fitsOutput_iff (s := s)).mp hf.not_ge))

/-- Once op = L every operation ends the command, since each is of at least one byte (R239). -/
theorem exec_stream_endsAs {i : Instr} (hc : contextOf i = .stream) (hr : opsRunning s = true)
    (ho : s.latch.opcode = opDecompress) (hL : outputLeft s = 0) : EndsAs s 0x0E#64 (exec i s) := by
  obtain ⟨m, len, h1, hexec⟩ | ⟨m, offset, len, h1, hexec⟩ := exec_stream hc
  · rw [hexec]
    exact (literalOp_endsAs hr h1 (.inr (hL.trans_lt h1))).1 ho
  · rw [hexec]
    exact (copyOp_endsAs hr (.inr (.inr (.inr (hL.trans_lt h1))))).1 ho

/-! ### What DECOMPRESS writes -/

/-- An operation that fits L, of at least one byte, fits OUT too (R222). -/
theorem Decompressing.op_le (h : Decompressing s) (h1 : 1 ≤ len) (hf : len ≤ outputLeft s) :
    s.dec.op.toNat ≤ s.dec.L.toNat ∧ s.dec.op.toNat + len ≤ outLenOf s := by
  obtain ⟨-, -, hL, -⟩ := h
  rw [outputLeft] at hf
  omega

/-- DECOMPRESS in its loop has what it wrote so far, with OUT's bytes its own and none of IN's (R64). -/
theorem Decompressing.restoring (h : Decompressing s) (hm : memWf s.mem = true) :
    Restoring (outByte s) (outLenOf s) s.dec.op.toNat s := by
  obtain ⟨-, ho, -, hin, hout⟩ := h
  obtain ⟨hown, hapart⟩ := outHeld_own hin hout
  exact ⟨ho, Nat.le_refl _, hm, hown, hapart, fun _ _ => rfl⟩

/-- The registers after a literal with `m` length bytes, ip moved once (R225). -/
theorem afterLiteral_operandTaken :
    afterLiteral (operandTaken s m).dec len = { s.dec with
      ip := s.dec.ip + BitVec.ofNat 64 (m + len), op := s.dec.op + BitVec.ofNat 64 len,
      len := BitVec.ofNat 64 len, k := BitVec.ofNat 64 len } := by
  rw [BitVec.ofNat_add, ← BitVec.add_assoc]
  rfl

/-- A move within OUT makes every byte written equal to the one `offset` below it (R231, R343). -/
theorem memRead_copyMoved (hm : memWf s.mem = true) (hown : ownsOut s) (h1 : 1 ≤ offset)
    (h2 : offset ≤ s.dec.op.toNat) (hr : s.dec.op.toNat + len ≤ outLenOf s) {k : Nat} (hk : k < len) :
    memRead (copyMoved s offset len) (outAddr s (s.dec.op.toNat + k)) =
      memRead (copyMoved s offset len) (outAddr s (s.dec.op.toNat - offset + k)) := by
  have hpos : s.dec.op.toNat = s.dec.op.toNat - offset + offset := by omega
  have hmove := memRead_copyBytes_overlap len offset (outAddr s (s.dec.op.toNat - offset)) hm h1
    (hown.part (j := s.dec.op.toNat - offset) (by omega)) hk
  rwa [← outAddr_add, ← outAddr_add, ← outAddr_add, ← Nat.add_assoc, ← hpos] at hmove

/-! ### The stream's end -/

/-- With no byte of IN left the core's turn is the loop's exit (R220, R260). -/
theorem coreOutcome_of_ops_end (hr : opsRunning s = true) (hi : inLenOf s ≤ s.dec.ip.toNat) :
    coreOutcome s = endOfStream s := by
  obtain ⟨hb, hp⟩ := Bool.and_eq_true_iff.mp hr
  rw [coreOutcome, coreWork, if_pos hb, of_decide_eq_true hp]
  simp only [opsWork, if_neg hi.not_gt, workOutcome]

end

/-- Settles O33: it holds. The bytes of OUT are their own and none is one of IN's, so the move gives each its source. -/
theorem literalsDecode : Obligations.LiteralsDecode := by
  unfold Obligations.LiteralsDecode
  intro i m len s hs hd hm ha hf
  obtain ⟨h1, hexec⟩ := exec_of_literalShape hs s
  obtain ⟨hopL, hroom⟩ := Decompressing.op_le hd h1 hf
  have hrest := Decompressing.restoring hd hm
  obtain ⟨hr, ho, hL, -⟩ := hd
  have hip : (s.dec.ip + BitVec.ofNat 64 (m + len)).toNat = s.dec.ip.toNat + m + len :=
    (operandTaken_ip_toNat ha).trans (Nat.add_assoc ..).symm
  rw [hexec, literalOp_decompress hr ho hopL hL h1 ha hf, afterLiteral_operandTaken]
  refine ⟨_, rfl, rfl, hip, op_toNat_of_fits h1 hf, fun k hk => ?_, copyBytes_map .., (copyBytes_opMemory _ hroom).outside⟩
  have hmove := hrest.memRead_move (i := s.dec.ip.toNat + m) (by rw [inputLeft] at ha; omega) hroom hk
  rwa [← operandTaken_ip_toNat (s := s) (m := m) (by omega)] at hmove ⊢

/-- Settles O35: it holds, since each check that fails ends the command before the move. -/
theorem literalsTrap : Obligations.LiteralsTrap := by
  unfold Obligations.LiteralsTrap
  intro i m len s hs hr hfail
  obtain ⟨h1, hexec⟩ := exec_of_literalShape hs s
  rw [hexec]
  exact literalOp_endsAs hr h1 hfail

/-- Settles O36: it holds. The bytes of OUT are their own, so the byte moved at each place is there when the move is
done, and so is its source. -/
theorem copiesDecode : Obligations.CopiesDecode := by
  unfold Obligations.CopiesDecode
  intro i m offset len s hs hd hm ha h1 h2 hf
  obtain ⟨hpos, hexec⟩ := exec_of_copyShape hs s
  obtain ⟨hopL, hroom⟩ := Decompressing.op_le hd hpos hf
  have hown := (Decompressing.restoring hd hm).own
  obtain ⟨hr, ho, hL, -⟩ := hd
  rw [hexec, copyOp_decompress hr ho hopL hL ha h1 h2 hf]
  exact ⟨_, rfl, rfl, op_toNat_of_fits hpos hf, fun k hk => memRead_copyMoved hm hown h1 h2 hroom hk,
    copyBytes_map .., (copyBytes_opMemory _ hroom).outside⟩

/-- Settles O38: it holds, since each check that fails ends the command before the move. -/
theorem copiesTrap : Obligations.CopiesTrap := by
  unfold Obligations.CopiesTrap
  intro i m offset len s hs hr hfail
  rw [(exec_of_copyShape hs s).2]
  exact copyOp_endsAs hr hfail

/-- Settles O40: it holds. Whatever tag the byte left is, its operation is of at least one byte, for which L has no room. -/
theorem trailingBytesRaise : Obligations.TrailingBytesRaise := by
  unfold Obligations.TrailingBytesRaise
  intro s hr ho hh hop hi
  obtain ⟨i, rest, hd⟩ := fetch_decodes s
  have hleft : outputLeft (consumeTag s) = 0 := Nat.sub_eq_zero_of_le hop.ge
  rw [step_of_coreTurn hh, coreOutcome_of_ops hr hi hd]
  exact exec_stream_endsAs (s := consumeTag s) (contextOf_decode_stream hd) hr ho hleft

/-- Settles O41: it holds, by the loop's exit in each of the two commands. -/
theorem endOfStreamAnswers : Obligations.EndOfStreamAnswers := by
  unfold Obligations.EndOfStreamAnswers
  intro s hr hh hi
  rw [step_of_coreTurn hh, coreOutcome_of_ops_end hr hi, endOfStream]
  refine ⟨fun ho hop => ?_, fun ho hop => ?_, fun ho hop hip => ?_, fun ho hne => ?_⟩
  · rw [withStream_decompress hr ho, if_pos hop]
    rfl
  · rw [withStream_decompress hr ho, if_neg hop]
    rfl
  · rw [withStream_validate hr ho, if_pos ⟨hop, BitVec.eq_of_toNat_eq hip⟩]
    rfl
  · rw [withStream_validate hr ho, if_neg fun ⟨hop, hip⟩ => hne.elim (· hop) (· (congrArg BitVec.toNat hip))]
    rfl

end Sys2Proof.Machine

/-! PROOF. VALIDATE's shadow of the stream operations: what it leaves of the registers, and that it goes on and ends where
DECOMPRESS does (R261 to R271, R273). -/

namespace Sys2Proof.Machine

section

variable {s v : State} {m len offset : Nat}

/-- The registers after the shadow of a literal with `m` length bytes, ip moved once (R262). -/
theorem skipLiteral_operandTaken :
    skipLiteral (operandTaken s m).dec len = { s.dec with
      ip := s.dec.ip + BitVec.ofNat 64 (m + len), op := s.dec.op + BitVec.ofNat 64 len, len := BitVec.ofNat 64 len } := by
  rw [BitVec.ofNat_add, ← BitVec.add_assoc]
  rfl

/-! ### The decoder and its shadow side by side -/

/-- The state in which VALIDATE stands where DECOMPRESS stands in `s`. -/
def shadowed (s : State) : State := { s with latch := { s.latch with opcode := opValidate } }

/-- The two answers go on with the same registers but k, or end with CorruptedData and with ILLEGAL (R273). -/
def AnswersAgree (decoder shadow : Result) : Prop :=
  ∃ t u, decoder = .next t ∧ shadow = .next u ∧
    ((busy t = true ∧ busy u = true ∧ t.dec = { u.dec with k := t.dec.k }) ∨
      (busy t = false ∧ errField t = 3#2 ∧ busy u = false ∧ errField u = 0#2 ∧ validField u = 0#1))

/-- Going on: the decoder's move of memory and its k are all that differs. -/
theorem AnswersAgree.of_next {d : DecRegs} {k : BitVec 64} {mem : Memory} (hs : busy s = true) (hv : busy v = true) :
    AnswersAgree (.next (setDec (setMem s mem) { d with k := k })) (.next (setDec v d)) :=
  ⟨_, _, rfl, rfl, .inl ⟨hs, hv, rfl⟩⟩

/-- Ending: STATUS alone says how (R241, R260). -/
theorem AnswersAgree.of_endsAs {decoder shadow : Result} (hd : EndsAs s 0x0E#64 decoder) (hs : EndsAs v 0x02#64 shadow) :
    AnswersAgree decoder shadow := by
  obtain ⟨t, rfl, ht⟩ := hd
  obtain ⟨u, rfl, hu⟩ := hs
  have htStatus : t.status = 0x0E#64 := congrArg State.status ht
  have huStatus : u.status = 0x02#64 := congrArg State.status hu
  refine ⟨t, u, rfl, rfl, .inr ?_⟩
  rw [busy, errField, busy, errField, validField, htStatus, huStatus]
  decide

/-- A literal fails the same two checks under both commands (R225, R262). -/
theorem literalOp_agrees (hr : opsRunning s = true) (ho : s.latch.opcode = opDecompress)
    (hL : s.dec.L.toNat ≤ outLenOf s) (h1 : 1 ≤ len) :
    AnswersAgree (literalOp m len s) (literalOp m len (shadowed s)) := by
  have hb : busy s = true := (Bool.and_eq_true_iff.mp hr).1
  by_cases h : m + len ≤ inputLeft s ∧ len ≤ outputLeft s
  · obtain ⟨hi, hf⟩ := h
    have hop : s.dec.op.toNat ≤ s.dec.L.toNat := by rw [outputLeft] at hf; omega
    rw [literalOp_decompress hr ho hop hL h1 hi hf, literalOp_validate (s := shadowed s) hr rfl h1 hi hf]
    exact .of_next hb hb
  · have hfail : inputLeft s < m + len ∨ outputLeft s < len := by omega
    exact .of_endsAs ((literalOp_endsAs hr h1 hfail).1 ho) ((literalOp_endsAs (s := shadowed s) hr h1 hfail).2 rfl)

/-- So does a copy (R231, R268). -/
theorem copyOp_agrees (hr : opsRunning s = true) (ho : s.latch.opcode = opDecompress)
    (hL : s.dec.L.toNat ≤ outLenOf s) (hpos : 1 ≤ len) :
    AnswersAgree (copyOp m offset len s) (copyOp m offset len (shadowed s)) := by
  have hb : busy s = true := (Bool.and_eq_true_iff.mp hr).1
  by_cases h : m ≤ inputLeft s ∧ 1 ≤ offset ∧ offset ≤ s.dec.op.toNat ∧ len ≤ outputLeft s
  · obtain ⟨hi, h1, h2, hf⟩ := h
    have hop : s.dec.op.toNat ≤ s.dec.L.toNat := by rw [outputLeft] at hf; omega
    rw [copyOp_decompress hr ho hop hL hi h1 h2 hf, copyOp_validate (s := shadowed s) hr rfl hi h1 h2 hf]
    exact .of_next hb hb
  · have hfail : inputLeft s < m ∨ offset = 0 ∨ s.dec.op.toNat < offset ∨ outputLeft s < len := by omega
    exact .of_endsAs ((copyOp_endsAs hr hfail).1 ho) ((copyOp_endsAs (s := shadowed s) hr hfail).2 rfl)

end

/-- Settles O34: it holds, since an operation whose checks pass goes on with its cursors moved, and the shadow writes
the decoder's registers alone. -/
theorem operationsValidate : Obligations.OperationsValidate := by
  unfold Obligations.OperationsValidate
  refine ⟨fun i m len s hs hv hi hf => ?_, fun i m offset len s hs hv hi h1 h2 hf => ?_⟩
  · obtain ⟨hr, ho⟩ := hv
    obtain ⟨hpos, hexec⟩ := exec_of_literalShape hs s
    rw [hexec, literalOp_validate hr ho hpos hi hf, skipLiteral_operandTaken]
    rfl
  · obtain ⟨hr, ho⟩ := hv
    rw [(exec_of_copyShape hs s).2, copyOp_validate hr ho hi h1 h2 hf]
    rfl

/-- Settles O39: it holds. Both commands make the same checks of an operation, and where L fits OUT the decoder has room
for every operation that passes them. -/
theorem shadowAgreesWithDecoder : Obligations.ShadowAgreesWithDecoder := by
  unfold Obligations.ShadowAgreesWithDecoder
  rintro i s _ hc hr ho hL rfl
  show AnswersAgree (exec i s) (exec i (shadowed s))
  obtain ⟨m, len, hpos, hexec⟩ | ⟨m, offset, len, hpos, hexec⟩ := exec_stream hc
  · rw [hexec, hexec]
    exact literalOp_agrees hr ho hL hpos
  · rw [hexec, hexec]
    exact copyOp_agrees hr ho hL hpos

end Sys2Proof.Machine

/-! PROOF. The error entry of the interface, and that the core's turn always answers (R286, R301, R302, R351). -/

namespace Sys2Proof.Machine

/-- Settles O9: it holds. `raise` is the atomic completion of R282, whose STATUS word has the fields it was given
(`statusDone_bits`); the codes are R301's. -/
theorem raiseCompletesWithCode : Obligations.RaiseCompletesWithCode := by
  unfold Obligations.RaiseCompletesWithCode
  intro err s
  obtain ⟨hbusy, hdone, herr, hvalid, hrest⟩ := statusDone_bits err 0#1
  refine ⟨complete err 0#1 0 s, rfl, rfl, hbusy, hdone, hvalid, hrest, herr.trans ?_⟩
  cases err with
  | none | inputTooLarge | insufficientBuffer | corruptedData => rfl

/-- Settles O59: it holds. With no action of the host to come the step is the core's turn, which answers under the
invariant. -/
theorem coreAlwaysSteps : Obligations.CoreAlwaysSteps := by
  unfold Obligations.CoreAlwaysSteps
  intro s h hh
  rw [step_of_coreTurn hh]
  exact h.coreOutcome_total

end Sys2Proof.Machine

/-! PROOF. The idle block (R314). -/

namespace Sys2Proof.Machine

/-- With BUSY = 0 the core's turn leaves the state as it is, whatever the phase (R314). -/
theorem coreOutcome_of_not_busy {s : State} (hb : busy s = false) : coreOutcome s = .next s := by
  rw [coreOutcome, coreWork, if_neg (Bool.eq_false_iff.mp hb)]
  rfl

/-- Settles O17: it holds. With nothing for the host to do the step is the core's turn, which keeps an idle block's
state. -/
theorem idleDoesNothing : Obligations.IdleDoesNothing := by
  unfold Obligations.IdleDoesNothing
  intro s hh hb
  rw [step_of_coreTurn hh]
  exact coreOutcome_of_not_busy hb

end Sys2Proof.Machine

/-! PROOF. The reset signal (R330, R331). -/

namespace Sys2Proof.Machine

section

variable {s : State}

/-! ### The OUT bytes a command may have written (R331) -/

theorem mayHaveWritten_of_not_busy (hb : busy s = false) : mayHaveWritten s = 0 := by
  rw [mayHaveWritten, if_neg (Bool.eq_false_iff.mp hb)]

/-- COMPRESS may have written up to R170's bound. -/
theorem mayHaveWritten_of_compress (hb : busy s = true) (ho : s.latch.opcode = opCompress) :
    mayHaveWritten s = 32 + inLenOf s + inLenOf s / 6 := by
  rw [mayHaveWritten, if_pos hb, if_pos ho, Config.maxCompressedLength]

theorem mayHaveWritten_of_decompress (hb : busy s = true) (ho : s.latch.opcode = opDecompress) :
    mayHaveWritten s = declaredLength s := by
  have hc : s.latch.opcode ≠ opCompress := by rw [ho]; decide
  rw [mayHaveWritten, if_pos hb, if_neg hc, if_pos ho]

/-- The other commands write no byte of OUT. -/
theorem mayHaveWritten_of_not_writesOut (hw : writesOut s = false) : mayHaveWritten s = 0 := by
  obtain ⟨hc, hd⟩ : s.latch.opcode ≠ opCompress ∧ s.latch.opcode ≠ opDecompress := by simpa [writesOut] using hw
  rw [mayHaveWritten, if_neg hc, if_neg hd, ite_self]

/-- Once the varint is parsed, L is the register. -/
theorem declaredLength_of_ops (hp : s.phase = .ops) : declaredLength s = s.dec.L.toNat := if_pos hp

/-- Before that, it is the value IN declares, where the buffer check would pass (log entry 17). -/
theorem declaredLength_of_parsed {v m : Nat} (hp : s.phase = .varint)
    (hv : varintDecode (varintWindow s) = some (v, m)) : declaredLength s = if v ≤ outLenOf s then v else 0 := by
  rw [declaredLength, if_neg (by simp [hp]), hv]

theorem declaredLength_of_unparsed (hp : s.phase = .varint) (hv : varintDecode (varintWindow s) = none) :
    declaredLength s = 0 := by
  rw [declaredLength, if_neg (by simp [hp]), hv]

/-! ### The reset signal -/

/-- The reset signal changes no byte but those the command may have written. -/
theorem resetBlock_outOnly (s : State) : outOnly s (resetBlock s) 0 (mayHaveWritten s) :=
  ⟨freeBytes_map _ _ _ _, fun a ha => memRead_freeBytes_of_ne _ _ _ _ _ fun k hk => by
    rw [← outAddr_add]
    exact ha k hk⟩

/-- A step that takes the reset signal. -/
theorem step_reset {rest : List HostAction} (h : s.host = .reset :: rest) :
    step s = .next (resetBlock (setHost s rest)) := step_of_action h

end

/-- Settles O16: it holds, with n the bytes that `mayHaveWritten` counts, command by command. -/
theorem resetSignal : Obligations.ResetSignal := by
  unfold Obligations.ResetSignal
  intro s rest h
  refine ⟨resetBlock (setHost s rest), mayHaveWritten s, step_reset h, rfl, resetBlock_outOnly (setHost s rest),
    mayHaveWritten_of_not_busy, mayHaveWritten_of_compress, fun hb ho hp => ?_,
    fun hb ho hp => ⟨fun v m hv => ?_, fun hv => ?_⟩, fun ho => ?_⟩
  · exact (mayHaveWritten_of_decompress hb ho).trans (declaredLength_of_ops hp)
  · exact (mayHaveWritten_of_decompress hb ho).trans (declaredLength_of_parsed hp hv)
  · exact (mayHaveWritten_of_decompress hb ho).trans (declaredLength_of_unparsed hp hv)
  · refine mayHaveWritten_of_not_writesOut ?_
    obtain ho | ho | ho := ho <;> rw [writesOut, ho] <;> rfl

end Sys2Proof.Machine
